-- ==== Sys2Proof/Word.lean ====
section
/-! DEFINITION. The word types of the core: 64-bit registers, bytes of the host window, GF(64) symbols,
and bit strings with bit 0 first (00_scope.md R14, R19, R20, R25). -/

namespace Sys2Proof

/-- A register or a command word: XLEN = 64 bits (R14, R20, R100). -/
abbrev Word := BitVec 64

/-- A byte of the host window (R70). -/
abbrev Byte := BitVec 8

/-- A GF(64) symbol, an integer in [0, 64) (R25, R230). -/
abbrev Sym := BitVec 6

/-- A bit string: the head is `s[0]`, the bit produced, written or transmitted first (R19). -/
abbrev Bits := List Bool

end Sys2Proof
end

