-- ==== Sys2Proof/Config.lean ====
section
/-! DEFINITION. The parameters of the implementation: the fixed ones of 00_scope.md R14 with their values,
and the open ones (BASE R15, QUANTISE R16, CRC24Q R18) as constants without a body. -/

namespace Sys2Proof.Config

/-- CAP: the capacity of a buffer in bits (R14). -/
def cap : Nat := 16384

/-- LMAX: the greatest LFSR width (R14, R165). -/
def lmax : Nat := 64

/-- WMAX: the greatest bit-field width (R14). -/
def wmax : Nat := 64

/-- k0: message symbols of LDPC slot 0, the code LDPC(100,200) (R14, R44). -/
def k0 : Nat := 100

/-- k1: message symbols of LDPC slot 1, the code LDPC(44,88) (R14, R44). -/
def k1 : Nat := 44

/-- N_MAIN: the Legendre length of the B1C main codes (R14, R184). -/
def nMain : Nat := 10243

/-- N_SUB: the Legendre length of the B1C sub code (R14, R184). -/
def nSub : Nat := 3607

/-- BASE, the platform address of the core's window: an open parameter (R15; log entry 4). -/
opaque base : Nat

/-- CRC24Q, a total function from a bit string to a 24-bit value: an open parameter of which
the core assumes only that its result depends on its argument (R18, R284; log entry 5). -/
opaque crc24q : Bits → BitVec 24

/-- QUANTISE(value, scale), the host's conversion of a scaled value to a raw integer: an open
parameter that the core never computes (R16, R140; log entry 6). Its arguments are real numbers, scale not 0: a
scale such as 2^-31·π (R141) is not rational. -/
opaque quantise : ℝ → ℝ → Int

end Sys2Proof.Config
end

