-- ==== Sys2Proof/Syntax.lean ====
section
/-! DEFINITION. The command set as syntax: one constructor of `Instr` for each of the 28 rows of
spec/opcode_table.json (30_encoding.md R101, R107, R108). -/

namespace Sys2Proof

/-- The eight bit-string buffers BUF0 to BUF7 (R40, R102). -/
inductive Buf where
  | b0 | b1 | b2 | b3 | b4 | b5 | b6 | b7
deriving DecidableEq, Repr

/-- The two LDPC code memories, named by field S (R28, R44, R101). -/
inductive Slot where
  | s0 | s1
deriving DecidableEq, Repr

/-- The Weil length that field S of WEIL selects: 0 the main code, 1 the sub code (R101, R186). -/
inductive WeilLen where
  | main | sub
deriving DecidableEq, Repr

/-- A command (R28, R108). Fields D, A, B, C are buffers; `append` is X; `w`, `sf`, `pg` are the
numbers in fields W, SF and PG; `placeholder` is Z (R101). -/
inductive Instr where
  /-- NOP, format N (R130). -/
  | nop
  /-- BUF.CAT, format DAB (R131). -/
  | bufCat (d a b : Buf)
  /-- PACK.U, format DXW (R142). -/
  | packU (d : Buf) (append : Bool) (w : Nat)
  /-- PACK.S, format DXW (R143). -/
  | packS (d : Buf) (append : Bool) (w : Nat)
  /-- UNPACK.U, format AW (R145). -/
  | unpackU (a : Buf) (w : Nat)
  /-- UNPACK.S, format AW (R146). -/
  | unpackS (a : Buf) (w : Nat)
  /-- LFSR.STEP, format N (R162). -/
  | lfsrStep
  /-- LFSR.RUN, format D (R163). -/
  | lfsrRun (d : Buf)
  /-- GOLD.B1I, format D (R181). -/
  | goldB1I (d : Buf)
  /-- GOLD.B3I, format D (R183). -/
  | goldB3I (d : Buf)
  /-- WEIL, format DS (R186). -/
  | weil (d : Buf) (sel : WeilLen)
  /-- BCH.GEN, format DA (R200). -/
  | bchGen (d a : Buf)
  /-- BCH.21_6, format DA (R201). -/
  | bch21_6 (d a : Buf)
  /-- BCH.51_8, format DA (R202). -/
  | bch51_8 (d a : Buf)
  /-- BCH.15_11, format DA (R204). -/
  | bch15_11 (d a : Buf)
  /-- BCH.15_11HW, format DA (R205). -/
  | bch15_11HW (d a : Buf)
  /-- BCH.B1I, format DA (R207). -/
  | bchB1I (d a : Buf)
  /-- BCH.B1IW1, format DA (R208). -/
  | bchB1IW1 (d a : Buf)
  /-- LDPC.DERIVE, format S (R233). -/
  | ldpcDerive (sl : Slot)
  /-- LDPC.ENC, format DAS (R234). -/
  | ldpcEnc (d a : Buf) (sl : Slot)
  /-- INTLV.B1C, format DAB (R261). -/
  | intlvB1C (d a b : Buf)
  /-- INTLV.B1I, format DAB (R264). -/
  | intlvB1I (d a b : Buf)
  /-- SF.B1I, format SFB (R281). -/
  | sfB1I (d a : Buf) (append : Bool) (sf pg : Nat) (placeholder : Bool)
  /-- SF.B1C1, format D (R283). -/
  | sfB1C1 (d : Buf)
  /-- SF.B1C2, format DA (R285). -/
  | sfB1C2 (d a : Buf)
  /-- SF.B1C3, format DA (R286). -/
  | sfB1C3 (d a : Buf)
  /-- FRAME.B1C, format DABC (R288). -/
  | frameB1C (d a b c : Buf)
  /-- FRAME.B1I, format DA (R289). -/
  | frameB1I (d a : Buf)
deriving DecidableEq, Repr

end Sys2Proof
end

