-- ==== Sys2Proof/WellFormed.lean ====
section
/-! DEFINITION. An instruction is well formed when each number it holds fits its field of the command
word (30_encoding.md R101). A width, subframe number or page that fits but is not legal is well formed:
the command itself raises the failure (R109). -/

namespace Sys2Proof

/-- Field W holds 0 to 127 (R101). -/
def fitsW (w : Nat) : Bool := decide (w < 128)

/-- Field SF holds 0 to 7 (R101). -/
def fitsSF (sf : Nat) : Bool := decide (sf < 8)

/-- Field PG holds 0 to 63 (R101). -/
def fitsPG (pg : Nat) : Bool := decide (pg < 64)

/-- Every number of the instruction fits its field (R101). -/
def Instr.wellFormed : Instr → Bool
  | .nop => true
  | .bufCat _ _ _ => true
  | .packU _ _ w => fitsW w
  | .packS _ _ w => fitsW w
  | .unpackU _ w => fitsW w
  | .unpackS _ w => fitsW w
  | .lfsrStep => true
  | .lfsrRun _ => true
  | .goldB1I _ => true
  | .goldB3I _ => true
  | .weil _ _ => true
  | .bchGen _ _ => true
  | .bch21_6 _ _ => true
  | .bch51_8 _ _ => true
  | .bch15_11 _ _ => true
  | .bch15_11HW _ _ => true
  | .bchB1I _ _ => true
  | .bchB1IW1 _ _ => true
  | .ldpcDerive _ => true
  | .ldpcEnc _ _ _ => true
  | .intlvB1C _ _ _ => true
  | .intlvB1I _ _ _ => true
  | .sfB1I _ _ _ sf pg _ => fitsSF sf && fitsPG pg
  | .sfB1C1 _ => true
  | .sfB1C2 _ _ => true
  | .sfB1C3 _ _ => true
  | .frameB1C _ _ _ _ => true
  | .frameB1I _ _ => true

end Sys2Proof
end

