-- ==== Sys2Proof/Decode.lean ====
section
/-! DEFINITION. Decoding a command word and encoding a command (30_encoding.md R100–R102, R107–R111).
The table is R108's, row for row; decoding follows the order of R109. -/

namespace Sys2Proof

/-- The number of a buffer in a field D, A, B or C (R102). -/
def Buf.num : Buf → Nat
  | .b0 => 0 | .b1 => 1 | .b2 => 2 | .b3 => 3 | .b4 => 4 | .b5 => 5 | .b6 => 6 | .b7 => 7

/-- The buffer that a 3-bit field names: every value is legal (R102). -/
def Buf.ofField (v : BitVec 3) : Buf :=
  match v.toNat with
  | 0 => .b0 | 1 => .b1 | 2 => .b2 | 3 => .b3 | 4 => .b4 | 5 => .b5 | 6 => .b6 | _ => .b7

/-- The number of a slot in field S (R101). -/
def Slot.num : Slot → Nat
  | .s0 => 0 | .s1 => 1

/-- Field S read as a slot (R101). -/
def Slot.ofField (v : BitVec 1) : Slot := if v = 0 then .s0 else .s1

/-- The number of a Weil length in field S (R101). -/
def WeilLen.num : WeilLen → Nat
  | .main => 0 | .sub => 1

/-- Field S read as a Weil length: 0 = main, 1 = sub (R101). -/
def WeilLen.ofField (v : BitVec 1) : WeilLen := if v = 0 then .main else .sub

/-- Bits [lo+n-1 : lo] of a command word (R102). -/
def field (lo n : Nat) (w : Word) : BitVec n := w.extractLsb' lo n

/-- OP = CMD[7:0] (R102). -/
def opcodeOf (w : Word) : BitVec 8 := field 0 8 w

/-- D = CMD[10:8] (R102). -/
def fieldD (w : Word) : Buf := Buf.ofField (field 8 3 w)

/-- A = CMD[13:11] (R102). -/
def fieldA (w : Word) : Buf := Buf.ofField (field 11 3 w)

/-- B = CMD[16:14] (R102). -/
def fieldB (w : Word) : Buf := Buf.ofField (field 14 3 w)

/-- C = CMD[19:17] (R102). -/
def fieldC (w : Word) : Buf := Buf.ofField (field 17 3 w)

/-- X = CMD[20] (R102). -/
def fieldX (w : Word) : Bool := field 20 1 w == 1

/-- W = CMD[27:21] (R102). -/
def fieldW (w : Word) : Nat := (field 21 7 w).toNat

/-- S = CMD[21] (R102). -/
def fieldS (w : Word) : BitVec 1 := field 21 1 w

/-- SF = CMD[23:21] (R102). -/
def fieldSF (w : Word) : Nat := (field 21 3 w).toNat

/-- PG = CMD[29:24] (R102). -/
def fieldPG (w : Word) : Nat := (field 24 6 w).toNat

/-- Z = CMD[30] (R102). -/
def fieldZ (w : Word) : Bool := field 30 1 w == 1

/-- One row of R108: a word selects the command when `(CMD AND mask) = pattern`. -/
structure Row where
  /-- The match value. -/
  pattern : Word
  /-- The mask: the opcode and every reserved bit. -/
  mask : Word
  /-- The command whose operands are read from the word. -/
  make : Word → Instr

/-- The defined opcodes with match and mask (R108). -/
def table : List Row := [
  ⟨0x00, 0xffffffffffffffff, fun _ => .nop⟩,
  ⟨0x01, 0xfffffffffffe00ff, fun w => .bufCat (fieldD w) (fieldA w) (fieldB w)⟩,
  ⟨0x08, 0xfffffffff00ff8ff, fun w => .packU (fieldD w) (fieldX w) (fieldW w)⟩,
  ⟨0x09, 0xfffffffff00ff8ff, fun w => .packS (fieldD w) (fieldX w) (fieldW w)⟩,
  ⟨0x0a, 0xfffffffff01fc7ff, fun w => .unpackU (fieldA w) (fieldW w)⟩,
  ⟨0x0b, 0xfffffffff01fc7ff, fun w => .unpackS (fieldA w) (fieldW w)⟩,
  ⟨0x10, 0xffffffffffffffff, fun _ => .lfsrStep⟩,
  ⟨0x11, 0xfffffffffffff8ff, fun w => .lfsrRun (fieldD w)⟩,
  ⟨0x18, 0xfffffffffffff8ff, fun w => .goldB1I (fieldD w)⟩,
  ⟨0x19, 0xfffffffffffff8ff, fun w => .goldB3I (fieldD w)⟩,
  ⟨0x1a, 0xffffffffffdff8ff, fun w => .weil (fieldD w) (WeilLen.ofField (fieldS w))⟩,
  ⟨0x20, 0xffffffffffffc0ff, fun w => .bchGen (fieldD w) (fieldA w)⟩,
  ⟨0x21, 0xffffffffffffc0ff, fun w => .bch21_6 (fieldD w) (fieldA w)⟩,
  ⟨0x22, 0xffffffffffffc0ff, fun w => .bch51_8 (fieldD w) (fieldA w)⟩,
  ⟨0x23, 0xffffffffffffc0ff, fun w => .bch15_11 (fieldD w) (fieldA w)⟩,
  ⟨0x24, 0xffffffffffffc0ff, fun w => .bch15_11HW (fieldD w) (fieldA w)⟩,
  ⟨0x25, 0xffffffffffffc0ff, fun w => .bchB1I (fieldD w) (fieldA w)⟩,
  ⟨0x26, 0xffffffffffffc0ff, fun w => .bchB1IW1 (fieldD w) (fieldA w)⟩,
  ⟨0x28, 0xffffffffffdfffff, fun w => .ldpcDerive (Slot.ofField (fieldS w))⟩,
  ⟨0x29, 0xffffffffffdfc0ff, fun w => .ldpcEnc (fieldD w) (fieldA w) (Slot.ofField (fieldS w))⟩,
  ⟨0x30, 0xfffffffffffe00ff, fun w => .intlvB1C (fieldD w) (fieldA w) (fieldB w)⟩,
  ⟨0x31, 0xfffffffffffe00ff, fun w => .intlvB1I (fieldD w) (fieldA w) (fieldB w)⟩,
  ⟨0x38, 0xffffffff800fc0ff,
    fun w => .sfB1I (fieldD w) (fieldA w) (fieldX w) (fieldSF w) (fieldPG w) (fieldZ w)⟩,
  ⟨0x39, 0xfffffffffffff8ff, fun w => .sfB1C1 (fieldD w)⟩,
  ⟨0x3a, 0xffffffffffffc0ff, fun w => .sfB1C2 (fieldD w) (fieldA w)⟩,
  ⟨0x3b, 0xffffffffffffc0ff, fun w => .sfB1C3 (fieldD w) (fieldA w)⟩,
  ⟨0x3c, 0xfffffffffff000ff, fun w => .frameB1C (fieldD w) (fieldA w) (fieldB w) (fieldC w)⟩,
  ⟨0x3d, 0xffffffffffffc0ff, fun w => .frameB1I (fieldD w) (fieldA w)⟩]

/-- The one outcome every 64-bit value has when it is decoded (R109 steps 2 to 4). -/
inductive Decoded where
  /-- OP is no opcode of R108: the typed failure UNSUPPORTED (R109, R110). -/
  | unsupported
  /-- OP is defined and a reserved bit is set: the fatal failure BAD_CMD (R109). -/
  | badCmd
  /-- A command. -/
  | instr (i : Instr)
deriving DecidableEq, Repr

/-- The row of an opcode, if R108 defines it. -/
def rowOf (op : BitVec 8) : Option Row := table.find? fun r => opcodeOf r.pattern == op

/-- Decoding, in the order of R109: the opcode first, then the reserved bits. Total. -/
def decode (w : Word) : Decoded :=
  match rowOf (opcodeOf w) with
  | none => .unsupported
  | some r => if w &&& r.mask = r.pattern then .instr (r.make w) else .badCmd

/-- A number placed at bit `lo` of a command word (R101). -/
def place (lo v : Nat) : Word := BitVec.ofNat 64 v <<< lo

/-- The command word of an instruction, from the patterns of R107 and the opcodes of R108;
reserved bits are 0 (R100). -/
def encode : Instr → Word
  | .nop => 0x00
  | .bufCat d a b => 0x01 ||| place 8 d.num ||| place 11 a.num ||| place 14 b.num
  | .packU d x w => 0x08 ||| place 8 d.num ||| place 20 x.toNat ||| place 21 w
  | .packS d x w => 0x09 ||| place 8 d.num ||| place 20 x.toNat ||| place 21 w
  | .unpackU a w => 0x0a ||| place 11 a.num ||| place 21 w
  | .unpackS a w => 0x0b ||| place 11 a.num ||| place 21 w
  | .lfsrStep => 0x10
  | .lfsrRun d => 0x11 ||| place 8 d.num
  | .goldB1I d => 0x18 ||| place 8 d.num
  | .goldB3I d => 0x19 ||| place 8 d.num
  | .weil d sel => 0x1a ||| place 8 d.num ||| place 21 sel.num
  | .bchGen d a => 0x20 ||| place 8 d.num ||| place 11 a.num
  | .bch21_6 d a => 0x21 ||| place 8 d.num ||| place 11 a.num
  | .bch51_8 d a => 0x22 ||| place 8 d.num ||| place 11 a.num
  | .bch15_11 d a => 0x23 ||| place 8 d.num ||| place 11 a.num
  | .bch15_11HW d a => 0x24 ||| place 8 d.num ||| place 11 a.num
  | .bchB1I d a => 0x25 ||| place 8 d.num ||| place 11 a.num
  | .bchB1IW1 d a => 0x26 ||| place 8 d.num ||| place 11 a.num
  | .ldpcDerive sl => 0x28 ||| place 21 sl.num
  | .ldpcEnc d a sl => 0x29 ||| place 8 d.num ||| place 11 a.num ||| place 21 sl.num
  | .intlvB1C d a b => 0x30 ||| place 8 d.num ||| place 11 a.num ||| place 14 b.num
  | .intlvB1I d a b => 0x31 ||| place 8 d.num ||| place 11 a.num ||| place 14 b.num
  | .sfB1I d a x sf pg z =>
    0x38 ||| place 8 d.num ||| place 11 a.num ||| place 20 x.toNat ||| place 21 sf ||| place 24 pg
      ||| place 30 z.toNat
  | .sfB1C1 d => 0x39 ||| place 8 d.num
  | .sfB1C2 d a => 0x3a ||| place 8 d.num ||| place 11 a.num
  | .sfB1C3 d a => 0x3b ||| place 8 d.num ||| place 11 a.num
  | .frameB1C d a b c => 0x3c ||| place 8 d.num ||| place 11 a.num ||| place 14 b.num ||| place 17 c.num
  | .frameB1I d a => 0x3d ||| place 8 d.num ||| place 11 a.num

/-- The command word of `nbits` bits `w`: a command is one 64-bit value (R100, R112), and bits the
table gives no value are 0. -/
def commandWord (nbits w : Nat) : Word := BitVec.ofNat 64 (w % 2 ^ nbits)

/-- The instruction that the decoder reads from a command word given as a number; none where it
rejects it. -/
def decodeTableWord (nbits w : Nat) : Option Instr :=
  match decode (commandWord nbits w) with
  | .instr i => some i
  | .unsupported => none
  | .badCmd => none

end Sys2Proof
end

