-- ==== Sys2Proof/Machine/BitString.lean ====
section
/-! DEFINITION. Bit strings and numbers (00_scope.md R19–R21), parity (R20), and the byte view of a bit
string (20_memory.md R74, 47_frame_assemblers.md R300). Everything is MSB first (20_memory.md R76). -/

namespace Sys2Proof.Machine

/-- `bits_W(v)`: the W-bit MSB-first string of v mod 2^W; bit i is `(v >> (W-1-i)) AND 1` (R21). -/
def bitsOf (w v : Nat) : Bits := (List.range w).map fun i => v.testBit (w - 1 - i)

/-- `num(s)`: the unsigned value of a string, its first bit most significant (R21). -/
def num (s : Bits) : Nat := s.foldl (fun acc b => 2 * acc + b.toNat) 0

/-- `s[i]` (R19); false past the end. -/
def bitAt (s : Bits) (i : Nat) : Bool := s.getD i false

/-- `s[i..j)`: bits i to j-1 (R19). -/
def substring (s : Bits) (i j : Nat) : Bits := (s.drop i).take (j - i)

/-- `0^n` (R19). -/
def zeros (n : Nat) : Bits := List.replicate n false

/-- `popcount(v)` of the low `n` bits of v (R20). -/
def popcount : Nat → Nat → Nat
  | 0, _ => 0
  | n + 1, v => v % 2 + popcount n (v / 2)

/-- `parity(v) = popcount(v) mod 2` of the low `n` bits of v (R20). -/
def parity (n v : Nat) : Bool := popcount n v % 2 == 1

/-- The byte whose bit 7 is the first bit of a string of at most 8 bits, padded with zeros at the end
(R74, R300). -/
def byteOf (s : Bits) : Byte := BitVec.ofNat 8 (num (s ++ zeros (8 - s.length)))

/-- The 8 bits of a byte, bit 7 first (R74). -/
def byteBits (v : Byte) : Bits := bitsOf 8 v.toNat

/-- The first `n` bytes of a string, 8 bits to a byte. -/
def packBytesFrom : Nat → Bits → List Byte
  | 0, _ => []
  | n + 1, s => byteOf (s.take 8) :: packBytesFrom n (s.drop 8)

/-- The bytes of a string: byte j holds bits 8j to 8j+7, the last one padded with zeros (R74, R300). -/
def packBytes (s : Bits) : List Byte := packBytesFrom ((s.length + 7) / 8) s

end Sys2Proof.Machine
end

