-- ==== Sys2Proof/Machine/State.lean ====
section
/-! DEFINITION. The state of the core as plain data (10_state.md R30), the accesses the host makes
(20_memory.md R70), what a step can end in, and the reset state (70_reset_and_hazards.md R342). -/

namespace Sys2Proof.Machine

/-- The codes of a typed failure (60_exceptions.md R310, R313). -/
inductive TypedCode where
  /-- An undefined opcode, or a subframe number of SF.B1I outside 1..5. -/
  | unsupported
  /-- A page of B1I subframe 4 or 5 whose PAGE_IMPL bit is 0. -/
  | unimplPage
deriving DecidableEq, Repr

/-- The codes of a fatal failure (60_exceptions.md R310, R312). -/
inductive FatalCode where
  /-- A reserved bit of the command word is 1. -/
  | badCmd
  /-- A source string has the wrong length, or a field extends past LEN. -/
  | badLength
  /-- A width outside 1..64. -/
  | badWidth
  /-- A negative unsigned value, n < k, or a value too wide for its field. -/
  | badValue
  /-- The result would be longer than CAP. -/
  | capacity
  /-- H2 of the slot is not invertible over GF(64). -/
  | singular
  /-- LDPC_VALID of the slot is 0. -/
  | notDerived
deriving DecidableEq, Repr

/-- STATUS.CODE takes exactly these values (60_exceptions.md R310). -/
inductive Code where
  | ok
  | typed (c : TypedCode)
  | fatal (c : FatalCode)
deriving DecidableEq, Repr

/-- The eight length registers LEN0 to LEN7, each with bits [14:0] (10_state.md R31, R42). -/
structure Lens where
  len0 : BitVec 15
  len1 : BitVec 15
  len2 : BitVec 15
  len3 : BitVec 15
  len4 : BitVec 15
  len5 : BitVec 15
  len6 : BitVec 15
  len7 : BitVec 15
deriving DecidableEq, Repr

/-- Buffer storage and matrix elements by window offset (20_memory.md R71, R74, R75): cells in strictly
rising order, none equal to what an unlisted offset reads as (log entry 9). -/
abbrev Memory := List Host.Cell

/-- The width of a host access: 1, 2, 4 or 8 bytes (20_memory.md R70). -/
inductive Width where
  | w1 | w2 | w4 | w8
deriving DecidableEq, Repr

/-- What the host or the platform does to the core next. Offsets are from BASE (20_memory.md R70). -/
inductive HostAccess where
  /-- A read of the given width (R70). -/
  | read (offset : Nat) (width : Width)
  /-- A write of the given width; a write narrower than 8 bytes uses the low bits of `value`. -/
  | write (offset : Nat) (width : Width) (value : Word)
  /-- The platform's hard reset (70_reset_and_hazards.md R340). -/
  | hardReset
deriving DecidableEq, Repr

/-- What the last access was answered (log entry 2). -/
inductive BusResponse where
  /-- No access has been answered since reset. -/
  | noResponse
  /-- A write has completed (10_state.md R32, R80). -/
  | written
  /-- The value of a read. -/
  | data (v : Word)
  /-- The error response: no core state has changed (20_memory.md R72). -/
  | busError
deriving DecidableEq, Repr

/-- The whole state: the architectural state of 10_state.md R30, then the model's two own fields. -/
structure State where
  /-- STATUS.CODE (R33). -/
  code : Code
  /-- STATUS.FATAL (R33). -/
  fatal : Bool
  /-- ERRCMD (R35). -/
  errcmd : Word
  /-- ARG0 (R36). -/
  arg0 : Word
  /-- ARG1 (R36). -/
  arg1 : Word
  /-- ARG2 (R36). -/
  arg2 : Word
  /-- RESULT (R37). -/
  result : Word
  /-- LFSR_WIDTH, bits [6:0] (R38). -/
  lfsrWidth : BitVec 7
  /-- LFSR_POLY (R38). -/
  lfsrPoly : Word
  /-- LFSR_STATE (R38). -/
  lfsrState : Word
  /-- PAGE_IMPL4 (R39). -/
  pageImpl4 : Word
  /-- PAGE_IMPL5 (R39). -/
  pageImpl5 : Word
  /-- LDPC_VALID, bits [1:0] (R47). -/
  ldpcValid : BitVec 2
  /-- LEN0 to LEN7 (R42). -/
  lens : Lens
  /-- The storage of BUF0 to BUF7 and the matrices H1, H2 and Q of both slots (R40, R44). -/
  mem : Memory
  /-- The model's own: accesses not yet performed, the first one next (log entry 1). -/
  pending : List HostAccess
  /-- The model's own: the answer to the last access (log entry 2). -/
  response : BusResponse
deriving DecidableEq, Repr

/-- How a command ends (00_scope.md R23): `done` with its writes made, or a failure raised. -/
inductive Verdict where
  /-- `done`: all checks passed; the state holds the command's writes but not yet its status. -/
  | done (t : State)
  /-- `raise TYPED(code)` (60_exceptions.md R313). -/
  | typed (c : TypedCode)
  /-- `raise FATAL(code)` (60_exceptions.md R312). -/
  | fatal (c : FatalCode)
deriving DecidableEq, Repr

/-- Why the machine stops with a fault. -/
inductive Fault where
  /-- Raised by a host access at offset 0x28000 or above: outside the core's window, where the platform
  decides what the access reaches (20_memory.md R71, 93 I7). Safe: the model stops where the platform
  would go on (log entry 3). -/
  | outsideWindow (offset : Nat)
deriving DecidableEq, Repr

/-- Why a command has no meaning. -/
inductive Refusal where
  /-- Raised by an arm of `exec` whose command has no meaning yet; no arm is left so. Safe: the model
  stops. -/
  | notModelled (mnemonic : String)
deriving DecidableEq, Repr

/-- All eight lengths 0 (70_reset_and_hazards.md R342). -/
def Lens.reset : Lens := ⟨0, 0, 0, 0, 0, 0, 0, 0⟩

/-- The machine right after reset (70_reset_and_hazards.md R342): every register 0 but PAGE_IMPL4 and
PAGE_IMPL5, every storage bit and matrix element 0, no access pending, none answered. -/
def State.reset : State where
  code := .ok
  fatal := false
  errcmd := 0
  arg0 := 0
  arg1 := 0
  arg2 := 0
  result := 0
  lfsrWidth := 0
  lfsrPoly := 0
  lfsrState := 0
  pageImpl4 := 0xFFFFFFFFFFFFFFFF
  pageImpl5 := 0xFFFFFFFFFFFFFFFF
  ldpcValid := 0
  lens := Lens.reset
  mem := []
  pending := []
  response := .noResponse

end Sys2Proof.Machine
end

