-- ==== Sys2Proof/Machine/Ops.lean ====
section
/-! DEFINITION. The shared operations over memory and registers, how a command ends (success, typed and
fatal failure: 60_exceptions.md R311–R314), and the reset that is the only way out of a fatal failure
(60_exceptions.md R321, 70_reset_and_hazards.md R341). -/

namespace Sys2Proof.Machine

/-! ### Memory -/

/-- What an offset that no cell lists reads as: reset leaves every storage bit and element 0 (R342). -/
def unlistedByte : Byte := 0

/-- The byte at an offset. -/
def readByte (m : Memory) (a : Nat) : Byte :=
  match m.find? fun c => c.1 == a with
  | some c => c.2
  | none => unlistedByte

/-- The cells at offsets lo to lo+n-1. -/
def slice (m : Memory) (lo n : Nat) : Memory := m.filter fun c => lo ≤ c.1 && c.1 < lo + n

/-- The n bytes from offset lo on. -/
def readRange (m : Memory) (lo n : Nat) : List Byte :=
  let cells := slice m lo n
  (List.range n).map fun i => readByte cells (lo + i)

/-- The cells of consecutive bytes from offset lo on, without those that need no cell. -/
def cellsOf : Nat → List Byte → Memory
  | _, [] => []
  | lo, v :: vs => if v = unlistedByte then cellsOf (lo + 1) vs else (lo, v) :: cellsOf (lo + 1) vs

/-- The n bytes from offset lo on replaced by the given bytes, and by unlisted ones after them: at most
n bytes are given. -/
def replaceRange (m : Memory) (lo n : Nat) (vs : List Byte) : Memory :=
  (m.filter fun c => c.1 < lo) ++ cellsOf lo (vs.take n) ++ (m.filter fun c => lo + n ≤ c.1)

/-- One byte written. -/
def writeByte (m : Memory) (a : Nat) (v : Byte) : Memory := replaceRange m a 1 [v]

/-- Bytes written one after another from an offset on. -/
def writeBytes (m : Memory) (a : Nat) : List Byte → Memory
  | [] => m
  | v :: vs => writeBytes (writeByte m a v) (a + 1) vs

/-- Offsets strictly rise. -/
def offsetsRise : Memory → Bool
  | [] => true
  | [_] => true
  | c :: d :: m => decide (c.1 < d.1) && offsetsRise (d :: m)

/-- The canonical form: offsets strictly rise and no cell holds what an unlisted offset reads as. -/
def memWf (m : Memory) : Bool := offsetsRise m && m.all fun c => decide (c.2 ≠ unlistedByte)

/-! ### Length registers -/

/-- LEN[b] (10_state.md R42). -/
def getLen (l : Lens) : Buf → BitVec 15
  | .b0 => l.len0 | .b1 => l.len1 | .b2 => l.len2 | .b3 => l.len3
  | .b4 => l.len4 | .b5 => l.len5 | .b6 => l.len6 | .b7 => l.len7

/-- LEN[b] ← v. -/
def setLen (l : Lens) (b : Buf) (v : BitVec 15) : Lens :=
  match b with
  | .b0 => { l with len0 := v } | .b1 => { l with len1 := v }
  | .b2 => { l with len2 := v } | .b3 => { l with len3 := v }
  | .b4 => { l with len4 := v } | .b5 => { l with len5 := v }
  | .b6 => { l with len6 := v } | .b7 => { l with len7 := v }

/-! ### The end of a command -/

/-- Success: STATUS.CODE ← OK after the command's other writes (R311). -/
def complete (t : State) : State := { t with code := .ok }

/-- `raise TYPED(code)`: STATUS.CODE ← code and nothing else (R313). -/
def raiseTyped (c : TypedCode) (s : State) : State := { s with code := .typed c }

/-- `raise FATAL(code)`: STATUS.CODE ← code, STATUS.FATAL ← 1, ERRCMD ← the command word, and nothing
else (R312). -/
def raiseFatal (c : FatalCode) (word : Word) (s : State) : State :=
  { s with code := .fatal c, fatal := true, errcmd := word }

/-- A command ends in the state its verdict gives, from the state `s` it began in: a command that
raises has made no write (R314). -/
def endState (word : Word) (s : State) : Verdict → State
  | .done t => complete t
  | .typed c => raiseTyped c s
  | .fatal c => raiseFatal c word s

/-- The command `i`, begun in `s`, ends with a verdict. The command word of `i` is `encode i`: it decoded,
so its reserved bits are 0 (log entry 7). -/
def conclude (i : Instr) (s : State) (v : Verdict) : Host.Outcome State Fault Refusal :=
  .next (endState (encode i) s v)

/-! ### Reset -/

/-- Hard or soft reset: every piece of architectural state takes its reset value (R340–R342). The host's
own pending accesses and the answer to the last one are not part of the core (log entries 1, 2, 12). -/
def resetCore (s : State) : State :=
  { State.reset with pending := s.pending, response := s.response }

end Sys2Proof.Machine
end

