-- ==== Sys2Proof/Machine/Flags.lean ====
section
/-! DEFINITION. The status bits. The core has no condition codes or arithmetic flags (10_state.md R49):
its only flags are STATUS.CODE and STATUS.FATAL (R33) and the two bits of LDPC_VALID (R47). -/

namespace Sys2Proof.Machine

/-- The value of STATUS.CODE (60_exceptions.md R310). -/
def codeValue : Code → BitVec 8
  | .ok => 0x00
  | .typed .unsupported => 0x01
  | .typed .unimplPage => 0x02
  | .fatal .badCmd => 0x10
  | .fatal .badLength => 0x11
  | .fatal .badWidth => 0x12
  | .fatal .badValue => 0x13
  | .fatal .capacity => 0x14
  | .fatal .singular => 0x15
  | .fatal .notDerived => 0x16

/-- STATUS: CODE in [7:0], FATAL in [8], bits [63:9] read 0 (R33). -/
def statusWord (s : State) : Word := (BitVec.ofBool s.fatal ++ codeValue s.code).setWidth 64

/-- LDPC_VALID[slot] (R47). -/
def slotValid (s : State) (sl : Slot) : Bool := s.ldpcValid.getLsbD sl.num

/-- LDPC_VALID[slot] ← 1 (R47, 45_ldpc.md R233). -/
def markValid (v : BitVec 2) (sl : Slot) : BitVec 2 := v ||| (1#2 <<< sl.num)

/-- LDPC_VALID[slot] ← 0 (R45). -/
def clearValid (v : BitVec 2) (sl : Slot) : BitVec 2 := v &&& ~~~(1#2 <<< sl.num)

end Sys2Proof.Machine
end

