-- ==== Sys2Proof/Machine/Operands.lean ====
section
/-! DEFINITION. The operand forms of a command (20_memory.md R86, 30_encoding.md R102, R103): a whole
buffer by number, an argument register, and a matrix by slot; and where they lie in the window
(20_memory.md R71, R74, R75). -/

namespace Sys2Proof.Machine

/-! ### Argument registers -/

/-- An argument or other register read as an unsigned integer (00_scope.md R20, 10_state.md R36). -/
def unsigned (v : Word) : Nat := v.toNat

/-- `signed64(v)`: a register read as a two's-complement integer (00_scope.md R20). -/
def signed64 (v : Word) : Int := v.toInt

/-! ### Buffers -/

/-- Bytes of a buffer's storage: CAP = 16384 bits (20_memory.md R71). -/
def bufBytes : Nat := 0x800

/-- The offset of buffer b: 0x1000 + 0x800·b (R74). -/
def bufBase (b : Buf) : Nat := 0x1000 + bufBytes * b.num

/-- Storage bit i of buffer b: bit 7 - (i mod 8) of the byte at bufBase b + i div 8 (10_state.md R40). -/
def storageBit (s : State) (b : Buf) (i : Nat) : Bool :=
  (readByte s.mem (bufBase b + i / 8)).getLsbD (7 - i % 8)

/-- LEN[b] as a number of bits (10_state.md R42). -/
def bufLen (s : State) (b : Buf) : Nat := (getLen s.lens b).toNat

/-- `BUF[b]`: storage bits 0 to LEN[b]-1 in order (00_scope.md R22, 10_state.md R40). -/
def readBuf (s : State) (b : Buf) : Bits :=
  let n := bufLen s b
  ((readRange s.mem (bufBase b) ((n + 7) / 8)).flatMap byteBits).take n

/-- `SetBuf(b, x)`: LEN[b] ← |x|, storage bits 0 to |x|-1 ← x, every other storage bit of the buffer ← 0
(00_scope.md R22, 10_state.md R41). -/
def setBuf (s : State) (b : Buf) (x : Bits) : State :=
  { s with
    lens := setLen s.lens b (BitVec.ofNat 15 x.length)
    mem := replaceRange s.mem (bufBase b) bufBytes (packBytes x) }

/-- What an appending command passes to SetBuf: `BUF[D] ++ t` with X = 1, else t (R41). -/
def appended (s : State) (append : Bool) (d : Buf) (t : Bits) : Bits :=
  if append then readBuf s d ++ t else t

/-! ### Matrices -/

/-- The three matrices of a slot (10_state.md R44). -/
inductive Matrix where
  | h1 | h2 | q
deriving DecidableEq, Repr

/-- k of a slot: 100 or 44 (00_scope.md R14, 10_state.md R44). -/
def slotSize : Slot → Nat
  | .s0 => Config.k0
  | .s1 => Config.k1

/-- The offset of a matrix region (20_memory.md R71). -/
def matrixBase : Matrix → Slot → Nat
  | .h1, .s0 => 0x10000
  | .h2, .s0 => 0x14000
  | .q, .s0 => 0x18000
  | .h1, .s1 => 0x1C000
  | .h2, .s1 => 0x20000
  | .q, .s1 => 0x24000

/-- Element [r][c], at region offset r·k + c, in bits [5:0] of its byte (R75, 10_state.md R44). -/
def element (s : State) (mx : Matrix) (sl : Slot) (r c : Nat) : Sym :=
  (readByte s.mem (matrixBase mx sl + (r * slotSize sl + c))).setWidth 6

/-- The rows of a k × k matrix, each its k elements in order. -/
def matrixRows (s : State) (mx : Matrix) (sl : Slot) : List (List Sym) :=
  let k := slotSize sl
  let region := slice s.mem (matrixBase mx sl) (k * k)
  (List.range k).map fun r =>
    (readRange region (matrixBase mx sl + r * k) k).map fun v => v.setWidth 6

/-- Every element of a matrix written, row by row (R75). -/
def setMatrix (s : State) (mx : Matrix) (sl : Slot) (rows : List (List Sym)) : State :=
  { s with
    mem := replaceRange s.mem (matrixBase mx sl) (slotSize sl * slotSize sl)
      (rows.flatten.map fun x => x.setWidth 8) }

end Sys2Proof.Machine
end

