-- ==== Sys2Proof/Machine/Bus.lean ====
section
/-! DEFINITION. The host's window (20_memory.md R70–R79): which accesses are allowed, and what a read gives
and a write does. A write to CMD runs a command and stands in Machine/Command.lean. -/

namespace Sys2Proof.Machine

/-- The window is offsets 0x00000 to 0x27FFF (R70). -/
def windowSize : Nat := 0x28000

/-- The registers of the block (10_state.md R31). -/
inductive Reg where
  | cmd | status | ctrl | errcmd | arg0 | arg1 | arg2 | result
  | lfsrWidth | lfsrPoly | lfsrState | pageImpl4 | pageImpl5 | ldpcValid
  | len (b : Buf)
  | reserved
deriving DecidableEq, Repr

/-- The register at an offset of the register block (10_state.md R31); every offset that R31 does not
name is reserved (R73). -/
def regAt (off : Nat) : Reg :=
  match off with
  | 0x000 => .cmd | 0x008 => .status | 0x010 => .ctrl | 0x018 => .errcmd
  | 0x020 => .arg0 | 0x028 => .arg1 | 0x030 => .arg2 | 0x038 => .result
  | 0x040 => .lfsrWidth | 0x048 => .lfsrPoly | 0x050 => .lfsrState
  | 0x058 => .pageImpl4 | 0x060 => .pageImpl5 | 0x068 => .ldpcValid
  | 0x080 => .len .b0 | 0x088 => .len .b1 | 0x090 => .len .b2 | 0x098 => .len .b3
  | 0x0A0 => .len .b4 | 0x0A8 => .len .b5 | 0x0B0 => .len .b6 | 0x0B8 => .len .b7
  | _ => .reserved

/-- The matrix regions are 0x4000 bytes each, from 0x10000 on (R71). -/
def regionAt (off : Nat) : Matrix × Slot :=
  match (off - 0x10000) / 0x4000 with
  | 0 => (.h1, .s0) | 1 => (.h2, .s0) | 2 => (.q, .s0)
  | 3 => (.h1, .s1) | 4 => (.h2, .s1) | _ => (.q, .s1)

/-- What an allowed access reaches. -/
inductive Target where
  /-- A register, by an 8-byte access. -/
  | reg (r : Reg)
  /-- One byte of buffer storage. -/
  | bufByte (off : Nat)
  /-- Eight bytes of buffer storage, big-endian. -/
  | bufWord (off : Nat)
  /-- The byte at index `idx` of a matrix region; it is an element when idx < k². -/
  | matrixByte (mx : Matrix) (sl : Slot) (idx : Nat)
deriving DecidableEq, Repr

/-- The target of an access inside the window; none for a bus error: a width or alignment that the region
does not allow, or the hole (R71, R72, R78). -/
def target (off : Nat) (w : Width) : Option Target :=
  if off < 0x1000 then
    if w = .w8 ∧ off % 8 = 0 then some (.reg (regAt off)) else none
  else if off < 0x5000 then
    if w = .w1 then some (.bufByte off)
    else if w = .w8 ∧ off % 8 = 0 then some (.bufWord off) else none
  else if off < 0x10000 then none
  else if w = .w1 then
    some (.matrixByte (regionAt off).1 (regionAt off).2 ((off - 0x10000) % 0x4000))
  else none

/-! ### Reads -/

/-- The value a register reads as (10_state.md R31–R39, R42, R47); bits it does not use read 0. -/
def readReg (s : State) : Reg → Word
  | .cmd => 0
  | .status => statusWord s
  | .ctrl => 0
  | .errcmd => s.errcmd
  | .arg0 => s.arg0
  | .arg1 => s.arg1
  | .arg2 => s.arg2
  | .result => s.result
  | .lfsrWidth => s.lfsrWidth.setWidth 64
  | .lfsrPoly => s.lfsrPoly
  | .lfsrState => s.lfsrState
  | .pageImpl4 => s.pageImpl4
  | .pageImpl5 => s.pageImpl5
  | .ldpcValid => s.ldpcValid.setWidth 64
  | .len b => (getLen s.lens b).setWidth 64
  | .reserved => 0

/-- Eight bytes as one value, the first the most significant (R74, R77). -/
def bigEndian (vs : List Byte) : Word := vs.foldl (fun acc v => (acc <<< 8) ||| v.setWidth 64) 0

/-- The value of an allowed read. No read has a side effect (R79). -/
def readTarget (s : State) : Target → Word
  | .reg r => readReg s r
  | .bufByte off => (readByte s.mem off).setWidth 64
  | .bufWord off => bigEndian (readRange s.mem off 8)
  | .matrixByte mx sl idx =>
    if idx < slotSize sl * slotSize sl then (readByte s.mem (matrixBase mx sl + idx)).setWidth 64
    else 0

/-! ### Writes -/

/-- A host write to a register (10_state.md R31–R39, R42, R47). Read-only and reserved registers ignore it.
CMD has no effect here: the write to CMD is the running of a command (Machine/Command.lean). -/
def writeReg (s : State) (v : Word) : Reg → State
  | .cmd => s
  | .status => s
  | .ctrl => if v.getLsbD 0 then resetCore s else s
  | .errcmd => s
  | .arg0 => { s with arg0 := v }
  | .arg1 => { s with arg1 := v }
  | .arg2 => { s with arg2 := v }
  | .result => s
  | .lfsrWidth => { s with lfsrWidth := v.setWidth 7 }
  | .lfsrPoly => { s with lfsrPoly := v }
  | .lfsrState => { s with lfsrState := v }
  | .pageImpl4 => { s with pageImpl4 := v }
  | .pageImpl5 => { s with pageImpl5 := v }
  | .ldpcValid => s
  | .len b => if v.toNat ≤ Config.cap then { s with lens := setLen s.lens b (v.setWidth 15) } else s
  | .reserved => s

/-- The eight bytes of a value, the most significant first (R74, R77). -/
def bigEndianBytes (v : Word) : List Byte :=
  (List.range 8).map fun i => (v >>> (56 - 8 * i)).setWidth 8

/-- A host write to an element: bits [5:0] are stored and LDPC_VALID of the slot is cleared, even when the
value is the one held; a byte that is no element ignores the write, and so does Q (R75, 10_state.md R45,
R46). -/
def writeMatrixByte (s : State) (mx : Matrix) (sl : Slot) (idx : Nat) (v : Word) : State :=
  if mx ≠ .q ∧ idx < slotSize sl * slotSize sl then
    { s with
      mem := writeByte s.mem (matrixBase mx sl + idx) ((v.setWidth 6).setWidth 8)
      ldpcValid := clearValid s.ldpcValid sl }
  else s

/-- The effect of an allowed write other than to CMD. -/
def writeTarget (s : State) (v : Word) : Target → State
  | .reg r => writeReg s v r
  | .bufByte off => { s with mem := writeByte s.mem off (v.setWidth 8) }
  | .bufWord off => { s with mem := writeBytes s.mem off (bigEndianBytes v) }
  | .matrixByte mx sl idx => writeMatrixByte s mx sl idx v

end Sys2Proof.Machine
end

