-- ==== Sys2Proof/Machine/Interleave.lean ====
section
/-! DEFINITION. The interleavers (46_interleavers.md): the B1I word interleaver R260 with INTLV.B1I, and the
B1C 36 × 48 block interleaver R262 with INTLV.B1C. -/

namespace Sys2Proof.Machine

/-- `Interleave2(a, b)`: a[0] b[0] a[1] b[1] … (R260). -/
def interleave2 (a b : Bits) : Bits := (a.zip b).flatMap fun p => [p.1, p.2]

/-- INTLV.B1I (R264). -/
def execIntlvB1I (d a b : Buf) (s : State) : Host.Outcome State Fault Refusal :=
  let x := readBuf s a
  let y := readBuf s b
  conclude (.intlvB1I d a b) s <|
    if x.length ≠ 15 then .fatal .badLength
    else if y.length ≠ 15 then .fatal .badLength
    else .done (setBuf s d (interleave2 x y))

/-- Row r of the matrix M takes its bits from the subframe-3 stream (R262). -/
def rowFromSF3 (r : Nat) : Bool := r < 33 && r % 3 == 2

/-- The rows of M from row r on, n of them: each takes the next 48 bits of its stream (R262). -/
def fillRows (r : Nat) (sf2 sf3 : Bits) : Nat → List Bits
  | 0 => []
  | n + 1 =>
    if rowFromSF3 r then sf3.take 48 :: fillRows (r + 1) sf2 (sf3.drop 48) n
    else sf2.take 48 :: fillRows (r + 1) (sf2.drop 48) sf3 n

/-- The column-major read-out: output bit 36·c + r is M[r][c] (R261). -/
def readColumns (rows : List Bits) : Bits :=
  (List.range 48).flatMap fun c => rows.map fun row => bitAt row c

/-- The 36 × 48 block interleaver of a subframe-2 and a subframe-3 codeword (R261, R262). -/
def interleave36x48 (sf2 sf3 : Bits) : Bits := readColumns (fillRows 0 sf2 sf3 36)

/-- INTLV.B1C (R261). -/
def execIntlvB1C (d a b : Buf) (s : State) : Host.Outcome State Fault Refusal :=
  let x := readBuf s a
  let y := readBuf s b
  conclude (.intlvB1C d a b) s <|
    if x.length ≠ 1200 then .fatal .badLength
    else if y.length ≠ 528 then .fatal .badLength
    else .done (setBuf s d (interleave36x48 x y))

end Sys2Proof.Machine
end

