-- ==== Sys2Proof/Machine/Lfsr.lean ====
section
/-! DEFINITION. The LFSR engine (42_lfsr.md): the primitive Step and Run, LFSR.STEP and LFSR.RUN. -/

namespace Sys2Proof.Machine

/-- The feedback and shift of Step: shift left, mask to L bits, insert the parity of the tapped bits at
the LSB (R160). -/
def lfsrNext (l poly st : Nat) : Nat := (st <<< 1) % 2 ^ l ||| (parity l (st &&& poly)).toNat

/-- `Step(L, poly, state) -> (bit, state')`: the bit is the MSB from before the shift (R160). -/
def lfsrStep (l poly st : Nat) : Bool × Nat := (st.testBit (l - 1), lfsrNext l poly st)

/-- `Run(L, poly, state, n) -> (s, state_n)`: n steps, the outputs in call order (R161). -/
def lfsrRun (l poly st : Nat) : Nat → Bits × Nat
  | 0 => ([], st)
  | n + 1 =>
    let r := lfsrStep l poly st
    let rest := lfsrRun l poly r.2 n
    (r.1 :: rest.1, rest.2)

/-- A register width outside 1..64 (R162, R163, R165). -/
def badLfsrWidth (l : Nat) : Bool := l = 0 || Config.lmax < l

/-- LFSR.STEP (R162). -/
def execLfsrStep (s : State) : Host.Outcome State Fault Refusal :=
  let l := s.lfsrWidth.toNat
  conclude .lfsrStep s <|
    if badLfsrWidth l then .fatal .badWidth
    else
      let r := lfsrStep l (unsigned s.lfsrPoly % 2 ^ l) (unsigned s.lfsrState % 2 ^ l)
      .done { s with lfsrState := BitVec.ofNat 64 r.2, result := BitVec.ofNat 64 r.1.toNat }

/-- LFSR.RUN (R163). -/
def execLfsrRun (d : Buf) (s : State) : Host.Outcome State Fault Refusal :=
  let l := s.lfsrWidth.toNat
  let n := unsigned s.arg0
  conclude (.lfsrRun d) s <|
    if badLfsrWidth l then .fatal .badWidth
    else if n > Config.cap then .fatal .capacity
    else
      let r := lfsrRun l (unsigned s.lfsrPoly % 2 ^ l) (unsigned s.lfsrState % 2 ^ l) n
      .done { setBuf s d r.1 with lfsrState := BitVec.ofNat 64 r.2 }

end Sys2Proof.Machine
end

