-- ==== Sys2Proof/Machine/Bch.lean ====
section
/-! DEFINITION. The BCH encoders (44_bch.md): BCH.GEN, BCH.21_6, BCH.51_8, BCH.15_11, BCH.15_11HW, BCH.B1I and
BCH.B1IW1. A message of the wrong length is the fatal BAD_LENGTH (R209). -/

namespace Sys2Proof.Machine

/-- The systematic encoder: a register of width k initialised to the message and stepped n times
(R200). -/
def bchEncode (n k mask : Nat) (m : Bits) : Bits := (lfsrRun k mask (num m) n).1

/-- BCH.GEN (R200). -/
def execBchGen (d a : Buf) (s : State) : Host.Outcome State Fault Refusal :=
  let n := unsigned s.arg0
  let k := unsigned s.arg1
  let g := unsigned s.arg2
  let m := readBuf s a
  conclude (.bchGen d a) s <|
    if badLfsrWidth k then .fatal .badWidth
    else if n < k then .fatal .badValue
    else if m.length ≠ k then .fatal .badLength
    else if n > Config.cap then .fatal .capacity
    else .done (setBuf s d (bchEncode n k (g % 2 ^ k) m))

/-- A fixed code: a message of exactly `len` bits is encoded into D, any other raises BAD_LENGTH (R209). -/
def encodeFixed (s : State) (d a : Buf) (len : Nat) (enc : Bits → Bits) : Verdict :=
  let m := readBuf s a
  if m.length ≠ len then .fatal .badLength else .done (setBuf s d (enc m))

/-- The BCH(21,6) codeword of a 6-bit message (R201). -/
def bch21 (m : Bits) : Bits := bchEncode 21 6 0b111010 m

/-- BCH.21_6 (R201). -/
def execBch21_6 (d a : Buf) (s : State) : Host.Outcome State Fault Refusal :=
  conclude (.bch21_6 d a) s (encodeFixed s d a 6 bch21)

/-- The BCH(51,8) codeword of an 8-bit message (R202). -/
def bch51 (m : Bits) : Bits := bchEncode 51 8 0b11111001 m

/-- BCH.51_8 (R202). -/
def execBch51_8 (d a : Buf) (s : State) : Host.Outcome State Fault Refusal :=
  conclude (.bch51_8 d a) s (encodeFixed s d a 8 bch51)

/-- `BCH15(m)`: the BCH(15,11,1) codeword of an 11-bit message, LFSR form with the check polynomial
(x^15+1)/(x^4+x+1) as feedback mask (R204, C1). -/
def bch15 (m : Bits) : Bits := bchEncode 15 11 0b11110101100 m

/-- BCH.15_11 (R204). -/
def execBch15_11 (d a : Buf) (s : State) : Host.Outcome State Fault Refusal :=
  conclude (.bch15_11 d a) s (encodeFixed s d a 11 bch15)

/-- The four registers r0..r3 of the register form (R205). -/
structure DividerRegs where
  r0 : Bool
  r1 : Bool
  r2 : Bool
  r3 : Bool
deriving DecidableEq, Repr

/-- One input bit: nxt = r3 XOR bit, then (r0, r1, r2, r3) ← (nxt, r0 XOR nxt, r1, r2) (R205, C2). -/
def divideBit (r : DividerRegs) (b : Bool) : DividerRegs :=
  let nxt := r.r3 ^^ b
  ⟨nxt, r.r0 ^^ nxt, r.r1, r.r2⟩

/-- The register form: the message, then r3, r2, r1, r0 (R205, C3). -/
def bch15Registers (m : Bits) : Bits :=
  let r := m.foldl divideBit ⟨false, false, false, false⟩
  m ++ [r.r3, r.r2, r.r1, r.r0]

/-- BCH.15_11HW (R205). -/
def execBch15_11HW (d a : Buf) (s : State) : Host.Outcome State Fault Refusal :=
  conclude (.bch15_11HW d a) s (encodeFixed s d a 11 bch15Registers)

/-- The word encoder for words 2 to 10: two 11-bit halves encoded and interleaved (R207, D26). -/
def b1iWord (m : Bits) : Bits := interleave2 (bch15 (substring m 0 11)) (bch15 (substring m 11 22))

/-- BCH.B1I (R207). -/
def execBchB1I (d a : Buf) (s : State) : Host.Outcome State Fault Refusal :=
  conclude (.bchB1I d a) s (encodeFixed s d a 22 b1iWord)

/-- The word-1 encoder: 15 raw bits, then the codeword of the last 11 (R208, C4). -/
def b1iWord1 (m : Bits) : Bits := substring m 0 15 ++ bch15 (substring m 15 26)

/-- BCH.B1IW1 (R208). -/
def execBchB1IW1 (d a : Buf) (s : State) : Host.Outcome State Fault Refusal :=
  conclude (.bchB1IW1 d a) s (encodeFixed s d a 26 b1iWord1)

end Sys2Proof.Machine
end

