-- ==== Sys2Proof/Machine/BitField.lean ====
section
/-! DEFINITION. The bit-field packer and unpacker (41_bitfield.md): PACK.U, PACK.S, UNPACK.U, UNPACK.S. -/

namespace Sys2Proof.Machine

/-- A width outside 1..64 (R142, R143, R145, R146, D33). -/
def badFieldWidth (w : Nat) : Bool := w = 0 || Config.wmax < w

/-- `bits_W(raw mod 2^W)`: the W-bit field of a raw value, higher bits discarded (R142, R143). -/
def fieldBits (w : Nat) (raw : Int) : Bits := bitsOf w (raw % (2 ^ w : Int)).toNat

/-- The end of a packing command: the field overwrites or is appended, within the capacity (R142, R143). -/
def packInto (s : State) (d : Buf) (append : Bool) (f : Bits) : Verdict :=
  let x := appended s append d f
  if x.length > Config.cap then .fatal .capacity else .done (setBuf s d x)

/-- PACK.U (R142). -/
def execPackU (d : Buf) (append : Bool) (w : Nat) (s : State) : Host.Outcome State Fault Refusal :=
  let raw := signed64 s.arg0
  conclude (.packU d append w) s <|
    if badFieldWidth w then .fatal .badWidth
    else if raw < 0 then .fatal .badValue
    else packInto s d append (fieldBits w raw)

/-- PACK.S (R143). -/
def execPackS (d : Buf) (append : Bool) (w : Nat) (s : State) : Host.Outcome State Fault Refusal :=
  let raw := signed64 s.arg0
  conclude (.packS d append w) s <|
    if badFieldWidth w then .fatal .badWidth
    else packInto s d append (fieldBits w raw)

/-- The bits o to o+W-1 of BUF[A] (R145, R146, 20_memory.md R86). -/
def unpackedField (s : State) (a : Buf) (w : Nat) : Bits :=
  substring (readBuf s a) (unsigned s.arg0) (unsigned s.arg0 + w)

/-- The value of a string read as a two's-complement number (R146). -/
def signedNum (f : Bits) : Int :=
  if bitAt f 0 then (num f : Int) - 2 ^ f.length else num f

/-- UNPACK.U (R145). -/
def execUnpackU (a : Buf) (w : Nat) (s : State) : Host.Outcome State Fault Refusal :=
  conclude (.unpackU a w) s <|
    if badFieldWidth w then .fatal .badWidth
    else if unsigned s.arg0 + w > bufLen s a then .fatal .badLength
    else .done { s with result := BitVec.ofNat 64 (num (unpackedField s a w)) }

/-- UNPACK.S (R146). -/
def execUnpackS (a : Buf) (w : Nat) (s : State) : Host.Outcome State Fault Refusal :=
  conclude (.unpackS a w) s <|
    if badFieldWidth w then .fatal .badWidth
    else if unsigned s.arg0 + w > bufLen s a then .fatal .badLength
    else .done { s with result := BitVec.ofInt 64 (signedNum (unpackedField s a w)) }

end Sys2Proof.Machine
end

