-- ==== Sys2Proof/Machine/Buffers.lean ====
section
/-! DEFINITION. Buffer and control commands (40_buffers.md): NOP, BUF.CAT. -/

namespace Sys2Proof.Machine

/-- NOP (R130). -/
def execNop (s : State) : Host.Outcome State Fault Refusal :=
  conclude .nop s (.done s)

/-- BUF.CAT (R131). -/
def execBufCat (d a b : Buf) (s : State) : Host.Outcome State Fault Refusal :=
  let x := readBuf s a
  let y := readBuf s b
  conclude (.bufCat d a b) s <|
    if x.length + y.length > Config.cap then .fatal .capacity
    else .done (setBuf s d (x ++ y))

end Sys2Proof.Machine
end

