-- ==== Sys2Proof/Machine/Ldpc.lean ====
section
/-! DEFINITION. GF(64) arithmetic and the LDPC encoder (45_ldpc.md): LDPC.DERIVE, LDPC.ENC. -/

namespace Sys2Proof.Machine

/-! ### GF(64) -/

/-- Addition, and subtraction: XOR (R230). -/
def gfAdd (a b : Sym) : Sym := a ^^^ b

/-- The carry-less product of a and b as polynomials over GF(2): a << i is added for each bit i of b that
is 1 (R230). -/
def carrylessProduct (a b : Nat) : Nat :=
  [0, 1, 2, 3, 4, 5].foldl (fun r i => r ^^^ ((b >>> i) % 2) * (a <<< i)) 0

/-- Reduction modulo p(x) = x^6 + x + 1: from degree d = 10 down to 6, p(x) << (d - 6) is added when bit d
is 1 (R230). -/
def reducePoly (r : Nat) : Nat :=
  [10, 9, 8, 7, 6].foldl (fun r d => r ^^^ ((r >>> d) % 2) * (0b1000011 <<< (d - 6))) r

/-- Multiplication (R230). -/
def gfMul (a b : Sym) : Sym := BitVec.ofNat 6 (reducePoly (carrylessProduct a.toNat b.toNat))

/-- The inverse of a non-zero symbol: a^62 = a^2 · a^4 · a^8 · a^16 · a^32 (R231). -/
def gfInv (a : Sym) : Sym :=
  let a2 := gfMul a a
  let a4 := gfMul a2 a2
  let a8 := gfMul a4 a4
  let a16 := gfMul a8 a8
  let a32 := gfMul a16 a16
  gfMul a2 (gfMul a4 (gfMul a8 (gfMul a16 a32)))

/-! ### Derivation -/

/-- Every symbol of a row multiplied by c. -/
def scaleRow (c : Sym) (row : List Sym) : List Sym := row.map (gfMul c)

/-- `acc + c · row`, symbol by symbol. -/
def addScaled (acc : List Sym) (c : Sym) (row : List Sym) : List Sym :=
  if c = 0 then acc else List.zipWith (fun x y => gfAdd x (gfMul c y)) acc row

/-- The first row whose leading symbol is not 0, and the other rows in order. -/
def takePivot : List (List Sym) → Option (List Sym × List (List Sym))
  | [] => none
  | row :: rows =>
    if row.headD 0 ≠ 0 then some (row, rows)
    else (takePivot rows).map fun p => (p.1, row :: p.2)

/-- A row with its leading column cleared by the normalised pivot row, and that column dropped. -/
def clearLead (pivot row : List Sym) : List Sym := addScaled row.tail (row.headD 0) pivot

/-- Gauss–Jordan elimination of n leading columns: `solved` are the rows that hold a pivot, `rest` those
that do not yet. A column with no pivot means that the leading block is singular (R233, I10). Each column
is dropped once it is a unit column. -/
def eliminate (solved rest : List (List Sym)) : Nat → Option (List (List Sym))
  | 0 => some solved
  | n + 1 =>
    match takePivot rest with
    | none => none
    | some (row, others) =>
      let pivot := scaleRow (gfInv (row.headD 0)) row.tail
      eliminate (solved.map (clearLead pivot) ++ [pivot]) (others.map (clearLead pivot)) n

/-- A = H2^-1 · H1 by eliminating [H2 | H1]; none when H2 is not invertible (R233; log entry 10). -/
def solveBlocks (k : Nat) (h2 h1 : List (List Sym)) : Option (List (List Sym)) :=
  eliminate [] (List.zipWith (· ++ ·) h2 h1) k

/-- The transpose of a matrix of k columns. -/
def transposeRows (k : Nat) (rows : List (List Sym)) : List (List Sym) :=
  (List.range k).map fun i => rows.map fun row => row.getD i 0

/-- Q = (H2^-1 · H1)^t of the current H1 and H2 of a slot; none when H2 is singular (R233). -/
def derivedQ (s : State) (sl : Slot) : Option (List (List Sym)) :=
  (solveBlocks (slotSize sl) (matrixRows s .h2 sl) (matrixRows s .h1 sl)).map
    (transposeRows (slotSize sl))

/-- LDPC.DERIVE (R233). -/
def execLdpcDerive (sl : Slot) (s : State) : Host.Outcome State Fault Refusal :=
  conclude (.ldpcDerive sl) s <|
    match derivedQ s sl with
    | none => .fatal .singular
    | some rows => .done { setMatrix s .q sl rows with ldpcValid := markValid s.ldpcValid sl }

/-! ### Encoding -/

/-- The symbols of a message of k symbols: u[i] = num(m[6i .. 6i+6)) (R232). -/
def symbolsOf : Nat → Bits → List Sym
  | 0, _ => []
  | k + 1, m => BitVec.ofNat 6 (num (m.take 6)) :: symbolsOf k (m.drop 6)

/-- The string of symbols: bits_6(u[0]) ++ bits_6(u[1]) ++ … (R232). -/
def symbolBits (u : List Sym) : Bits := u.flatMap fun x => bitsOf 6 x.toNat

/-- p[j] = XOR over i of gf_mul(u[i], Q[i][j]): the rows of Q added with the message's symbols (R234). -/
def paritySymbols (k : Nat) (u : List Sym) (q : List (List Sym)) : List Sym :=
  (u.zip q).foldl (fun acc p => addScaled acc p.1 p.2) (List.replicate k 0)

/-- `LDPCEncode(s, m)`: the message, then its parity symbols (R234, 47_frame_assemblers.md R285). -/
def ldpcEncode (s : State) (sl : Slot) (m : Bits) : Bits :=
  let k := slotSize sl
  m ++ symbolBits (paritySymbols k (symbolsOf k m) (matrixRows s .q sl))

/-- LDPC.ENC (R234). -/
def execLdpcEnc (d a : Buf) (sl : Slot) (s : State) : Host.Outcome State Fault Refusal :=
  let m := readBuf s a
  conclude (.ldpcEnc d a sl) s <|
    if m.length ≠ 6 * slotSize sl then .fatal .badLength
    else if slotValid s sl = false then .fatal .notDerived
    else .done (setBuf s d (ldpcEncode s sl m))

end Sys2Proof.Machine
end

