-- ==== Sys2Proof/Machine/Frames.lean ====
section
/-! DEFINITION. The subframe assemblers and frame builders (47_frame_assemblers.md): SF.B1I, SF.B1C1, SF.B1C2,
SF.B1C3, FRAME.B1C, FRAME.B1I. Each depends only on its operands and the derived slot (R287). -/

namespace Sys2Proof.Machine

/-- `RawWord(r, w)` of a 224-bit raw subframe, for w = 1 to 10 (R280). -/
def rawWord (r : Bits) (w : Nat) : Bits :=
  if w = 1 then substring r 0 26 else substring r (26 + 22 * (w - 2)) (26 + 22 * (w - 1))

/-- The ten encoded words of a raw subframe, word 1 first (R281). -/
def encodeB1ISubframe (r : Bits) : Bits :=
  b1iWord1 (rawWord r 1) ++ (List.range 9).flatMap fun j => b1iWord (rawWord r (j + 2))

/-- The page of a B1I subframe 4 or 5 has no implemented format (R281, R282, 10_state.md R39). -/
def pageUnimplemented (s : State) (sf pg : Nat) : Bool :=
  (sf == 4 && !s.pageImpl4.getLsbD pg) || (sf == 5 && !s.pageImpl5.getLsbD pg)

/-- The end of SF.B1I: the encoded subframe overwrites or is appended, within the capacity (R281). -/
def emitB1ISubframe (s : State) (d : Buf) (append : Bool) (r : Bits) : Verdict :=
  let x := appended s append d (encodeB1ISubframe r)
  if x.length > Config.cap then .fatal .capacity else .done (setBuf s d x)

/-- SF.B1I (R281). -/
def execSfB1I (d a : Buf) (append : Bool) (sf pg : Nat) (placeholder : Bool) (s : State) :
    Host.Outcome State Fault Refusal :=
  conclude (.sfB1I d a append sf pg placeholder) s <|
    if sf < 1 ∨ sf > 5 then .typed .unsupported
    else if placeholder = false ∧ pageUnimplemented s sf pg = true then .typed .unimplPage
    else if placeholder then emitB1ISubframe s d append (zeros 224)
    else
      let r := readBuf s a
      if r.length ≠ 224 then .fatal .badLength else emitB1ISubframe s d append r

/-- SF.B1C1 (R283). -/
def execSfB1C1 (d : Buf) (s : State) : Host.Outcome State Fault Refusal :=
  let prn := unsigned s.arg0
  let soh := unsigned s.arg1
  conclude (.sfB1C1 d) s <|
    if prn > 63 then .fatal .badValue
    else if soh > 255 then .fatal .badValue
    else .done (setBuf s d
      ((lfsrRun 6 0b111010 prn 21).1 ++ (lfsrRun 8 0b11111001 soh 51).1))

/-- `Seal(r) = r ++ bits_24(CRC24Q(r))` (R284). -/
def sealCrc (r : Bits) : Bits := r ++ bitsOf 24 (Config.crc24q r).toNat

/-- A raw subframe of `len` bits sealed and encoded with a slot (R285, R286). -/
def sealAndEncode (s : State) (d a : Buf) (len : Nat) (sl : Slot) : Verdict :=
  let r := readBuf s a
  if r.length ≠ len then .fatal .badLength
  else if slotValid s sl = false then .fatal .notDerived
  else .done (setBuf s d (ldpcEncode s sl (sealCrc r)))

/-- SF.B1C2: 576 raw bits, slot 0 (R285). -/
def execSfB1C2 (d a : Buf) (s : State) : Host.Outcome State Fault Refusal :=
  conclude (.sfB1C2 d a) s (sealAndEncode s d a 576 .s0)

/-- SF.B1C3: 240 raw bits, slot 1 (R286). -/
def execSfB1C3 (d a : Buf) (s : State) : Host.Outcome State Fault Refusal :=
  conclude (.sfB1C3 d a) s (sealAndEncode s d a 240 .s1)

/-- FRAME.B1C (R288). -/
def execFrameB1C (d a b c : Buf) (s : State) : Host.Outcome State Fault Refusal :=
  let x := readBuf s a
  let y := readBuf s b
  let z := readBuf s c
  conclude (.frameB1C d a b c) s <|
    if x.length ≠ 72 then .fatal .badLength
    else if y.length ≠ 1200 then .fatal .badLength
    else if z.length ≠ 528 then .fatal .badLength
    else .done (setBuf s d (x ++ interleave36x48 y z))

/-- FRAME.B1I: 4 zero bits appended to a 1500-bit body (R289, C8). -/
def execFrameB1I (d a : Buf) (s : State) : Host.Outcome State Fault Refusal :=
  let f := readBuf s a
  conclude (.frameB1I d a) s <|
    if f.length ≠ 1500 then .fatal .badLength
    else .done (setBuf s d (f ++ zeros 4))

end Sys2Proof.Machine
end

