-- ==== Sys2Proof/Machine/Sequences.lean ====
section
/-! DEFINITION. The ranging-code generators (43_sequence_generators.md): GOLD.B1I, GOLD.B3I, WEIL. The Gold
registers live only while a command runs (10_state.md R50). -/

namespace Sys2Proof.Machine

/-- Feedback polynomial of B1I G1 (00_scope.md R17, R181). -/
def b1iG1Poly : Nat := 0b11111000001

/-- Feedback polynomial of B1I G2 (00_scope.md R17, R181). -/
def b1iG2Poly : Nat := 0b10110011111

/-- The initial phase of B1I G1 and G2 (R181). -/
def b1iPhase : Nat := 0b01010101010

/-- The loop of R181: G1's output bit XOR the parity of the stages of G2 that the mask selects, G2
stepped every iteration with its output discarded. -/
def goldB1ILoop (mask g1 g2 : Nat) : Nat → Bits
  | 0 => []
  | n + 1 =>
    let r1 := lfsrStep 11 b1iG1Poly g1
    let r2 := lfsrStep 11 b1iG2Poly g2
    (r1.1 ^^ parity 11 (g2 &&& mask)) :: goldB1ILoop mask r1.2 r2.2 n

/-- GOLD.B1I (R181). -/
def execGoldB1I (d : Buf) (s : State) : Host.Outcome State Fault Refusal :=
  let mask := unsigned s.arg0 &&& 0x7FF
  let n := unsigned s.arg1
  conclude (.goldB1I d) s <|
    if n > Config.cap then .fatal .capacity
    else .done (setBuf s d (goldB1ILoop mask b1iPhase b1iPhase n))

/-- Feedback polynomial of B3I G1 (00_scope.md R17, R183). -/
def b3iG1Poly : Nat := 0b1000000001101

/-- Feedback polynomial of B3I G2 (00_scope.md R17, R183). -/
def b3iG2Poly : Nat := 0b1101101110001

/-- The initial phase of B3I G1, which it is reset to every 8190 output bits (R183). -/
def b3iPhase : Nat := 0b1111111111111

/-- The output bits between two resets of B3I G1 (R183, D19). -/
def b3iResetEvery : Nat := 8190

/-- The loop of R183 from output bit i on. -/
def goldB3ILoop (i g1 g2 : Nat) : Nat → Bits
  | 0 => []
  | n + 1 =>
    let g1' := if i ≠ 0 ∧ i % b3iResetEvery = 0 then b3iPhase else g1
    let r1 := lfsrStep 13 b3iG1Poly g1'
    let r2 := lfsrStep 13 b3iG2Poly g2
    (r1.1 ^^ r2.1) :: goldB3ILoop (i + 1) r1.2 r2.2 n

/-- GOLD.B3I (R183). -/
def execGoldB3I (d : Buf) (s : State) : Host.Outcome State Fault Refusal :=
  let g2 := unsigned s.arg0 &&& 0x1FFF
  let n := unsigned s.arg1
  conclude (.goldB3I d) s <|
    if n > Config.cap then .fatal .capacity
    else .done (setBuf s d (goldB3ILoop 0 b3iPhase g2 n))

/-- N of a Weil code: 10243 or 3607 (R186). -/
def weilModulus : WeilLen → Nat
  | .main => Config.nMain
  | .sub => Config.nSub

/-- `Leg_N(k)`: 1 when k ≠ 0 and k^((N-1)/2) mod N = 1 (R184). -/
def legendre (n k : Nat) : Bool := k ≠ 0 && k ^ ((n - 1) / 2) % n == 1

/-- `Weil_N(k; w) = Leg_N(k) XOR Leg_N((k + w) mod N)` (R185). -/
def weilBit (n w k : Nat) : Bool := legendre n k ^^ legendre n ((k + w) % n)

/-- Bit i of the ranging code: Weil_N at index (p - 1 + i) mod N, over the mathematical integers
(R185, R186, 00_scope.md R20). -/
def weilCodeBit (n w p i : Nat) : Bool := weilBit n w (((p : Int) - 1 + i) % (n : Int)).toNat

/-- WEIL (R186). -/
def execWeil (d : Buf) (sel : WeilLen) (s : State) : Host.Outcome State Fault Refusal :=
  let n := unsigned s.arg2
  conclude (.weil d sel) s <|
    if n > Config.cap then .fatal .capacity
    else .done (setBuf s d ((List.range n).map
      (weilCodeBit (weilModulus sel) (unsigned s.arg0) (unsigned s.arg1))))

end Sys2Proof.Machine
end

