-- ==== Sys2Proof/Machine/Dispatch.lean ====
section
/-! DEFINITION. The meaning of every command: one arm per constructor of `Instr`. -/

namespace Sys2Proof.Machine

/-- The effect of a decoded command that the fatal gate lets through (30_encoding.md R109 step 4). -/
def exec (i : Instr) (s : State) : Host.Outcome State Fault Refusal :=
  match i with
  | .nop => Sys2Proof.Machine.execNop s
  | .bufCat d a b => Sys2Proof.Machine.execBufCat d a b s
  | .packU d x w => Sys2Proof.Machine.execPackU d x w s
  | .packS d x w => Sys2Proof.Machine.execPackS d x w s
  | .unpackU a w => Sys2Proof.Machine.execUnpackU a w s
  | .unpackS a w => Sys2Proof.Machine.execUnpackS a w s
  | .lfsrStep => Sys2Proof.Machine.execLfsrStep s
  | .lfsrRun d => Sys2Proof.Machine.execLfsrRun d s
  | .goldB1I d => Sys2Proof.Machine.execGoldB1I d s
  | .goldB3I d => Sys2Proof.Machine.execGoldB3I d s
  | .weil d sel => Sys2Proof.Machine.execWeil d sel s
  | .bchGen d a => Sys2Proof.Machine.execBchGen d a s
  | .bch21_6 d a => Sys2Proof.Machine.execBch21_6 d a s
  | .bch51_8 d a => Sys2Proof.Machine.execBch51_8 d a s
  | .bch15_11 d a => Sys2Proof.Machine.execBch15_11 d a s
  | .bch15_11HW d a => Sys2Proof.Machine.execBch15_11HW d a s
  | .bchB1I d a => Sys2Proof.Machine.execBchB1I d a s
  | .bchB1IW1 d a => Sys2Proof.Machine.execBchB1IW1 d a s
  | .ldpcDerive sl => Sys2Proof.Machine.execLdpcDerive sl s
  | .ldpcEnc d a sl => Sys2Proof.Machine.execLdpcEnc d a sl s
  | .intlvB1C d a b => Sys2Proof.Machine.execIntlvB1C d a b s
  | .intlvB1I d a b => Sys2Proof.Machine.execIntlvB1I d a b s
  | .sfB1I d a x sf pg z => Sys2Proof.Machine.execSfB1I d a x sf pg z s
  | .sfB1C1 d => Sys2Proof.Machine.execSfB1C1 d s
  | .sfB1C2 d a => Sys2Proof.Machine.execSfB1C2 d a s
  | .sfB1C3 d a => Sys2Proof.Machine.execSfB1C3 d a s
  | .frameB1C d a b c => Sys2Proof.Machine.execFrameB1C d a b c s
  | .frameB1I d a => Sys2Proof.Machine.execFrameB1I d a s

end Sys2Proof.Machine
end

