-- ==== Sys2Proof/Machine/Command.lean ====
section
/-! DEFINITION. A write to CMD (30_encoding.md R109, 60_exceptions.md R315) and one host access as a whole
(20_memory.md R70–R72, R79, R80). -/

namespace Sys2Proof.Machine

/-- A write of `w` to CMD, in the order of R109 and R318: the fatal gate, the opcode, the reserved bits,
then the command. -/
def runCommand (w : Word) (s : State) : Host.Outcome State Fault Refusal :=
  if s.fatal then .next s
  else
    match decode w with
    | .unsupported => .next (raiseTyped .unsupported s)
    | .badCmd => .next (raiseFatal .badCmd w s)
    | .instr i => exec i s

/-- One read of the host. -/
def performRead (off : Nat) (w : Width) (s : State) : Host.Outcome State Fault Refusal :=
  if windowSize ≤ off then .fault (.outsideWindow off)
  else
    match target off w with
    | none => .next { s with response := .busError }
    | some tg => .next { s with response := .data (readTarget s tg) }

/-- One write of the host. A write to CMD completes when its command has run (10_state.md R32). -/
def performWrite (off : Nat) (w : Width) (v : Word) (s : State) : Host.Outcome State Fault Refusal :=
  if windowSize ≤ off then .fault (.outsideWindow off)
  else
    match target off w with
    | none => .next { s with response := .busError }
    | some (.reg .cmd) => runCommand v { s with response := .written }
    | some tg => .next (writeTarget { s with response := .written } v tg)

/-- One access of the host, or the platform's hard reset (R70, 70_reset_and_hazards.md R340). -/
def perform (s : State) : HostAccess → Host.Outcome State Fault Refusal
  | .read off w => performRead off w s
  | .write off w v => performWrite off w v s
  | .hardReset => .next { resetCore s with response := .noResponse }

/-- The state with a host write of the command word to CMD as the next access: the word is where the next
step takes its command from. -/
def queueCommand (s : State) (w : Word) : State :=
  { s with pending := .write 0x000 .w8 w :: s.pending }

end Sys2Proof.Machine
end

