-- ==== Sys2Proof/Machine/Step.lean ====
section
/-! DEFINITION. One step of the machine: the next pending access of the host, performed whole
(20_memory.md R80; log entry 1). -/

namespace Sys2Proof.Machine

/-- One step. With no access pending all state holds its value (60_exceptions.md R328). -/
def step (s : State) : Host.Outcome State Fault Refusal :=
  match s.pending with
  | [] => .next s
  | a :: rest => perform { s with pending := rest } a

/-- The state in which the next step runs the command word of `nbits` bits `w`: the host's write of it to
CMD is the next access (10_state.md R32, R48; log entry 1). -/
def State.withFetchWord (s : State) (nbits w : Nat) : State := queueCommand s (commandWord nbits w)

end Sys2Proof.Machine
end

