-- ==== Sys2Proof/Machine/HostSide.lean ====
section
/-! DEFINITION. What the spec gives the host beside the core: quantisation (41_bitfield.md R140), the test-only
inverse of the block interleaver (46_interleavers.md R263), the renderings of a bit string
(47_frame_assemblers.md R298–R300), the pseudo-commands (30_encoding.md R114), the assembler text (R113),
and the reference CRC for tests (93_implementation_defined.md G1). No step of the machine calls these. -/

namespace Sys2Proof.Machine

/-! ### Quantisation -/

/-- An input of QUANTISE as the host may be given it (R140). -/
inductive HostNumber where
  /-- A real number. -/
  | real (x : ℝ)
  /-- An infinite input. -/
  | infinite
  /-- A NaN. -/
  | nan
  /-- An input that is no number. -/
  | nonNumeric

/-- The inputs that have a raw: real numbers, with a scale that is not 0. The host must refuse all others
(R140). -/
def HasRaw : HostNumber → HostNumber → Prop
  | .real _, .real scale => scale ≠ 0
  | _, _ => False

/-- `raw` is the integer nearest to q, the even one where q lies halfway between two (R140). -/
def RoundsHalfEven (q : ℝ) (raw : Int) : Prop := |q - raw| ≤ 1 / 2 ∧ (|q - raw| = 1 / 2 → Even raw)

/-- `raw` is the reference value of QUANTISE: the exact real quotient rounded to the nearest integer, a half to
the even one; refused inputs have none (R140). -/
def IsReferenceRaw : HostNumber → HostNumber → Int → Prop
  | .real value, .real scale, raw => scale ≠ 0 ∧ RoundsHalfEven (value / scale) raw
  | _, _, _ => False

/-- `raw` is what a host whose QUANTISE is the open parameter gives; refused inputs have none (R16, R140). -/
def IsHostRaw : HostNumber → HostNumber → Int → Prop
  | .real value, .real scale, raw => scale ≠ 0 ∧ raw = Config.quantise value scale
  | _, _, _ => False

/-- The reference of QUANTISE on rational inputs, as a function that can be evaluated: the exact quotient rounded
to the nearest integer, a half to the even one; none at scale 0 (R140). It is `IsReferenceRaw` there
(Laws/Quantise.lean). -/
def quantiseReference (value scale : Rat) : Option Int :=
  if scale = 0 then none
  else
    let q := value / scale
    let low := q.floor
    let rest := q - low
    if rest < 1 / 2 then some low
    else if 1 / 2 < rest then some (low + 1)
    else if low % 2 = 0 then some low else some (low + 1)

/-! ### The inverse of the block interleaver -/

/-- Row r of the matrix of an interleaved string: M[r][c] = o[36·c + r] (R263). -/
def matrixRow (o : Bits) (r : Nat) : Bits := (List.range 48).map fun c => bitAt o (36 * c + r)

/-- The two streams of an interleaved string: the rows in order, each to the stream it was filled from
(R263). -/
def deinterleave36x48 (o : Bits) : Bits × Bits :=
  (((List.range 36).filter fun r => !rowFromSF3 r).flatMap (matrixRow o),
    ((List.range 36).filter rowFromSF3).flatMap (matrixRow o))

/-! ### Renderings -/

/-- The string padded with zeros at the end to a multiple of n bits, cut into n-bit digits. -/
def digitsFrom (n : Nat) : Nat → Bits → List Nat
  | 0, _ => []
  | k + 1, s => num (s.take n ++ zeros (n - (s.take n).length)) :: digitsFrom n k (s.drop n)

/-- The digits of n bits each, first bit most significant (R298–R300). -/
def digits (n : Nat) (s : Bits) : List Nat := digitsFrom n ((s.length + (n - 1)) / n) s

/-- Hex rendering, lower case (R298). -/
def renderHex (s : Bits) : List Char := (digits 4 s).map Nat.digitChar

/-- Octal rendering (R299). -/
def renderOctal (s : Bits) : List Char := (digits 3 s).map Nat.digitChar

/-- Byte rendering (R300). -/
def renderBytes (s : Bits) : List Byte := (digits 8 s).map (BitVec.ofNat 8)

/-! ### Pseudo-commands -/

/-- A 64-bit register write. -/
def hostWriteReg (off : Nat) (v : Word) : HostAccess := .write off .w8 v

/-- The offset of LEN[b] (10_state.md R31). -/
def lenOffset (b : Buf) : Nat := 0x080 + 8 * b.num

/-- A write of a command to CMD (10_state.md R32). -/
def hostCommand (i : Instr) : HostAccess := hostWriteReg 0x000 (encode i)

/-- LFSR.CFG L, poly, state (R114). -/
def lfsrCfg (l poly st : Word) : List HostAccess :=
  [hostWriteReg 0x040 l, hostWriteReg 0x048 poly, hostWriteReg 0x050 st]

/-- LFSR.PEEK (R114). -/
def lfsrPeek : List HostAccess := [.read 0x050 .w8]

/-- The phase mask of tap positions: OR of 1 << (t - 1), masked to 11 bits (43_sequence_generators.md
R180). A tap of 0 or less has no expansion and must be refused (R114). -/
def phaseMask (taps : List Nat) : Option Nat :=
  if taps.any (· == 0) then none
  else some ((taps.foldl (fun m t => m ||| 1 <<< (t - 1)) 0) &&& 0x7FF)

/-- GOLD.B1I.TAPS Bd, n, t1, …, tm (R114). -/
def goldB1ITaps (d : Buf) (n : Word) (taps : List Nat) : Option (List HostAccess) :=
  (phaseMask taps).map fun m =>
    [hostWriteReg 0x020 (BitVec.ofNat 64 m), hostWriteReg 0x028 n, hostCommand (.goldB1I d)]

/-- BUF.CLEAR Bd (R114). -/
def bufClear (d : Buf) : List HostAccess := [hostWriteReg (lenOffset d) 0]

/-- BUF.LOAD Bd, s: the bits through the byte window, then LEN (R114). The rule leaves three points open, and the
model chooses (DESIGN CHOICE): the bits after |s| in the last byte are written 0 (log entry 18); a string longer than
16384 bits is not refused, so its byte writes run on past the buffer's window and its LEN write is ignored (log
entry 19); the writes are 1 byte each, in rising order (log entry 20). -/
def bufLoad (d : Buf) (x : Bits) : List HostAccess :=
  ((packBytes x).zipIdx.map fun p => .write (bufBase d + p.2) .w1 (p.1.setWidth 64))
    ++ [hostWriteReg (lenOffset d) (BitVec.ofNat 64 x.length)]

/-- Byte writes of every element of a matrix (R114, 20_memory.md R75), row by row: the order is the model's choice
(DESIGN CHOICE, log entry 20). -/
def matrixWrites (mx : Matrix) (sl : Slot) (rows : List (List Sym)) : List HostAccess :=
  rows.flatten.zipIdx.map fun p => .write (matrixBase mx sl + p.2) .w1 (p.1.setWidth 64)

/-- LDPC.LOAD S, H1, H2 (R114): H1 before H2 and no check of the number of rows and symbols given are the model's
choice (DESIGN CHOICE, log entry 20). -/
def ldpcLoad (sl : Slot) (h1 h2 : List (List Sym)) : List HostAccess :=
  matrixWrites .h1 sl h1 ++ matrixWrites .h2 sl h2 ++ [hostCommand (.ldpcDerive sl)]

/-- The access a platform address makes, when it lies at or above BASE (00_scope.md R15; log entry 4). -/
def readAtAddress (addr : Nat) (w : Width) : Option HostAccess :=
  if Config.base ≤ addr then some (.read (addr - Config.base) w) else none

/-! ### Assembler text -/

/-- `B0` to `B7` (R113). -/
def bufText (b : Buf) : String := "B" ++ toString b.num

/-- A mnemonic and its operands, separated by commas (R113). -/
def asmLine (mnemonic : String) (operands : List String) : String :=
  if operands.isEmpty then mnemonic else mnemonic ++ " " ++ String.intercalate ", " operands

/-- A flag written as a suffix (R113). -/
def suffix (on : Bool) (text : String) : String := if on then text else ""

/-- The assembler text of a command (R113). -/
def asmText : Instr → String
  | .nop => asmLine "NOP" []
  | .bufCat d a b => asmLine "BUF.CAT" [bufText d, bufText a, bufText b]
  | .packU d x w => asmLine ("PACK.U" ++ suffix x ".A") [bufText d, toString w]
  | .packS d x w => asmLine ("PACK.S" ++ suffix x ".A") [bufText d, toString w]
  | .unpackU a w => asmLine "UNPACK.U" [bufText a, toString w]
  | .unpackS a w => asmLine "UNPACK.S" [bufText a, toString w]
  | .lfsrStep => asmLine "LFSR.STEP" []
  | .lfsrRun d => asmLine "LFSR.RUN" [bufText d]
  | .goldB1I d => asmLine "GOLD.B1I" [bufText d]
  | .goldB3I d => asmLine "GOLD.B3I" [bufText d]
  | .weil d .main => asmLine "WEIL.MAIN" [bufText d]
  | .weil d .sub => asmLine "WEIL.SUB" [bufText d]
  | .bchGen d a => asmLine "BCH.GEN" [bufText d, bufText a]
  | .bch21_6 d a => asmLine "BCH.21_6" [bufText d, bufText a]
  | .bch51_8 d a => asmLine "BCH.51_8" [bufText d, bufText a]
  | .bch15_11 d a => asmLine "BCH.15_11" [bufText d, bufText a]
  | .bch15_11HW d a => asmLine "BCH.15_11HW" [bufText d, bufText a]
  | .bchB1I d a => asmLine "BCH.B1I" [bufText d, bufText a]
  | .bchB1IW1 d a => asmLine "BCH.B1IW1" [bufText d, bufText a]
  | .ldpcDerive sl => asmLine "LDPC.DERIVE" [toString sl.num]
  | .ldpcEnc d a sl => asmLine "LDPC.ENC" [bufText d, bufText a, toString sl.num]
  | .intlvB1C d a b => asmLine "INTLV.B1C" [bufText d, bufText a, bufText b]
  | .intlvB1I d a b => asmLine "INTLV.B1I" [bufText d, bufText a, bufText b]
  | .sfB1I d a x sf pg z =>
    asmLine ("SF.B1I" ++ suffix x ".A" ++ suffix z ".Z") [bufText d, bufText a, toString sf, toString pg]
  | .sfB1C1 d => asmLine "SF.B1C1" [bufText d]
  | .sfB1C2 d a => asmLine "SF.B1C2" [bufText d, bufText a]
  | .sfB1C3 d a => asmLine "SF.B1C3" [bufText d, bufText a]
  | .frameB1C d a b c => asmLine "FRAME.B1C" [bufText d, bufText a, bufText b, bufText c]
  | .frameB1I d a => asmLine "FRAME.B1I" [bufText d, bufText a]

/-! ### The reference CRC -/

/-- One bit of the reference CRC-24Q, from general knowledge and for tests only (G1). -/
def crc24qBit (crc : Nat) (b : Bool) : Nat :=
  let x := crc ^^^ (b.toNat <<< 23)
  if x.testBit 23 then ((x <<< 1) ^^^ 0x1864CFB) &&& 0xFFFFFF else (x <<< 1) &&& 0xFFFFFF

/-- The reference CRC-24Q of a string (G1). The machine takes CRC24Q as the open parameter
`Config.crc24q`, of which this is one possible value. -/
def crc24qReference (s : Bits) : Nat := s.foldl crc24qBit 0

end Sys2Proof.Machine
end

