-- ==== Sys2Proof/Safety.lean ====
section
/-! DEFINITION. The terms the statements use: the record a failure leaves, what a command that writes one buffer
leaves, the invariant of the state, and what counts as a safe run. -/

namespace Sys2Proof.Machine

/-! ### What a command leaves -/

/-- The record of a fatal failure (60_exceptions.md R312): CODE, FATAL and ERRCMD, nothing else. -/
def fatalRecord (c : FatalCode) (word : Word) (s : State) : State :=
  { s with code := .fatal c, fatal := true, errcmd := word }

/-- The record of a typed failure (60_exceptions.md R313): CODE, nothing else. -/
def typedRecord (c : TypedCode) (s : State) : State := { s with code := .typed c }

/-- `t` is `s` after a command that succeeded and wrote the string `x` to buffer `d` and nothing else
(10_state.md R41, 60_exceptions.md R311). -/
structure WroteBuffer (d : Buf) (x : Bits) (s t : State) : Prop where
  /-- STATUS.CODE is OK; every register but CODE and LEN, and both of the model's own fields, are unchanged. -/
  registers : ∃ l m, t = { s with code := .ok, lens := l, mem := m }
  /-- LEN[d] = |x|. -/
  length : bufLen t d = x.length
  /-- BUF[d] = x. -/
  string : readBuf t d = x
  /-- Every storage bit at or beyond LEN[d] is 0. -/
  beyond : ∀ i, x.length ≤ i → i < Config.cap → storageBit t d i = false
  /-- Every other length is unchanged. -/
  otherLengths : ∀ b, b ≠ d → getLen t.lens b = getLen s.lens b
  /-- Every byte outside the storage of buffer d is unchanged. -/
  otherBytes : ∀ a, a < bufBase d ∨ bufBase d + bufBytes ≤ a → readByte t.mem a = readByte s.mem a

/-! ### The invariant -/

/-- An offset that storage stands behind: a byte of a buffer or an element of a matrix (20_memory.md R71,
R74, R75). -/
def Backed (a : Nat) : Prop :=
  (0x1000 ≤ a ∧ a < 0x5000)
    ∨ ∃ mx sl idx, idx < slotSize sl * slotSize sl ∧ a = matrixBase mx sl + idx

/-- The invariant of the state. -/
structure Inv (s : State) : Prop where
  /-- Memory is in canonical form (log entry 9). -/
  canonical : memWf s.mem = true
  /-- Only storage holds a byte other than 0. -/
  backed : ∀ a, readByte s.mem a ≠ 0 → Backed a
  /-- Every element is a symbol: bits [7:6] of its byte read 0 (10_state.md R45). -/
  symbols : ∀ mx sl idx, idx < slotSize sl * slotSize sl →
    (readByte s.mem (matrixBase mx sl + idx)).toNat < 64
  /-- LEN never exceeds the storage (10_state.md R40, R42). -/
  lengths : ∀ b, bufLen s b ≤ Config.cap
  /-- FATAL is 1 exactly while CODE is the code of a fatal failure (10_state.md R33). -/
  fatal : s.fatal = true ↔ ∃ c, s.code = .fatal c
  /-- ERRCMD is 0 until a fatal failure (10_state.md R35). -/
  errcmd : s.fatal = false → s.errcmd = 0

/-- LDPC_VALID of a slot is 1 only while Q is what derives from the current H1 and H2 (10_state.md R47). -/
def SlotsDerived (s : State) : Prop :=
  ∀ sl, slotValid s sl = true → derivedQ s sl = some (matrixRows s .q sl)

/-! ### Safe runs -/

/-- An outcome is safe when it is a next state that meets the invariant and whose valid slots are derived. -/
def SafeOutcome : Host.Outcome State Fault Refusal → Prop
  | .next t => Inv t ∧ SlotsDerived t
  | .fault _ => False
  | .refused _ => False

/-- A run of n steps is safe when each step has a safe outcome. -/
def SafeRun : Nat → State → Prop
  | 0, s => Inv s ∧ SlotsDerived s
  | n + 1, s => SafeOutcome (step s) ∧ ∀ t, step s = .next t → SafeRun n t

end Sys2Proof.Machine
end

