-- ==== Sys2Proof/Certificates/Slice0/Obligations.lean ====
section
/-! DEFINITION. The statements for the provers. Results are stated in the spec's own formulas, written out
again here where a formula is short, and each names the rules it follows. -/

open Sys2Proof Sys2Proof.Machine

namespace Sys2Proof.Spec

/-! ### The spec's formulas, apart from the machine's definitions -/

/-- The next access is a write of `w` to CMD, and `rest` comes after it (log entry 1). -/
def NextIsCommand (s : State) (w : Word) (rest : List HostAccess) : Prop :=
  s.pending = .write 0x000 .w8 w :: rest

/-- The state once an access has been taken from the queue and answered (log entries 1 and 2). -/
def answered (s : State) (rest : List HostAccess) (r : BusResponse) : State :=
  { s with pending := rest, response := r }

/-- parity of the low n bits of a number: the count of ones mod 2 (R20). -/
def parityOf (n v : Nat) : Bool := (List.range n).countP (fun t => v.testBit t) % 2 == 1

/-- The state after one Step, as an arithmetic formula (R160). -/
def nextState (l poly st : Nat) : Nat := 2 * st % 2 ^ l + (parityOf l (st &&& poly)).toNat

/-- The state after i Steps (R161). -/
def stateAfter (l poly st i : Nat) : Nat := (nextState l poly)^[i] st

/-- Output bit i of a register: the MSB after i Steps (R160, R161). -/
def outputBit (l poly st i : Nat) : Bool := (stateAfter l poly st i).testBit (l - 1)

/-- A sequence that an LFSR of width k with a feedback mask generates: bit j+k is the parity of the tapped
bits among the k before it, the oldest at the top tap (R160, R203). -/
def FollowsRecurrence (k mask : Nat) (x : Bits) : Prop :=
  ∀ j, j + k < x.length →
    x.getD (j + k) false
      = ((List.range k).countP (fun t => mask.testBit t && x.getD (j + (k - 1 - t)) false) % 2 == 1)

/-- `num(m)·x^4 mod g(x)` with g(x) = x^4 + x + 1, over GF(2) (R204). -/
def remainder15 (v : Nat) : Nat :=
  [14, 13, 12, 11, 10, 9, 8, 7, 6, 5, 4].foldl
    (fun r d => if r.testBit d then r ^^^ (0b10011 <<< (d - 4)) else r) (v * 16)

/-- The systematic BCH(15,11,1) codeword: the message, then the remainder, x^3 first (R204). -/
def codeword15 (m : Bits) : Bits := m ++ bitsOf 4 (remainder15 (num m))

/-- The 30-bit word of 22 raw bits: bit 2i from the first half's codeword, bit 2i+1 from the second's
(R207, R260). -/
def word30 (m : Bits) : Bits :=
  (List.range 30).map fun i =>
    if i % 2 = 0 then (codeword15 (m.take 11)).getD (i / 2) false
    else (codeword15 ((m.drop 11).take 11)).getD (i / 2) false

/-- The 30-bit word 1 of 26 raw bits (R208). -/
def word1 (m : Bits) : Bits := m.take 15 ++ codeword15 ((m.drop 15).take 11)

/-- The 300 bits of an encoded B1I subframe (R280, R281). -/
def subframeB1I (r : Bits) : Bits :=
  word1 (r.take 26) ++ (List.range 9).flatMap fun j => word30 ((r.drop (26 + 22 * j)).take 22)

/-- `Leg_N(k)`: 1 when k ≠ 0 and k^((N-1)/2) mod N = 1 (R184). -/
def legendreBit (n k : Nat) : Bool := decide (k ≠ 0 ∧ k ^ ((n - 1) / 2) % n = 1)

/-- The product of two symbols: the carry-less product, then x^6 + x + 1 taken out from degree 10 down to 6
(R230). -/
def gfTimes (a b : Sym) : Sym :=
  let product := [0, 1, 2, 3, 4, 5].foldl
    (fun r i => if b.getLsbD i then r ^^^ (a.toNat <<< i) else r) 0
  BitVec.ofNat 6 ([10, 9, 8, 7, 6].foldl
    (fun r d => if r.testBit d then r ^^^ (0b1000011 <<< (d - 6)) else r) product)

/-- The sum over GF(64) of k terms (R233, R234). -/
def gfSum (k : Nat) (f : Nat → Sym) : Sym := (List.range k).foldl (fun acc i => acc ^^^ f i) 0

/-- Symbol i of a bit string (R232). -/
def symbolAt (m : Bits) (i : Nat) : Sym := BitVec.ofNat 6 (num ((m.drop (6 * i)).take 6))

/-- Parity symbol j of a message under the Q of a slot (R234). -/
def paritySymbol (s : State) (sl : Slot) (m : Bits) (j : Nat) : Sym :=
  gfSum (slotSize sl) fun i => gfTimes (symbolAt m i) (element s .q sl i j)

/-- The codeword of a message under the Q of a slot (R234). -/
def ldpcCodeword (s : State) (sl : Slot) (m : Bits) : Bits :=
  m ++ (List.range (slotSize sl)).flatMap fun j => bitsOf 6 (paritySymbol s sl m j).toNat

/-- V is a left inverse of H2 of a slot: V · H2 = I (R233). -/
def LeftInverse (s : State) (sl : Slot) (v : Nat → Nat → Sym) : Prop :=
  ∀ r c, r < slotSize sl → c < slotSize sl →
    gfSum (slotSize sl) (fun t => gfTimes (v r t) (element s .h2 sl t c)) = if r = c then 1 else 0

/-- Bit 36·c + r of the block interleaver's output (R261, R262). -/
def interleavedBit (sf2 sf3 : Bits) (c r : Nat) : Bool :=
  if r < 33 ∧ r % 3 = 2 then sf3.getD (48 * (r / 3) + c) false
  else sf2.getD (48 * (r - r / 3) + c) false

/-- x is the block-interleaved string of a subframe-2 and a subframe-3 codeword (R261). -/
def Interleaved (sf2 sf3 x : Bits) : Prop :=
  x.length = 1728 ∧ ∀ c r, c < 48 → r < 36 → x.getD (36 * c + r) false = interleavedBit sf2 sf3 c r

/-- Bits [lo+n-1 : lo] of a word as a number (R102). -/
def bitsAt (lo n : Nat) (w : Word) : Nat := w.toNat / 2 ^ lo % 2 ^ n

/-- The buffer that the 3 bits from bit lo on name (R101, R102). -/
def bufAt (lo : Nat) (w : Word) : Buf :=
  [Buf.b0, .b1, .b2, .b3, .b4, .b5, .b6, .b7].getD (bitsAt lo 3 w) .b0

/-- The slot that bit 21 names (R101). -/
def slotAt (w : Word) : Slot := if w.getLsbD 21 then .s1 else .s0

/-- R108 row by row: the match value, the mask, and the row's command with its operands from the fields of its
format (R101, R102, R107). -/
def rows : List (Word × Word × (Word → Instr)) := [
  (0x00, 0xffffffffffffffff, fun _ => .nop),
  (0x01, 0xfffffffffffe00ff, fun w => .bufCat (bufAt 8 w) (bufAt 11 w) (bufAt 14 w)),
  (0x08, 0xfffffffff00ff8ff, fun w => .packU (bufAt 8 w) (w.getLsbD 20) (bitsAt 21 7 w)),
  (0x09, 0xfffffffff00ff8ff, fun w => .packS (bufAt 8 w) (w.getLsbD 20) (bitsAt 21 7 w)),
  (0x0a, 0xfffffffff01fc7ff, fun w => .unpackU (bufAt 11 w) (bitsAt 21 7 w)),
  (0x0b, 0xfffffffff01fc7ff, fun w => .unpackS (bufAt 11 w) (bitsAt 21 7 w)),
  (0x10, 0xffffffffffffffff, fun _ => .lfsrStep),
  (0x11, 0xfffffffffffff8ff, fun w => .lfsrRun (bufAt 8 w)),
  (0x18, 0xfffffffffffff8ff, fun w => .goldB1I (bufAt 8 w)),
  (0x19, 0xfffffffffffff8ff, fun w => .goldB3I (bufAt 8 w)),
  (0x1a, 0xffffffffffdff8ff, fun w => .weil (bufAt 8 w) (if w.getLsbD 21 then .sub else .main)),
  (0x20, 0xffffffffffffc0ff, fun w => .bchGen (bufAt 8 w) (bufAt 11 w)),
  (0x21, 0xffffffffffffc0ff, fun w => .bch21_6 (bufAt 8 w) (bufAt 11 w)),
  (0x22, 0xffffffffffffc0ff, fun w => .bch51_8 (bufAt 8 w) (bufAt 11 w)),
  (0x23, 0xffffffffffffc0ff, fun w => .bch15_11 (bufAt 8 w) (bufAt 11 w)),
  (0x24, 0xffffffffffffc0ff, fun w => .bch15_11HW (bufAt 8 w) (bufAt 11 w)),
  (0x25, 0xffffffffffffc0ff, fun w => .bchB1I (bufAt 8 w) (bufAt 11 w)),
  (0x26, 0xffffffffffffc0ff, fun w => .bchB1IW1 (bufAt 8 w) (bufAt 11 w)),
  (0x28, 0xffffffffffdfffff, fun w => .ldpcDerive (slotAt w)),
  (0x29, 0xffffffffffdfc0ff, fun w => .ldpcEnc (bufAt 8 w) (bufAt 11 w) (slotAt w)),
  (0x30, 0xfffffffffffe00ff, fun w => .intlvB1C (bufAt 8 w) (bufAt 11 w) (bufAt 14 w)),
  (0x31, 0xfffffffffffe00ff, fun w => .intlvB1I (bufAt 8 w) (bufAt 11 w) (bufAt 14 w)),
  (0x38, 0xffffffff800fc0ff,
    fun w => .sfB1I (bufAt 8 w) (bufAt 11 w) (w.getLsbD 20) (bitsAt 21 3 w) (bitsAt 24 6 w) (w.getLsbD 30)),
  (0x39, 0xfffffffffffff8ff, fun w => .sfB1C1 (bufAt 8 w)),
  (0x3a, 0xffffffffffffc0ff, fun w => .sfB1C2 (bufAt 8 w) (bufAt 11 w)),
  (0x3b, 0xffffffffffffc0ff, fun w => .sfB1C3 (bufAt 8 w) (bufAt 11 w)),
  (0x3c, 0xfffffffffff000ff, fun w => .frameB1C (bufAt 8 w) (bufAt 11 w) (bufAt 14 w) (bufAt 17 w)),
  (0x3d, 0xffffffffffffc0ff, fun w => .frameB1I (bufAt 8 w) (bufAt 11 w))]

/-- A reserved opcode (R110). -/
def ReservedOpcode (op : Nat) : Prop :=
  (0x02 ≤ op ∧ op ≤ 0x07) ∨ (0x0C ≤ op ∧ op ≤ 0x0F) ∨ (0x12 ≤ op ∧ op ≤ 0x17)
    ∨ (0x1B ≤ op ∧ op ≤ 0x1F) ∨ op = 0x27 ∨ (0x2A ≤ op ∧ op ≤ 0x2F) ∨ (0x32 ≤ op ∧ op ≤ 0x37)
    ∨ (0x3E ≤ op ∧ op ≤ 0xFF)

/-- An offset and width that are a bus error (R71, R72). -/
def NotAllowed (off : Nat) (w : Width) : Prop :=
  (off < 0x1000 ∧ (w ≠ .w8 ∨ off % 8 ≠ 0))
    ∨ (0x1000 ≤ off ∧ off < 0x5000 ∧ w ≠ .w1 ∧ (w ≠ .w8 ∨ off % 8 ≠ 0))
    ∨ (0x5000 ≤ off ∧ off < 0x10000)
    ∨ (0x10000 ≤ off ∧ off < 0x28000 ∧ w ≠ .w1)

/-- The value of STATUS.CODE, from the table of R310. -/
def codeNumber : Code → Nat
  | .ok => 0x00
  | .typed .unsupported => 0x01
  | .typed .unimplPage => 0x02
  | .fatal .badCmd => 0x10
  | .fatal .badLength => 0x11
  | .fatal .badWidth => 0x12
  | .fatal .badValue => 0x13
  | .fatal .capacity => 0x14
  | .fatal .singular => 0x15
  | .fatal .notDerived => 0x16

/-- The access puts the core into its reset state: the platform's reset, or CTRL with SRESET = 1 (R340,
R341). -/
def IsReset (a : HostAccess) : Prop :=
  a = .hardReset ∨ ∃ v : Word, v.getLsbD 0 = true ∧ a = .write 0x010 .w8 v

end Sys2Proof.Spec

open Sys2Proof.Spec

/-! ### Reset -/

/-- R342: the reset state, read register by register and byte by byte. -/
def Obligations.ResetStateAsSpecified : Prop :=
  statusWord State.reset = 0 ∧ State.reset.errcmd = 0 ∧ State.reset.arg0 = 0 ∧ State.reset.arg1 = 0
    ∧ State.reset.arg2 = 0 ∧ State.reset.result = 0 ∧ State.reset.lfsrWidth = 0
    ∧ State.reset.lfsrPoly = 0 ∧ State.reset.lfsrState = 0
    ∧ State.reset.pageImpl4 = 0xFFFFFFFFFFFFFFFF ∧ State.reset.pageImpl5 = 0xFFFFFFFFFFFFFFFF
    ∧ State.reset.ldpcValid = 0 ∧ (∀ b, getLen State.reset.lens b = 0)
    ∧ (∀ b i, storageBit State.reset b i = false)
    ∧ (∀ mx sl r c, element State.reset mx sl r c = 0)
    ∧ readReg State.reset .cmd = 0 ∧ readReg State.reset .ctrl = 0

/-- R340, R341: a hard reset and a write to CTRL with SRESET = 1 put every piece of architectural state into
its reset value, whether FATAL is 0 or 1; the host's own queue goes on and the answer is the model's choice
(log entries 1, 2 and 12). R34: a write to CTRL with SRESET = 0 has
no effect but its completion. -/
def Obligations.ResetsGiveResetState : Prop :=
  ∀ (s : State) (rest : List HostAccess),
    (s.pending = .hardReset :: rest → step s = .next (answered State.reset rest .noResponse))
    ∧ ∀ v : Word, s.pending = .write 0x010 .w8 v :: rest →
      step s = .next (if v.getLsbD 0 then answered State.reset rest .written
        else answered s rest .written)

/-! ### Invariants -/

/-- The reset state meets the invariant, and its valid slots (none) are derived. -/
def Obligations.ResetMeetsInvariant : Prop := Inv State.reset ∧ SlotsDerived State.reset

/-- Every step from a state that meets the invariant gives a state that meets it: memory stays canonical (log
entry 9) and inside the storage, elements stay symbols, LEN stays within CAP (R42), FATAL follows CODE (R33), and ERRCMD
stays 0 until a fatal failure (R35). -/
def Obligations.StepKeepsInvariant : Prop := ∀ s t : State, Inv s → step s = .next t → Inv t

/-- R47: LDPC_VALID of a slot is 1 only while Q is derived from the current H1 and H2; every step keeps it. -/
def Obligations.StepKeepsDerivedSlots : Prop :=
  ∀ s t : State, SlotsDerived s → step s = .next t → SlotsDerived t

/-! ### Encoding and decoding -/

/-- Decoding the encoding of a well-formed command gives the command back, with every operand (R100–R102,
R107, R108). -/
def Obligations.DecodeOfEncode : Prop :=
  ∀ i : Instr, i.wellFormed = true → decode (encode i) = .instr i

/-- A word that decodes to a command is that command's encoding: no bit of it is dropped, and the ERRCMD that
the command records (log entry 7) is the word written (R35, R100). -/
def Obligations.EncodeOfDecode : Prop :=
  ∀ (w : Word) (i : Instr), decode w = .instr i → encode i = w ∧ i.wellFormed = true

/-- Words of spec/95 and R113 decode to the commands they stand for. -/
def Obligations.KnownWordsDecode : Prop :=
  decode 0x0 = .instr .nop ∧ decode 0x0000000000011D01 = .instr (.bufCat .b5 .b3 .b4)
    ∧ decode 0x0000000001700008 = .instr (.packU .b0 true 11)
    ∧ decode 0x000000000080000A = .instr (.unpackU .b0 4)
    ∧ decode 0x000000000020041A = .instr (.weil .b4 .sub)
    ∧ decode 0x0000000000000125 = .instr (.bchB1I .b1 .b0)
    ∧ decode 0x0000000000200129 = .instr (.ldpcEnc .b1 .b0 .s1)
    ∧ decode 0x000000004C800738 = .instr (.sfB1I .b7 .b0 false 4 12 true)
    ∧ decode 0x000000000004473C = .instr (.frameB1C .b7 .b0 .b1 .b2)

/-! ### A step and the CMD write -/

/-- R32, R109: when the next access is a CMD write of a word that decodes to a command and FATAL = 0, the step
is `exec` of that command at the state with the access taken from the queue and answered as written. -/
def Obligations.StepRunsDecodedCommand : Prop :=
  ∀ (s : State) (w : Word) (i : Instr) (rest : List HostAccess), NextIsCommand s w rest →
    s.fatal = false → decode w = .instr i → step s = exec i (answered s rest .written)

/-- R315: while FATAL = 1 a CMD write is ignored completely. -/
def Obligations.FatalGateIgnoresCommands : Prop :=
  ∀ (s : State) (w : Word) (rest : List HostAccess), NextIsCommand s w rest → s.fatal = true →
    step s = .next (answered s rest .written)

/-- R110: a reserved opcode gives the typed failure UNSUPPORTED and no other effect, whatever the other bits
hold. -/
def Obligations.ReservedOpcodesAreUnsupported : Prop :=
  ∀ (s : State) (w : Word) (rest : List HostAccess), NextIsCommand s w rest → s.fatal = false →
    ReservedOpcode (w.toNat % 256) →
    step s = .next (typedRecord .unsupported (answered s rest .written))

/-- R108, R109: a word whose opcode is a row's decodes, when `(CMD AND mask) = match`, to that row's command with
the operands that its fields hold (R101, R102); otherwise a reserved bit is set and it is the fatal failure
BAD_CMD, with the word in ERRCMD. -/
def Obligations.DefinedOpcodesSelectByMask : Prop :=
  ∀ r ∈ rows, ∀ (s : State) (w : Word) (rest : List HostAccess), w &&& 0xff = r.1 →
    (w &&& r.2.1 = r.1 → decode w = .instr (r.2.2 w))
    ∧ (w &&& r.2.1 ≠ r.1 → NextIsCommand s w rest → s.fatal = false →
      step s = .next (fatalRecord .badCmd w (answered s rest .written)))

/-- R314, R312, R313: every command has exactly one of two outcomes: it succeeds with CODE = OK and FATAL and
ERRCMD unchanged, or it raises and changes nothing but the failure record. -/
def Obligations.CommandsAreAtomic : Prop :=
  ∀ (i : Instr) (s : State),
    (∃ t, exec i s = .next t ∧ t.code = .ok ∧ t.fatal = s.fatal ∧ t.errcmd = s.errcmd)
      ∨ (∃ c, exec i s = .next (typedRecord c s)) ∨ ∃ c, exec i s = .next (fatalRecord c (encode i) s)

/-- No command writes the argument registers (R36), LFSR_WIDTH, LFSR_POLY or the page masks (R38, R39), H1 or H2
(R44), or the host's queue and answer. -/
def Obligations.CommandsNeverWriteHostState : Prop :=
  ∀ (i : Instr) (s t : State), exec i s = .next t →
    t.arg0 = s.arg0 ∧ t.arg1 = s.arg1 ∧ t.arg2 = s.arg2 ∧ t.lfsrWidth = s.lfsrWidth
      ∧ t.lfsrPoly = s.lfsrPoly ∧ t.pageImpl4 = s.pageImpl4 ∧ t.pageImpl5 = s.pageImpl5
      ∧ t.pending = s.pending ∧ t.response = s.response
      ∧ (∀ sl r c, r < slotSize sl → c < slotSize sl →
          element t .h1 sl r c = element s .h1 sl r c ∧ element t .h2 sl r c = element s .h2 sl r c)

/-- R37, R38, R46, R47: only LFSR.STEP, UNPACK.U and UNPACK.S change RESULT, only LFSR.STEP and LFSR.RUN change
LFSR_STATE, and only LDPC.DERIVE of a slot changes the Q and the LDPC_VALID bit of that slot. -/
def Obligations.OnlyNamedCommandsWriteResultStateAndQ : Prop :=
  ∀ (i : Instr) (s t : State), exec i s = .next t →
    (t.result ≠ s.result → i = .lfsrStep ∨ (∃ a w, i = .unpackU a w) ∨ ∃ a w, i = .unpackS a w)
      ∧ (t.lfsrState ≠ s.lfsrState → i = .lfsrStep ∨ ∃ d, i = .lfsrRun d)
      ∧ ∀ sl, i ≠ .ldpcDerive sl →
          slotValid t sl = slotValid s sl ∧ matrixRows t .q sl = matrixRows s .q sl

/-- R312, R321: no step but a reset leaves the fatal state, and none changes CODE or ERRCMD there. -/
def Obligations.FatalStaysUntilReset : Prop :=
  ∀ (s t : State), s.fatal = true → step s = .next t →
    (t.fatal = true ∧ t.code = s.code ∧ t.errcmd = s.errcmd)
      ∨ ∃ a rest, s.pending = a :: rest ∧ IsReset a

/-! ### The host window -/

/-- R72, R317: an access that its region does not allow is a bus error: no core state changes, and a read
returns no value. -/
def Obligations.BusErrorsChangeNothing : Prop :=
  ∀ (s : State) (off : Nat) (w : Width) (v : Word) (rest : List HostAccess), NotAllowed off w →
    (s.pending = .read off w :: rest → step s = .next (answered s rest .busError))
      ∧ (s.pending = .write off w v :: rest → step s = .next (answered s rest .busError))

/-- The model's choice (log entry 3): an access at offset 0x28000 or above, which R71 leaves to the platform,
stops with a fault. -/
def Obligations.AccessOutsideWindowFaults : Prop :=
  ∀ (s : State) (off : Nat) (w : Width) (v : Word) (rest : List HostAccess), 0x28000 ≤ off →
    (s.pending = .read off w :: rest → step s = .fault (.outsideWindow off))
      ∧ (s.pending = .write off w v :: rest → step s = .fault (.outsideWindow off))

/-- R79: no read has a side effect, and a read repeated returns the same answer. -/
def Obligations.ReadsHaveNoSideEffect : Prop :=
  ∀ (s t : State) (off : Nat) (w : Width) (rest : List HostAccess), s.pending = .read off w :: rest →
    step s = .next t → t = answered s rest t.response
      ∧ step { t with pending := .read off w :: rest } = .next t

/-- R36, R38, R39, R79: a write of a read/write register stores the value (LFSR_WIDTH its bits [6:0]) and changes
nothing else but the queue and the answer; a read after it returns what was stored. -/
def Obligations.RegisterWritesReadBack : Prop :=
  ∀ (s t : State) (v x : Word) (off : Nat) (rest : List HostAccess),
    (off, t, x) ∈ [(0x020, { s with arg0 := v }, v), (0x028, { s with arg1 := v }, v),
      (0x030, { s with arg2 := v }, v), (0x040, { s with lfsrWidth := v.setWidth 7 }, v &&& 0x7f),
      (0x048, { s with lfsrPoly := v }, v), (0x050, { s with lfsrState := v }, v),
      (0x058, { s with pageImpl4 := v }, v), (0x060, { s with pageImpl5 := v }, v)] →
    s.pending = .write off .w8 v :: .read off .w8 :: rest →
    step s = .next (answered t (.read off .w8 :: rest) .written)
      ∧ step (answered t (.read off .w8 :: rest) .written) = .next (answered t rest (.data x))

/-- R42: LEN is write-any-read-legal: a value up to 16384 is stored and nothing else changes; a greater one is
ignored. -/
def Obligations.LenIsWriteAnyReadLegal : Prop :=
  ∀ (s : State) (b : Buf) (v : Word) (rest : List HostAccess),
    s.pending = .write (0x080 + 8 * b.num) .w8 v :: rest →
    (v.toNat ≤ 16384 → ∃ l, step s = .next { answered s rest .written with lens := l }
      ∧ (getLen l b).toNat = v.toNat ∧ ∀ b', b' ≠ b → getLen l b' = getLen s.lens b')
    ∧ (16384 < v.toNat → step s = .next (answered s rest .written))

/-- R73, R32–R35, R37, R42, R47, R310: reserved registers, CMD and CTRL read 0, and a write to them or to a read-only register
is ignored; STATUS, ERRCMD, RESULT, LDPC_VALID and LEN read as the state they hold. -/
def Obligations.ReservedAndReadOnlyRegisters : Prop :=
  (∀ (s : State) (off : Nat) (rest : List HostAccess),
    off % 8 = 0 → off = 0x070 ∨ off = 0x078 ∨ (0x0C0 ≤ off ∧ off ≤ 0xFF8) →
    s.pending = .read off .w8 :: rest → step s = .next (answered s rest (.data 0)))
  ∧ (∀ (s : State) (off : Nat) (v : Word) (rest : List HostAccess),
    off % 8 = 0 → off = 0x070 ∨ off = 0x078 ∨ (0x0C0 ≤ off ∧ off ≤ 0xFF8)
      ∨ off ∈ [0x008, 0x018, 0x038, 0x068] →
    s.pending = .write off .w8 v :: rest → step s = .next (answered s rest .written))
  ∧ ∀ (s : State) (rest : List HostAccess) (off n : Nat), n < 2 ^ 64 →
    (off, n) ∈ [(0x000, 0), (0x010, 0), (0x008, codeNumber s.code + 256 * s.fatal.toNat), (0x018, s.errcmd.toNat),
        (0x038, s.result.toNat), (0x068, s.ldpcValid.toNat)] ∨ (∃ b, (off, n) = (0x080 + 8 * b.num, bufLen s b)) →
    s.pending = .read off .w8 :: rest → step s = .next (answered s rest (.data (BitVec.ofNat 64 n)))

/-- R74: a 1-byte access reaches storage bits 8j to 8j+7 of buffer b, storage bit 8j at byte bit 7, and changes
no LEN (R43) and no other byte. -/
def Obligations.BufferByteHoldsEightBits : Prop :=
  ∀ (s : State) (b : Buf) (j : Nat) (v : Word) (rest : List HostAccess), j < 0x800 →
    (s.pending = .read (0x1000 + 0x800 * b.num + j) .w1 :: rest → ∃ x : Word,
      step s = .next (answered s rest (.data x)) ∧ x.toNat < 256
        ∧ ∀ i, i < 8 → x.getLsbD (7 - i) = storageBit s b (8 * j + i))
    ∧ (s.pending = .write (0x1000 + 0x800 * b.num + j) .w1 v :: rest → ∃ m,
      step s = .next { answered s rest .written with mem := m }
        ∧ (∀ i, i < 8 → storageBit { s with mem := m } b (8 * j + i) = v.getLsbD (7 - i))
        ∧ ∀ a, a ≠ 0x1000 + 0x800 * b.num + j → readByte m a = readByte s.mem a)

/-- R74: an 8-byte access at an aligned offset is the eight 1-byte accesses at o to o+7, big-endian. -/
def Obligations.BufferWordIsEightBytes : Prop :=
  ∀ (s : State) (o : Nat) (v : Word) (rest : List HostAccess),
    0x1000 ≤ o → o < 0x5000 → o % 8 = 0 →
    (s.pending = .read o .w8 :: rest → ∃ x : Word, step s = .next (answered s rest (.data x))
      ∧ ∀ i k, i < 8 → k < 8 → x.getLsbD (8 * (7 - i) + k) = (readByte s.mem (o + i)).getLsbD k)
    ∧ (s.pending = .write o .w8 v :: rest → ∃ m,
      step s = .next { answered s rest .written with mem := m }
        ∧ (∀ i k, i < 8 → k < 8 → (readByte m (o + i)).getLsbD k = v.getLsbD (8 * (7 - i) + k))
        ∧ ∀ a, a < o ∨ o + 8 ≤ a → readByte m a = readByte s.mem a)

/-- R75: in a state that meets the invariant a host read of an element gives the element. R45: a host write to an
element of H1 or H2 stores bits [5:0] and clears LDPC_VALID of the slot, even when the value is the one held;
nothing else changes. -/
def Obligations.ElementReadsAndWriteClearsValid : Prop :=
  (∀ (s : State) (mx : Matrix) (sl : Slot) (r c : Nat) (rest : List HostAccess),
    Inv s → r < slotSize sl → c < slotSize sl →
    s.pending = .read (matrixBase mx sl + (r * slotSize sl + c)) .w1 :: rest →
    step s = .next (answered s rest (.data ((element s mx sl r c).setWidth 64))))
  ∧ ∀ (s : State) (mx : Matrix) (sl : Slot) (r c : Nat) (v : Word) (rest : List HostAccess),
    mx ≠ .q → r < slotSize sl → c < slotSize sl →
    s.pending = .write (matrixBase mx sl + (r * slotSize sl + c)) .w1 v :: rest →
    ∃ m g, step s = .next { answered s rest .written with mem := m, ldpcValid := g }
      ∧ g.getLsbD sl.num = false
      ∧ (∀ sl', sl' ≠ sl → g.getLsbD sl'.num = s.ldpcValid.getLsbD sl'.num)
      ∧ element { s with mem := m } mx sl r c = v.setWidth 6
      ∧ ∀ a, a ≠ matrixBase mx sl + (r * slotSize sl + c) → readByte m a = readByte s.mem a

/-- R46, R75: a host write to Q, and one to a byte of a matrix region that is no element, is ignored; a byte
that is no element reads 0. -/
def Obligations.QAndPaddingIgnoreWrites : Prop :=
  ∀ (s : State) (mx : Matrix) (sl : Slot) (idx : Nat) (v : Word) (rest : List HostAccess),
    idx < 0x4000 → mx = .q ∨ slotSize sl * slotSize sl ≤ idx →
    (s.pending = .write (matrixBase mx sl + idx) .w1 v :: rest →
      step s = .next (answered s rest .written))
    ∧ (slotSize sl * slotSize sl ≤ idx → s.pending = .read (matrixBase mx sl + idx) .w1 :: rest →
      step s = .next (answered s rest (.data 0)))

/-! ### Buffers and bit fields -/

/-- R130: NOP completes and changes nothing but CODE. -/
def Obligations.NopOnlySetsCode : Prop := ∀ s : State, exec .nop s = .next { s with code := .ok }

/-- R131: BUF.CAT writes a ++ b, or raises CAPACITY; sources are read before the destination is written. -/
def Obligations.BufCatConcatenates : Prop :=
  ∀ (d a b : Buf) (s : State),
    (bufLen s a + bufLen s b ≤ 16384 →
      ∃ t, exec (.bufCat d a b) s = .next t ∧ WroteBuffer d (readBuf s a ++ readBuf s b) s t)
    ∧ (16384 < bufLen s a + bufLen s b →
      exec (.bufCat d a b) s = .next (fatalRecord .capacity (encode (.bufCat d a b)) s))

/-- R142: PACK.U writes or appends the W-bit string of raw mod 2^W, or raises BAD_WIDTH, BAD_VALUE or CAPACITY,
checked in that order. -/
def Obligations.PackUnsigned : Prop :=
  ∀ (d : Buf) (x : Bool) (w : Nat) (s : State),
    let old := if x then readBuf s d else []
    (w = 0 ∨ 64 < w → exec (.packU d x w) s = .next (fatalRecord .badWidth (encode (.packU d x w)) s))
    ∧ (1 ≤ w → w ≤ 64 → s.arg0.toInt < 0 →
      exec (.packU d x w) s = .next (fatalRecord .badValue (encode (.packU d x w)) s))
    ∧ (1 ≤ w → w ≤ 64 → 0 ≤ s.arg0.toInt → 16384 < old.length + w →
      exec (.packU d x w) s = .next (fatalRecord .capacity (encode (.packU d x w)) s))
    ∧ (1 ≤ w → w ≤ 64 → 0 ≤ s.arg0.toInt → old.length + w ≤ 16384 →
      ∃ t f, exec (.packU d x w) s = .next t ∧ f.length = w ∧ num f = s.arg0.toNat % 2 ^ w
        ∧ WroteBuffer d (old ++ f) s t)

/-- R143: PACK.S writes or appends the W-bit two's complement of raw, or raises BAD_WIDTH or CAPACITY. -/
def Obligations.PackSigned : Prop :=
  ∀ (d : Buf) (x : Bool) (w : Nat) (s : State),
    let old := if x then readBuf s d else []
    (w = 0 ∨ 64 < w → exec (.packS d x w) s = .next (fatalRecord .badWidth (encode (.packS d x w)) s))
    ∧ (1 ≤ w → w ≤ 64 → 16384 < old.length + w →
      exec (.packS d x w) s = .next (fatalRecord .capacity (encode (.packS d x w)) s))
    ∧ (1 ≤ w → w ≤ 64 → old.length + w ≤ 16384 →
      ∃ t f, exec (.packS d x w) s = .next t ∧ f.length = w ∧ (num f : Int) = s.arg0.toInt % 2 ^ w
        ∧ WroteBuffer d (old ++ f) s t)

/-- R145: UNPACK.U puts the unsigned value of W bits at offset ARG0 into RESULT and changes nothing else but
CODE, or raises BAD_WIDTH or BAD_LENGTH; the sum o + W does not wrap. -/
def Obligations.UnpackUnsigned : Prop :=
  ∀ (a : Buf) (w : Nat) (s : State),
    (w = 0 ∨ 64 < w → exec (.unpackU a w) s = .next (fatalRecord .badWidth (encode (.unpackU a w)) s))
    ∧ (1 ≤ w → w ≤ 64 → bufLen s a < s.arg0.toNat + w →
      exec (.unpackU a w) s = .next (fatalRecord .badLength (encode (.unpackU a w)) s))
    ∧ (1 ≤ w → w ≤ 64 → s.arg0.toNat + w ≤ bufLen s a →
      ∃ r : Word, exec (.unpackU a w) s = .next { s with code := .ok, result := r }
        ∧ r.toNat = num (((readBuf s a).drop s.arg0.toNat).take w))

/-- R146: UNPACK.S puts the sign-extended value of W bits at offset ARG0 into RESULT and changes nothing else
but CODE, or raises BAD_WIDTH or BAD_LENGTH. -/
def Obligations.UnpackSigned : Prop :=
  ∀ (a : Buf) (w : Nat) (s : State),
    (w = 0 ∨ 64 < w → exec (.unpackS a w) s = .next (fatalRecord .badWidth (encode (.unpackS a w)) s))
    ∧ (1 ≤ w → w ≤ 64 → bufLen s a < s.arg0.toNat + w →
      exec (.unpackS a w) s = .next (fatalRecord .badLength (encode (.unpackS a w)) s))
    ∧ (1 ≤ w → w ≤ 64 → s.arg0.toNat + w ≤ bufLen s a →
      ∃ r : Word, exec (.unpackS a w) s = .next { s with code := .ok, result := r }
        ∧ r.toInt = Int.bmod (num (((readBuf s a).drop s.arg0.toNat).take w)) (2 ^ w))

/-- R147: UNPACK.S at the offset where PACK.S wrote a field returns raw mod 2^W read as W-bit signed, which is
raw when raw lies in the W-bit signed range. -/
def Obligations.PackThenUnpackReturnsRaw : Prop :=
  ∀ (d : Buf) (x : Bool) (w : Nat) (s : State), 1 ≤ w → w ≤ 64 →
    (if x then bufLen s d else 0) + w ≤ 16384 →
    ∃ t u, exec (.packS d x w) s = .next t
      ∧ exec (.unpackS d w) { t with arg0 := BitVec.ofNat 64 (if x then bufLen s d else 0) } = .next u
      ∧ u.result.toInt = Int.bmod s.arg0.toInt (2 ^ w)
      ∧ (-(2 ^ (w - 1)) ≤ s.arg0.toInt → s.arg0.toInt < 2 ^ (w - 1) → u.result = s.arg0)

/-! ### The LFSR and the ranging codes -/

/-- R160, R162: LFSR.STEP puts the MSB into RESULT and the next state into LFSR_STATE, both of the state and
polynomial reduced mod 2^L, or raises BAD_WIDTH. -/
def Obligations.LfsrStepAsRule : Prop :=
  ∀ s : State,
    let l := s.lfsrWidth.toNat
    (l = 0 ∨ 64 < l → exec .lfsrStep s = .next (fatalRecord .badWidth (encode .lfsrStep) s))
    ∧ (1 ≤ l → l ≤ 64 → ∃ st r : Word,
      exec .lfsrStep s = .next { s with code := .ok, lfsrState := st, result := r }
        ∧ st.toNat = nextState l (s.lfsrPoly.toNat % 2 ^ l) (s.lfsrState.toNat % 2 ^ l)
        ∧ r.toNat = (s.lfsrState.getLsbD (l - 1)).toNat)

/-- R161, R163: LFSR.RUN writes the n output bits in order and leaves the state after n steps in LFSR_STATE, or
raises BAD_WIDTH or CAPACITY; RESULT is not written. -/
def Obligations.LfsrRunAsRule : Prop :=
  ∀ (d : Buf) (s : State),
    let l := s.lfsrWidth.toNat
    let n := s.arg0.toNat
    let poly := s.lfsrPoly.toNat % 2 ^ l
    let st := s.lfsrState.toNat % 2 ^ l
    (l = 0 ∨ 64 < l → exec (.lfsrRun d) s = .next (fatalRecord .badWidth (encode (.lfsrRun d)) s))
    ∧ (1 ≤ l → l ≤ 64 → 16384 < n →
      exec (.lfsrRun d) s = .next (fatalRecord .capacity (encode (.lfsrRun d)) s))
    ∧ (1 ≤ l → l ≤ 64 → n ≤ 16384 → ∃ (t : State) (v : Word),
      exec (.lfsrRun d) s = .next t ∧ v.toNat = stateAfter l poly st n
        ∧ WroteBuffer d ((List.range n).map (outputBit l poly st)) { s with lfsrState := v } t)

/-- R163: two LFSR.RUN commands of n1 and n2 steps leave the same concatenated output and final state as one of
n1 + n2 steps. -/
def Obligations.LfsrRunsCompose : Prop :=
  ∀ (d d' : Buf) (s : State) (n1 n2 : Nat), 1 ≤ s.lfsrWidth.toNat → s.lfsrWidth.toNat ≤ 64 →
    n1 + n2 ≤ 16384 →
    ∃ t u v, exec (.lfsrRun d) { s with arg0 := BitVec.ofNat 64 n1 } = .next t
      ∧ exec (.lfsrRun d') { t with arg0 := BitVec.ofNat 64 n2 } = .next u
      ∧ exec (.lfsrRun d) { s with arg0 := BitVec.ofNat 64 (n1 + n2) } = .next v
      ∧ readBuf t d ++ readBuf u d' = readBuf v d ∧ u.lfsrState = v.lfsrState

/-- R181: GOLD.B1I writes G1's output XOR the parity of G2's masked state, bit by bit, or raises CAPACITY. -/
def Obligations.GoldB1IAsRule : Prop :=
  ∀ (d : Buf) (s : State),
    let n := s.arg1.toNat
    (n ≤ 16384 → ∃ t, exec (.goldB1I d) s = .next t ∧ WroteBuffer d ((List.range n).map fun i =>
      outputBit 11 0b11111000001 0b01010101010 i
        ^^ parityOf 11 (stateAfter 11 0b10110011111 0b01010101010 i &&& (s.arg0.toNat % 2048))) s t)
    ∧ (16384 < n → exec (.goldB1I d) s = .next (fatalRecord .capacity (encode (.goldB1I d)) s))

/-- R183: GOLD.B3I writes G1 XOR G2, bit by bit, with G1 restarted every 8190 output bits and G2 never, or
raises CAPACITY. -/
def Obligations.GoldB3IAsRule : Prop :=
  ∀ (d : Buf) (s : State),
    let n := s.arg1.toNat
    (n ≤ 16384 → ∃ t, exec (.goldB3I d) s = .next t ∧ WroteBuffer d ((List.range n).map fun i =>
      outputBit 13 0b1000000001101 0b1111111111111 (i % 8190)
        ^^ outputBit 13 0b1101101110001 (s.arg0.toNat % 8192) i) s t)
    ∧ (16384 < n → exec (.goldB3I d) s = .next (fatalRecord .capacity (encode (.goldB3I d)) s))

/-- R184–R186: WEIL writes the window of n bits of Leg(k) XOR Leg((k + w) mod N) from index p - 1 mod N on, N
10243 or 3607, or raises CAPACITY. -/
def Obligations.WeilAsRule : Prop :=
  ∀ (d : Buf) (sel : WeilLen) (s : State) (n : Nat), n = (match sel with | .main => 10243 | .sub => 3607) →
    (s.arg2.toNat ≤ 16384 → ∃ (t : State) (x : Bits),
      exec (.weil d sel) s = .next t ∧ WroteBuffer d x s t ∧ x.length = s.arg2.toNat
        ∧ ∀ i k, i < s.arg2.toNat → k < n →
          ((k : Int) - ((s.arg1.toNat : Int) - 1 + (i : Int))) % (n : Int) = 0 →
          x.getD i false = (legendreBit n k ^^ legendreBit n ((k + s.arg0.toNat) % n)))
    ∧ (16384 < s.arg2.toNat →
      exec (.weil d sel) s = .next (fatalRecord .capacity (encode (.weil d sel)) s))

/-- R184: for both lengths the Legendre bit of k ≠ 0 says whether k is a quadratic residue mod N. -/
def Obligations.LegendreBitIsQuadraticResidue : Prop :=
  ∀ (sel : WeilLen) (k : Nat), k < weilModulus sel →
    (legendre (weilModulus sel) k = true ↔ k ≠ 0 ∧ ∃ y, y * y % weilModulus sel = k)

/-! ### BCH -/

/-- R200: BCH.GEN writes the codeword of n bits that begins with the message and follows the recurrence of the
mask g mod 2^k, or raises BAD_WIDTH, BAD_VALUE, BAD_LENGTH or CAPACITY, checked in that order. -/
def Obligations.BchGenIsSystematic : Prop :=
  ∀ (d a : Buf) (s : State),
    let n := s.arg0.toNat
    let k := s.arg1.toNat
    (k = 0 ∨ 64 < k → exec (.bchGen d a) s = .next (fatalRecord .badWidth (encode (.bchGen d a)) s))
    ∧ (1 ≤ k → k ≤ 64 → n < k →
      exec (.bchGen d a) s = .next (fatalRecord .badValue (encode (.bchGen d a)) s))
    ∧ (1 ≤ k → k ≤ 64 → k ≤ n → bufLen s a ≠ k →
      exec (.bchGen d a) s = .next (fatalRecord .badLength (encode (.bchGen d a)) s))
    ∧ (1 ≤ k → k ≤ 64 → k ≤ n → bufLen s a = k → 16384 < n →
      exec (.bchGen d a) s = .next (fatalRecord .capacity (encode (.bchGen d a)) s))
    ∧ (1 ≤ k → k ≤ 64 → k ≤ n → bufLen s a = k → n ≤ 16384 →
      ∃ t x, exec (.bchGen d a) s = .next t ∧ WroteBuffer d x s t ∧ x.length = n
        ∧ x.take k = readBuf s a ∧ FollowsRecurrence k (s.arg2.toNat % 2 ^ k) x)

/-- R201, R202: BCH.21_6 and BCH.51_8 write the codeword that begins with the message and follows the recurrence
of the mask 0b111010, or 0b11111001. -/
def Obligations.BchB1CCodewords : Prop :=
  (∀ (d a : Buf) (s : State), bufLen s a = 6 →
    ∃ t x, exec (.bch21_6 d a) s = .next t ∧ WroteBuffer d x s t ∧ x.length = 21
      ∧ x.take 6 = readBuf s a ∧ FollowsRecurrence 6 0b111010 x)
  ∧ ∀ (d a : Buf) (s : State), bufLen s a = 8 →
    ∃ t x, exec (.bch51_8 d a) s = .next t ∧ WroteBuffer d x s t ∧ x.length = 51
      ∧ x.take 8 = readBuf s a ∧ FollowsRecurrence 8 0b11111001 x

/-- R204, R205: BCH.15_11 and BCH.15_11HW both write the message and the remainder of its division by
x^4 + x + 1, x^3 first. -/
def Obligations.Bch15IsPolynomialDivision : Prop :=
  ∀ (d a : Buf) (s : State), bufLen s a = 11 →
    (∃ t, exec (.bch15_11 d a) s = .next t ∧ WroteBuffer d (codeword15 (readBuf s a)) s t)
    ∧ ∃ t, exec (.bch15_11HW d a) s = .next t ∧ WroteBuffer d (codeword15 (readBuf s a)) s t

/-- R206: for every 11-bit message BCH.15_11 and BCH.15_11HW have the same outcome. -/
def Obligations.Bch15FormsAgree : Prop :=
  ∀ (d a : Buf) (s : State), bufLen s a = 11 → exec (.bch15_11 d a) s = exec (.bch15_11HW d a) s

/-- R207, R208: BCH.B1I interleaves the codewords of the two halves of a 22-bit word; BCH.B1IW1 passes 15 bits
and encodes the last 11. -/
def Obligations.BchB1IWords : Prop :=
  (∀ (d a : Buf) (s : State), bufLen s a = 22 →
    ∃ t, exec (.bchB1I d a) s = .next t ∧ WroteBuffer d (word30 (readBuf s a)) s t)
  ∧ ∀ (d a : Buf) (s : State), bufLen s a = 26 →
    ∃ t, exec (.bchB1IW1 d a) s = .next t ∧ WroteBuffer d (word1 (readBuf s a)) s t

/-- R209 for the six fixed codes: a message of another length is the fatal BAD_LENGTH, and nothing is written. -/
def Obligations.FixedBchRejectsWrongLength : Prop :=
  ∀ (d a : Buf) (s : State) (i : Instr) (len : Nat),
    (i, len) ∈ [(.bch21_6 d a, 6), (.bch51_8 d a, 8), (.bch15_11 d a, 11), (.bch15_11HW d a, 11),
      (.bchB1I d a, 22), (.bchB1IW1 d a, 26)] →
    bufLen s a ≠ len → exec i s = .next (fatalRecord .badLength (encode i) s)

/-! ### LDPC -/

/-- R233: LDPC.DERIVE writes Q = (H2^-1 · H1)^t and sets LDPC_VALID of the slot, for the V with V · H2 = I, and
changes nothing else but CODE; where there is no such V it raises SINGULAR. -/
def Obligations.DeriveSolvesOrIsSingular : Prop :=
  ∀ (sl : Slot) (s : State),
    (∀ v, LeftInverse s sl v → ∃ m g,
      exec (.ldpcDerive sl) s = .next { s with code := .ok, mem := m, ldpcValid := g }
        ∧ g.getLsbD sl.num = true
        ∧ (∀ sl', sl' ≠ sl → g.getLsbD sl'.num = s.ldpcValid.getLsbD sl'.num)
        ∧ (∀ i j, i < slotSize sl → j < slotSize sl → element { s with mem := m } .q sl i j
            = gfSum (slotSize sl) fun t => gfTimes (v j t) (element s .h1 sl t i))
        ∧ ∀ a, a < matrixBase .q sl ∨ matrixBase .q sl + slotSize sl * slotSize sl ≤ a →
            readByte m a = readByte s.mem a)
    ∧ ((¬∃ v, LeftInverse s sl v) →
      exec (.ldpcDerive sl) s = .next (fatalRecord .singular (encode (.ldpcDerive sl)) s))

/-- R230, R231: the machine multiplies symbols modulo x^6 + x + 1, and its inverse of a ≠ 0 is the only b with
a · b = 1. R233: where LDPC.DERIVE succeeds, H2 · Q^t = H1 over GF(64). -/
def Obligations.DerivedQSatisfiesH : Prop :=
  (∀ a b : Sym, gfMul a b = gfTimes a b)
  ∧ (∀ a b : Sym, a ≠ 0 → (gfTimes a b = 1 ↔ b = gfInv a))
  ∧ ∀ (sl : Slot) (s t : State), exec (.ldpcDerive sl) s = .next t → t.code = .ok →
    ∀ r c, r < slotSize sl → c < slotSize sl →
      gfSum (slotSize sl) (fun i => gfTimes (element t .h2 sl r i) (element t .q sl c i))
        = element t .h1 sl r c

/-- R234: LDPC.ENC writes the message and the parity symbols XOR over i of u[i] · Q[i][j], or raises BAD_LENGTH
or NOT_DERIVED, checked in that order. -/
def Obligations.LdpcEncAsRule : Prop :=
  ∀ (d a : Buf) (sl : Slot) (s : State),
    (bufLen s a ≠ 6 * slotSize sl →
      exec (.ldpcEnc d a sl) s = .next (fatalRecord .badLength (encode (.ldpcEnc d a sl)) s))
    ∧ (bufLen s a = 6 * slotSize sl → slotValid s sl = false →
      exec (.ldpcEnc d a sl) s = .next (fatalRecord .notDerived (encode (.ldpcEnc d a sl)) s))
    ∧ (bufLen s a = 6 * slotSize sl → slotValid s sl = true →
      ∃ t, exec (.ldpcEnc d a sl) s = .next t ∧ WroteBuffer d (ldpcCodeword s sl (readBuf s a)) s t)

/-- R235: in a state whose valid slots are derived, the codeword c = (u, p) that LDPC.ENC writes satisfies
H1 · u^t + H2 · p^t = 0 over GF(64), and its first k symbols are the message. -/
def Obligations.CodewordSatisfiesParityCheck : Prop :=
  ∀ (d a : Buf) (sl : Slot) (s : State), SlotsDerived s → slotValid s sl = true →
    bufLen s a = 6 * slotSize sl →
    ∃ t, exec (.ldpcEnc d a sl) s = .next t ∧ t.code = .ok
      ∧ (readBuf t d).take (6 * slotSize sl) = readBuf s a
      ∧ ∀ r, r < slotSize sl →
        gfSum (slotSize sl) (fun i => gfTimes (element s .h1 sl r i) (symbolAt (readBuf t d) i))
          ^^^ gfSum (slotSize sl) (fun i =>
            gfTimes (element s .h2 sl r i) (symbolAt (readBuf t d) (slotSize sl + i))) = 0

/-! ### Interleavers -/

/-- R264: INTLV.B1I writes a[0] b[0] a[1] b[1] …, or raises BAD_LENGTH. -/
def Obligations.IntlvB1IAlternates : Prop :=
  ∀ (d a b : Buf) (s : State),
    (bufLen s a = 15 → bufLen s b = 15 →
      ∃ t, exec (.intlvB1I d a b) s = .next t ∧ WroteBuffer d ((List.range 30).map fun i =>
        if i % 2 = 0 then (readBuf s a).getD (i / 2) false else (readBuf s b).getD (i / 2) false) s t)
    ∧ (bufLen s a ≠ 15 ∨ bufLen s b ≠ 15 →
      exec (.intlvB1I d a b) s = .next (fatalRecord .badLength (encode (.intlvB1I d a b)) s))

/-- R261, R262: INTLV.B1C writes 1728 bits, bit 36·c + r from row r and column c of the matrix, or raises
BAD_LENGTH. -/
def Obligations.IntlvB1CPositions : Prop :=
  ∀ (d a b : Buf) (s : State),
    (bufLen s a = 1200 → bufLen s b = 528 →
      ∃ t x, exec (.intlvB1C d a b) s = .next t ∧ WroteBuffer d x s t
        ∧ Interleaved (readBuf s a) (readBuf s b) x)
    ∧ (bufLen s a ≠ 1200 ∨ bufLen s b ≠ 528 →
      exec (.intlvB1C d a b) s = .next (fatalRecord .badLength (encode (.intlvB1C d a b)) s))

/-- R263: the inverse of INTLV.B1C's output gives back both input strings. -/
def Obligations.DeinterleaveRecoversInputs : Prop :=
  ∀ (d a b : Buf) (s : State), bufLen s a = 1200 → bufLen s b = 528 →
    ∃ t, exec (.intlvB1C d a b) s = .next t
      ∧ deinterleave36x48 (readBuf t d) = (readBuf s a, readBuf s b)

/-! ### Subframes and frames -/

/-- R281: SF.B1I encodes the ten words of a raw subframe, overwriting or appending 300 bits; with Z = 1 it writes
300 zero bits and does not read A. -/
def Obligations.SfB1IEncodes : Prop :=
  ∀ (d a : Buf) (x : Bool) (sf pg : Nat) (s : State), 1 ≤ sf → sf ≤ 5 →
    let old := if x then readBuf s d else []
    old.length + 300 ≤ 16384 →
    (bufLen s a = 224 → (sf = 4 → s.pageImpl4.getLsbD pg = true) →
      (sf = 5 → s.pageImpl5.getLsbD pg = true) →
      ∃ t, exec (.sfB1I d a x sf pg false) s = .next t
        ∧ WroteBuffer d (old ++ subframeB1I (readBuf s a)) s t)
    ∧ ∃ t, exec (.sfB1I d a x sf pg true) s = .next t
        ∧ WroteBuffer d (old ++ List.replicate 300 false) s t

/-- R281: the failures of SF.B1I in the order of its checks: subframe number, page, source length, capacity. -/
def Obligations.SfB1IFailures : Prop :=
  ∀ (d a : Buf) (x : Bool) (sf pg : Nat) (z : Bool) (s : State),
    let old := if x then readBuf s d else []
    let off := (sf = 4 ∧ s.pageImpl4.getLsbD pg = false) ∨ (sf = 5 ∧ s.pageImpl5.getLsbD pg = false)
    (sf < 1 ∨ 5 < sf → exec (.sfB1I d a x sf pg z) s = .next (typedRecord .unsupported s))
    ∧ (z = false → off → exec (.sfB1I d a x sf pg z) s = .next (typedRecord .unimplPage s))
    ∧ (1 ≤ sf → sf ≤ 5 → z = false → ¬off → bufLen s a ≠ 224 → exec (.sfB1I d a x sf pg z) s
        = .next (fatalRecord .badLength (encode (.sfB1I d a x sf pg z)) s))
    ∧ (1 ≤ sf → sf ≤ 5 → (z = false → ¬off ∧ bufLen s a = 224) → 16384 < old.length + 300 →
      exec (.sfB1I d a x sf pg z) s
        = .next (fatalRecord .capacity (encode (.sfB1I d a x sf pg z)) s))

/-- R283: SF.B1C1 writes the BCH(21,6) codeword of the PRN and the BCH(51,8) codeword of the time field, or
raises BAD_VALUE. -/
def Obligations.SfB1C1JoinsCodewords : Prop :=
  ∀ (d : Buf) (s : State),
    (s.arg0.toNat ≤ 63 → s.arg1.toNat ≤ 255 →
      ∃ t x y, exec (.sfB1C1 d) s = .next t ∧ WroteBuffer d (x ++ y) s t ∧ x.length = 21
        ∧ y.length = 51 ∧ num (x.take 6) = s.arg0.toNat ∧ FollowsRecurrence 6 0b111010 x
        ∧ num (y.take 8) = s.arg1.toNat ∧ FollowsRecurrence 8 0b11111001 y)
    ∧ (63 < s.arg0.toNat ∨ 255 < s.arg1.toNat →
      exec (.sfB1C1 d) s = .next (fatalRecord .badValue (encode (.sfB1C1 d)) s))

/-- R284, R285, R286: SF.B1C2 (576 bits, slot 0) and SF.B1C3 (240 bits, slot 1) write the LDPC codeword of the
raw bits followed by their 24-bit CRC, or raise BAD_LENGTH or NOT_DERIVED. -/
def Obligations.SfB1C2AndC3SealAndEncode : Prop :=
  ∀ (d a : Buf) (s : State) (i : Instr) (len : Nat) (sl : Slot),
    (i, len, sl) ∈ [(Instr.sfB1C2 d a, 576, Slot.s0), (Instr.sfB1C3 d a, 240, Slot.s1)] →
    (bufLen s a ≠ len → exec i s = .next (fatalRecord .badLength (encode i) s))
    ∧ (bufLen s a = len → slotValid s sl = false →
      exec i s = .next (fatalRecord .notDerived (encode i) s))
    ∧ (bufLen s a = len → slotValid s sl = true →
      ∃ t c, exec i s = .next t ∧ c.length = 24 ∧ num c = (Config.crc24q (readBuf s a)).toNat
        ∧ WroteBuffer d (ldpcCodeword s sl (readBuf s a ++ c)) s t)

/-- R288: FRAME.B1C writes subframe 1 and the interleaved subframes 2 and 3, 1800 bits, or raises BAD_LENGTH. -/
def Obligations.FrameB1CLayout : Prop :=
  ∀ (d a b c : Buf) (s : State),
    (bufLen s a = 72 → bufLen s b = 1200 → bufLen s c = 528 →
      ∃ t x, exec (.frameB1C d a b c) s = .next t ∧ WroteBuffer d (readBuf s a ++ x) s t
        ∧ Interleaved (readBuf s b) (readBuf s c) x)
    ∧ (bufLen s a ≠ 72 ∨ bufLen s b ≠ 1200 ∨ bufLen s c ≠ 528 →
      exec (.frameB1C d a b c) s = .next (fatalRecord .badLength (encode (.frameB1C d a b c)) s))

/-- R289: FRAME.B1I appends 4 zero bits to a 1500-bit body, or raises BAD_LENGTH. -/
def Obligations.FrameB1IAppendsFourZeros : Prop :=
  ∀ (d a : Buf) (s : State),
    (bufLen s a = 1500 → ∃ t, exec (.frameB1I d a) s = .next t
      ∧ WroteBuffer d (readBuf s a ++ List.replicate 4 false) s t)
    ∧ (bufLen s a ≠ 1500 →
      exec (.frameB1I d a) s = .next (fatalRecord .badLength (encode (.frameB1I d a)) s))

/-- R40: bit i of a buffer's string is its storage bit i. R21: a string's number is the sum of its bits' weights,
its first bit the most significant. R300: the bytes a host reads from a buffer whose storage past LEN is 0 are the
byte rendering of its string. -/
def Obligations.HostReadsByteRendering : Prop :=
  (∀ (s : State) (b : Buf) (i : Nat), i < bufLen s b → (readBuf s b).getD i false = storageBit s b i)
  ∧ (∀ x : Bits,
    num x = ((List.range x.length).map fun i => (x.getD i false).toNat * 2 ^ (x.length - 1 - i)).sum)
  ∧ ∀ (d : Buf) (x : Bits) (s t : State), WroteBuffer d x s t → x.length ≤ 16384 →
    renderBytes x = (List.range ((x.length + 7) / 8)).map fun j => readByte t.mem (bufBase d + j)
end

