-- ==== Sys2Proof/Laws/BitString.lean ====
section
/-! SUPPORT. Bit strings and numbers: lengths, `num` and `bitsOf` are inverse, and a string survives being
packed into bytes. -/

namespace Sys2Proof.Machine

@[simp] theorem length_bitsOf (w v : Nat) : (bitsOf w v).length = w := by simp [bitsOf]

@[simp] theorem length_zeros (n : Nat) : (zeros n).length = n := by simp [zeros]

@[simp] theorem length_byteBits (v : Byte) : (byteBits v).length = 8 := by simp [byteBits]

@[simp] theorem length_substring (s : Bits) (i j : Nat) :
    (substring s i j).length = min (j - i) (s.length - i) := by simp [substring]

@[simp] theorem num_nil : num [] = 0 := rfl

/-- One more bit at the end doubles the number (R21). -/
theorem num_append_singleton (s : Bits) (b : Bool) : num (s ++ [b]) = 2 * num s + b.toNat := by
  simp [num]

theorem num_lt (s : Bits) : num s < 2 ^ s.length := by
  induction s using List.reverseRecOn with
  | nil => simp
  | append_singleton s b ih =>
    rw [num_append_singleton, List.length_append, List.length_singleton, pow_succ]
    have : b.toNat ≤ 1 := Bool.toNat_le b
    omega

theorem bitsOf_succ (w v : Nat) : bitsOf (w + 1) v = bitsOf w (v / 2) ++ [v.testBit 0] := by
  apply List.ext_getElem
  · simp
  · intro i hi hi'
    simp only [length_bitsOf] at hi
    by_cases h : i < w
    · rw [List.getElem_append_left (by simpa using h)]
      simp only [bitsOf, List.getElem_map, List.getElem_range]
      rw [← Nat.testBit_succ]; congr 1; omega
    · have : i = w := by omega
      subst this
      simp [bitsOf]

/-- `num(bits_W(v)) = v mod 2^W` (R21). -/
theorem num_bitsOf (w v : Nat) : num (bitsOf w v) = v % 2 ^ w := by
  induction w generalizing v with
  | zero => simp [bitsOf, Nat.mod_one]
  | succ w ih =>
    rw [bitsOf_succ, num_append_singleton, ih, pow_succ, Nat.testBit_zero, Nat.mul_comm (2 ^ w) 2,
      Nat.mod_mul]
    have : (decide (v % 2 = 1)).toNat = v % 2 := by
      rcases Nat.mod_two_eq_zero_or_one v with h | h <;> simp [h]
    omega

/-- A string is the MSB-first string of its number. -/
theorem bitsOf_num (s : Bits) : bitsOf s.length (num s) = s := by
  induction s using List.reverseRecOn with
  | nil => rfl
  | append_singleton s b ih =>
    rw [List.length_append, List.length_singleton, bitsOf_succ, num_append_singleton]
    have hb : b.toNat ≤ 1 := Bool.toNat_le b
    rw [show (2 * num s + b.toNat) / 2 = num s by omega, ih]
    cases b <;> simp [Nat.testBit_zero, Nat.add_mod]

/-- A byte made of at most 8 bits reads back as those bits and zeros. -/
theorem byteBits_byteOf {s : Bits} (h : s.length ≤ 8) :
    byteBits (byteOf s) = s ++ zeros (8 - s.length) := by
  have hl : (s ++ zeros (8 - s.length)).length = 8 := by simp; omega
  unfold byteBits byteOf
  generalize s ++ zeros (8 - s.length) = x at hl ⊢
  have hn : num x < 2 ^ 8 := hl ▸ num_lt x
  rw [BitVec.toNat_ofNat, Nat.mod_eq_of_lt hn, ← hl]
  exact bitsOf_num x

@[simp] theorem length_packBytesFrom (n : Nat) (s : Bits) : (packBytesFrom n s).length = n := by
  induction n generalizing s with
  | zero => rfl
  | succ n ih => simp [packBytesFrom, ih]

@[simp] theorem length_packBytes (s : Bits) : (packBytes s).length = (s.length + 7) / 8 := by
  simp [packBytes]

/-- The bytes of a string, as bits, are the string and zeros. -/
theorem flatMap_packBytesFrom (n : Nat) (s : Bits) (h : s.length ≤ 8 * n) :
    (packBytesFrom n s).flatMap byteBits = s ++ zeros (8 * n - s.length) := by
  induction n generalizing s with
  | zero =>
    have : s = [] := List.eq_nil_of_length_eq_zero (by omega)
    simp [packBytesFrom, this, zeros]
  | succ n ih =>
    rw [packBytesFrom, List.flatMap_cons, ih _ (by simp; omega), byteBits_byteOf (by simp)]
    by_cases h8 : 8 ≤ s.length
    · have : (s.take 8).length = 8 := by simp; omega
      rw [this, List.append_assoc, show zeros (8 - 8) = [] from rfl, List.nil_append, ← List.append_assoc,
        List.take_append_drop, List.length_drop]
      congr 2; omega
    · have ht : s.take 8 = s := List.take_of_length_le (by omega)
      have hd : s.drop 8 = [] := List.drop_eq_nil_of_le (by omega)
      rw [ht, hd, List.append_assoc, List.nil_append, List.length_nil]
      congr 1
      rw [zeros, zeros, zeros, List.replicate_append_replicate]
      congr 1; omega

/-- Packing a string into bytes and taking the bits back gives the string. -/
theorem take_flatMap_packBytes (s : Bits) :
    ((packBytes s).flatMap byteBits).take s.length = s := by
  rw [packBytes, flatMap_packBytesFrom _ _ (by omega), List.take_left]

end Sys2Proof.Machine
end

