-- ==== Sys2Proof/Laws/Memory.lean ====
section
/-! SUPPORT. What the memory operations do: a read after a write, frames, and the canonical form. None of the
read lemmas needs the canonical form. -/

namespace Sys2Proof.Machine

/-! ### Reading -/

@[simp] theorem readByte_nil (a : Nat) : readByte [] a = unlistedByte := rfl

theorem readByte_cons (c : Host.Cell) (m : Memory) (a : Nat) :
    readByte (c :: m) a = if c.1 = a then c.2 else readByte m a := by
  by_cases h : c.1 = a <;> simp [readByte, h]

/-- Cells at other offsets do not matter to a read. -/
theorem readByte_append_of_not_mem {m m' : Memory} {a : Nat} (h : ∀ c ∈ m, c.1 ≠ a) :
    readByte (m ++ m') a = readByte m' a := by
  induction m with
  | nil => rfl
  | cons c m ih =>
    have hc : c.1 ≠ a := h c (by simp)
    rw [List.cons_append, readByte_cons, if_neg hc]
    exact ih fun d hd => h d (by simp [hd])

theorem readByte_of_not_mem {m : Memory} {a : Nat} (h : ∀ c ∈ m, c.1 ≠ a) :
    readByte m a = unlistedByte := by
  simpa using readByte_append_of_not_mem (m' := []) h

/-- Dropping cells at other offsets does not change a read. -/
theorem readByte_filter {m : Memory} {p : Host.Cell → Bool} {a : Nat}
    (h : ∀ c : Host.Cell, c.1 = a → p c = true) : readByte (m.filter p) a = readByte m a := by
  induction m with
  | nil => rfl
  | cons c m ih =>
    by_cases hc : c.1 = a
    · simp [h c hc, readByte_cons, hc]
    · by_cases hp : p c = true <;> simp [hp, readByte_cons, hc, ih]

theorem readByte_append_of_not_mem_right {m m' : Memory} {a : Nat} (h : ∀ c ∈ m', c.1 ≠ a) :
    readByte (m ++ m') a = readByte m a := by
  induction m with
  | nil => simpa using readByte_of_not_mem h
  | cons c m ih => simp [readByte_cons, ih]

theorem readByte_slice {m : Memory} {lo n a : Nat} (h : lo ≤ a) (h' : a < lo + n) :
    readByte (slice m lo n) a = readByte m a :=
  readByte_filter fun c hc => by simp [hc, h, h']

/-- A range reads as its bytes one by one. -/
theorem readRange_eq (m : Memory) (lo n : Nat) :
    readRange m lo n = (List.range n).map fun i => readByte m (lo + i) := by
  refine List.map_congr_left fun i hi => ?_
  have := List.mem_range.mp hi
  exact readByte_slice (by omega) (by omega)

@[simp] theorem length_readRange (m : Memory) (lo n : Nat) : (readRange m lo n).length = n := by
  simp [readRange]

/-- Two memories that agree on a range give the same bytes there. -/
theorem readRange_congr {m m' : Memory} {lo n : Nat}
    (h : ∀ a, lo ≤ a → a < lo + n → readByte m a = readByte m' a) :
    readRange m lo n = readRange m' lo n := by
  rw [readRange_eq, readRange_eq]
  exact List.map_congr_left fun i hi => h _ (by omega) (by have := List.mem_range.mp hi; omega)

theorem readRange_slice {m : Memory} {lo n lo' n' : Nat} (h : lo ≤ lo') (h' : lo' + n' ≤ lo + n) :
    readRange (slice m lo n) lo' n' = readRange m lo' n' :=
  readRange_congr fun _ _ _ => readByte_slice (by omega) (by omega)

/-! ### Cells of consecutive bytes -/

theorem cellsOf_bounds {lo : Nat} {vs : List Byte} :
    ∀ c ∈ cellsOf lo vs, lo ≤ c.1 ∧ c.1 < lo + vs.length ∧ c.2 ≠ unlistedByte := by
  induction vs generalizing lo with
  | nil => simp [cellsOf]
  | cons v vs ih =>
    intro c hc
    by_cases hv : v = unlistedByte
    · rw [cellsOf, if_pos hv] at hc
      have := ih c hc
      simp only [List.length_cons]
      exact ⟨by omega, by omega, this.2.2⟩
    · rw [cellsOf, if_neg hv] at hc
      rcases List.mem_cons.mp hc with rfl | hc
      · exact ⟨le_refl _, by simp, hv⟩
      · have := ih c hc
        simp only [List.length_cons]
        exact ⟨by omega, by omega, this.2.2⟩

/-- The cells of consecutive bytes read as those bytes. -/
theorem readByte_cellsOf (lo : Nat) (vs : List Byte) (i : Nat) :
    readByte (cellsOf lo vs) (lo + i) = vs.getD i unlistedByte := by
  induction vs generalizing lo i with
  | nil => simp [cellsOf]
  | cons v vs ih =>
    have next : ∀ j, readByte (cellsOf (lo + 1) vs) (lo + (j + 1)) = vs.getD j unlistedByte := fun j => by
      rw [← ih (lo + 1) j]; congr 1; omega
    have first : readByte (cellsOf (lo + 1) vs) lo = unlistedByte :=
      readByte_of_not_mem fun c hc => by have := (cellsOf_bounds c hc).1; omega
    by_cases hv : v = unlistedByte
    · rw [cellsOf, if_pos hv]
      cases i with
      | zero => simpa [hv] using first
      | succ j => simpa using next j
    · rw [cellsOf, if_neg hv, readByte_cons]
      cases i with
      | zero => simp
      | succ j => simpa using next j

/-! ### Replacing a range -/

/-- A replaced range leaves every byte outside it alone. -/
theorem readByte_replaceRange_out {m : Memory} {lo n a : Nat} {vs : List Byte}
    (h : a < lo ∨ lo + n ≤ a) : readByte (replaceRange m lo n vs) a = readByte m a := by
  have mid : ∀ c ∈ cellsOf lo (vs.take n), c.1 ≠ a := fun c hc => by
    have := cellsOf_bounds c hc
    have : (vs.take n).length ≤ n := by simp
    omega
  unfold replaceRange
  rcases h with h | h
  · rw [readByte_append_of_not_mem_right, readByte_append_of_not_mem_right mid]
    · exact readByte_filter fun c hc => by simp [hc, h]
    · intro c hc
      have := (List.mem_filter.mp hc).2
      simp only [decide_eq_true_eq] at this
      omega
  · rw [List.append_assoc, readByte_append_of_not_mem, readByte_append_of_not_mem mid]
    · exact readByte_filter fun c hc => by simp [hc, h]
    · intro c hc
      have := (List.mem_filter.mp hc).2
      simp only [decide_eq_true_eq] at this
      omega

/-- A replaced range reads as the given bytes, and as unlisted bytes after them. -/
theorem readByte_replaceRange_in {m : Memory} {lo n i : Nat} {vs : List Byte} (h : i < n) :
    readByte (replaceRange m lo n vs) (lo + i) = vs.getD i unlistedByte := by
  unfold replaceRange
  rw [readByte_append_of_not_mem_right, readByte_append_of_not_mem, readByte_cellsOf]
  · simp [List.getD_eq_getElem?_getD, h]
  · intro c hc
    have := (List.mem_filter.mp hc).2
    simp only [decide_eq_true_eq] at this
    omega
  · intro c hc
    have := (List.mem_filter.mp hc).2
    simp only [decide_eq_true_eq] at this
    omega

/-- A replaced range reads back as the bytes written. -/
theorem readRange_replaceRange {m : Memory} {lo n : Nat} {vs : List Byte} (h : vs.length ≤ n) :
    readRange (replaceRange m lo n vs) lo vs.length = vs := by
  rw [readRange_eq]
  apply List.ext_getElem
  · simp
  · intro i hi hi'
    simp only [List.getElem_map, List.getElem_range]
    rw [readByte_replaceRange_in (by omega)]
    simp [List.getD_eq_getElem?_getD, hi']

theorem readByte_writeByte_same (m : Memory) (a : Nat) (v : Byte) :
    readByte (writeByte m a v) a = v := by
  have := readByte_replaceRange_in (m := m) (lo := a) (n := 1) (i := 0) (vs := [v]) (by omega)
  simpa [writeByte] using this

theorem readByte_writeByte_other {m : Memory} {a b : Nat} {v : Byte} (h : b ≠ a) :
    readByte (writeByte m a v) b = readByte m b :=
  readByte_replaceRange_out (by omega)

/-- Bytes written one after another leave every byte outside them alone. -/
theorem readByte_writeBytes_out {m : Memory} {a b : Nat} {vs : List Byte}
    (h : b < a ∨ a + vs.length ≤ b) : readByte (writeBytes m a vs) b = readByte m b := by
  induction vs generalizing m a with
  | nil => rfl
  | cons v vs ih =>
    simp only [List.length_cons] at h
    rw [writeBytes, ih (by omega), readByte_writeByte_other (by omega)]

/-- Bytes written one after another read back. -/
theorem readByte_writeBytes_in {m : Memory} {a i : Nat} {vs : List Byte} (h : i < vs.length) :
    readByte (writeBytes m a vs) (a + i) = vs.getD i unlistedByte := by
  induction vs generalizing m a i with
  | nil => simp at h
  | cons v vs ih =>
    rw [writeBytes]
    cases i with
    | zero => rw [readByte_writeBytes_out (by omega)]; simpa using readByte_writeByte_same m a v
    | succ j =>
      have := ih (m := writeByte m a v) (a := a + 1) (i := j) (by simpa using h)
      rw [show a + (j + 1) = a + 1 + j by omega, this]; simp

/-! ### The canonical form -/

theorem offsetsRise_iff (m : Memory) :
    offsetsRise m = true ↔ m.Pairwise fun c d => c.1 < d.1 := by
  induction m with
  | nil => simp [offsetsRise]
  | cons c m ih =>
    cases m with
    | nil => simp [offsetsRise]
    | cons d m =>
      simp only [offsetsRise, Bool.and_eq_true, decide_eq_true_eq, ih, List.pairwise_cons,
        List.mem_cons, forall_eq_or_imp]
      constructor
      · rintro ⟨h, h', h''⟩
        exact ⟨⟨h, fun e he => lt_trans h (h' e he)⟩, h', h''⟩
      · rintro ⟨⟨h, _⟩, h', h''⟩
        exact ⟨h, h', h''⟩

/-- The canonical form, as a statement about the list. -/
theorem memWf_iff (m : Memory) :
    memWf m = true ↔ (m.Pairwise fun c d => c.1 < d.1) ∧ ∀ c ∈ m, c.2 ≠ unlistedByte := by
  simp [memWf, offsetsRise_iff]

@[simp] theorem memWf_nil : memWf [] = true := rfl

theorem cellsOf_pairwise (lo : Nat) (vs : List Byte) :
    (cellsOf lo vs).Pairwise fun c d => c.1 < d.1 := by
  induction vs generalizing lo with
  | nil => simp [cellsOf]
  | cons v vs ih =>
    by_cases hv : v = unlistedByte
    · rw [cellsOf, if_pos hv]; exact ih _
    · rw [cellsOf, if_neg hv, List.pairwise_cons]
      exact ⟨fun c hc => by have := (cellsOf_bounds c hc).1; simp only; omega, ih _⟩

/-- Replacing a range keeps the canonical form. -/
theorem memWf_replaceRange {m : Memory} (h : memWf m = true) (lo n : Nat) (vs : List Byte) :
    memWf (replaceRange m lo n vs) = true := by
  rw [memWf_iff] at h ⊢
  obtain ⟨hp, hz⟩ := h
  have low : ∀ c ∈ m.filter fun c => c.1 < lo, c.1 < lo := fun c hc => by
    simpa using (List.mem_filter.mp hc).2
  have high : ∀ c ∈ m.filter fun c => lo + n ≤ c.1, lo + n ≤ c.1 := fun c hc => by
    simpa using (List.mem_filter.mp hc).2
  have mid : ∀ c ∈ cellsOf lo (vs.take n), lo ≤ c.1 ∧ c.1 < lo + n := fun c hc => by
    have := cellsOf_bounds c hc
    have : (vs.take n).length ≤ n := by simp
    omega
  constructor
  · unfold replaceRange
    rw [List.pairwise_append, List.pairwise_append]
    refine ⟨⟨hp.filter _, cellsOf_pairwise _ _, ?_⟩, hp.filter _, ?_⟩
    · intro c hc d hd
      have := low c hc; have := mid d hd; omega
    · intro c hc d hd
      have := high d hd
      rcases List.mem_append.mp hc with hc | hc
      · have := low c hc; omega
      · have := mid c hc; omega
  · intro c hc
    simp only [replaceRange, List.mem_append] at hc
    rcases hc with (hc | hc) | hc
    · exact hz c (List.mem_filter.mp hc).1
    · exact (cellsOf_bounds c hc).2.2
    · exact hz c (List.mem_filter.mp hc).1

/-- Writing a byte keeps the canonical form. -/
theorem memWf_writeByte {m : Memory} (h : memWf m = true) (a : Nat) (v : Byte) :
    memWf (writeByte m a v) = true := memWf_replaceRange h _ _ _

/-- Writing bytes keeps the canonical form. -/
theorem memWf_writeBytes {m : Memory} (h : memWf m = true) (a : Nat) (vs : List Byte) :
    memWf (writeBytes m a vs) = true := by
  induction vs generalizing m a with
  | nil => exact h
  | cons v vs ih => exact ih (memWf_writeByte h _ _) _

end Sys2Proof.Machine
end

