-- ==== Sys2Proof/Laws/State.lean ====
section
/-! SUPPORT. What each named update of the state leaves in each field, so that no proof unfolds a record
update; and LEN[b] after a write of LEN[b']. -/

namespace Sys2Proof.Machine

/-! ### Success -/

@[simp] theorem complete_code (s : State) : (complete s).code = .ok := rfl
@[simp] theorem complete_fatal (s : State) : (complete s).fatal = s.fatal := rfl
@[simp] theorem complete_errcmd (s : State) : (complete s).errcmd = s.errcmd := rfl
@[simp] theorem complete_arg0 (s : State) : (complete s).arg0 = s.arg0 := rfl
@[simp] theorem complete_arg1 (s : State) : (complete s).arg1 = s.arg1 := rfl
@[simp] theorem complete_arg2 (s : State) : (complete s).arg2 = s.arg2 := rfl
@[simp] theorem complete_result (s : State) : (complete s).result = s.result := rfl
@[simp] theorem complete_lfsrWidth (s : State) : (complete s).lfsrWidth = s.lfsrWidth := rfl
@[simp] theorem complete_lfsrPoly (s : State) : (complete s).lfsrPoly = s.lfsrPoly := rfl
@[simp] theorem complete_lfsrState (s : State) : (complete s).lfsrState = s.lfsrState := rfl
@[simp] theorem complete_pageImpl4 (s : State) : (complete s).pageImpl4 = s.pageImpl4 := rfl
@[simp] theorem complete_pageImpl5 (s : State) : (complete s).pageImpl5 = s.pageImpl5 := rfl
@[simp] theorem complete_ldpcValid (s : State) : (complete s).ldpcValid = s.ldpcValid := rfl
@[simp] theorem complete_lens (s : State) : (complete s).lens = s.lens := rfl
@[simp] theorem complete_mem (s : State) : (complete s).mem = s.mem := rfl
@[simp] theorem complete_pending (s : State) : (complete s).pending = s.pending := rfl
@[simp] theorem complete_response (s : State) : (complete s).response = s.response := rfl

/-! ### A typed failure -/

@[simp] theorem raiseTyped_code (c : TypedCode) (s : State) : (raiseTyped c s).code = .typed c := rfl
@[simp] theorem raiseTyped_fatal (c : TypedCode) (s : State) : (raiseTyped c s).fatal = s.fatal := rfl
@[simp] theorem raiseTyped_errcmd (c : TypedCode) (s : State) : (raiseTyped c s).errcmd = s.errcmd := rfl
@[simp] theorem raiseTyped_arg0 (c : TypedCode) (s : State) : (raiseTyped c s).arg0 = s.arg0 := rfl
@[simp] theorem raiseTyped_arg1 (c : TypedCode) (s : State) : (raiseTyped c s).arg1 = s.arg1 := rfl
@[simp] theorem raiseTyped_arg2 (c : TypedCode) (s : State) : (raiseTyped c s).arg2 = s.arg2 := rfl
@[simp] theorem raiseTyped_result (c : TypedCode) (s : State) : (raiseTyped c s).result = s.result := rfl
@[simp] theorem raiseTyped_lfsrWidth (c : TypedCode) (s : State) : (raiseTyped c s).lfsrWidth = s.lfsrWidth := rfl
@[simp] theorem raiseTyped_lfsrPoly (c : TypedCode) (s : State) : (raiseTyped c s).lfsrPoly = s.lfsrPoly := rfl
@[simp] theorem raiseTyped_lfsrState (c : TypedCode) (s : State) : (raiseTyped c s).lfsrState = s.lfsrState := rfl
@[simp] theorem raiseTyped_pageImpl4 (c : TypedCode) (s : State) : (raiseTyped c s).pageImpl4 = s.pageImpl4 := rfl
@[simp] theorem raiseTyped_pageImpl5 (c : TypedCode) (s : State) : (raiseTyped c s).pageImpl5 = s.pageImpl5 := rfl
@[simp] theorem raiseTyped_ldpcValid (c : TypedCode) (s : State) : (raiseTyped c s).ldpcValid = s.ldpcValid := rfl
@[simp] theorem raiseTyped_lens (c : TypedCode) (s : State) : (raiseTyped c s).lens = s.lens := rfl
@[simp] theorem raiseTyped_mem (c : TypedCode) (s : State) : (raiseTyped c s).mem = s.mem := rfl
@[simp] theorem raiseTyped_pending (c : TypedCode) (s : State) : (raiseTyped c s).pending = s.pending := rfl
@[simp] theorem raiseTyped_response (c : TypedCode) (s : State) : (raiseTyped c s).response = s.response := rfl

/-! ### A fatal failure -/

@[simp] theorem raiseFatal_code (c : FatalCode) (w : Word) (s : State) : (raiseFatal c w s).code = .fatal c := rfl
@[simp] theorem raiseFatal_fatal (c : FatalCode) (w : Word) (s : State) : (raiseFatal c w s).fatal = true := rfl
@[simp] theorem raiseFatal_errcmd (c : FatalCode) (w : Word) (s : State) : (raiseFatal c w s).errcmd = w := rfl
@[simp] theorem raiseFatal_arg0 (c : FatalCode) (w : Word) (s : State) : (raiseFatal c w s).arg0 = s.arg0 := rfl
@[simp] theorem raiseFatal_arg1 (c : FatalCode) (w : Word) (s : State) : (raiseFatal c w s).arg1 = s.arg1 := rfl
@[simp] theorem raiseFatal_arg2 (c : FatalCode) (w : Word) (s : State) : (raiseFatal c w s).arg2 = s.arg2 := rfl
@[simp] theorem raiseFatal_result (c : FatalCode) (w : Word) (s : State) : (raiseFatal c w s).result = s.result := rfl
@[simp] theorem raiseFatal_lfsrWidth (c : FatalCode) (w : Word) (s : State) : (raiseFatal c w s).lfsrWidth = s.lfsrWidth := rfl
@[simp] theorem raiseFatal_lfsrPoly (c : FatalCode) (w : Word) (s : State) : (raiseFatal c w s).lfsrPoly = s.lfsrPoly := rfl
@[simp] theorem raiseFatal_lfsrState (c : FatalCode) (w : Word) (s : State) : (raiseFatal c w s).lfsrState = s.lfsrState := rfl
@[simp] theorem raiseFatal_pageImpl4 (c : FatalCode) (w : Word) (s : State) : (raiseFatal c w s).pageImpl4 = s.pageImpl4 := rfl
@[simp] theorem raiseFatal_pageImpl5 (c : FatalCode) (w : Word) (s : State) : (raiseFatal c w s).pageImpl5 = s.pageImpl5 := rfl
@[simp] theorem raiseFatal_ldpcValid (c : FatalCode) (w : Word) (s : State) : (raiseFatal c w s).ldpcValid = s.ldpcValid := rfl
@[simp] theorem raiseFatal_lens (c : FatalCode) (w : Word) (s : State) : (raiseFatal c w s).lens = s.lens := rfl
@[simp] theorem raiseFatal_mem (c : FatalCode) (w : Word) (s : State) : (raiseFatal c w s).mem = s.mem := rfl
@[simp] theorem raiseFatal_pending (c : FatalCode) (w : Word) (s : State) : (raiseFatal c w s).pending = s.pending := rfl
@[simp] theorem raiseFatal_response (c : FatalCode) (w : Word) (s : State) : (raiseFatal c w s).response = s.response := rfl

/-! ### Reset -/

@[simp] theorem resetCore_code (s : State) : (resetCore s).code = State.reset.code := rfl
@[simp] theorem resetCore_fatal (s : State) : (resetCore s).fatal = State.reset.fatal := rfl
@[simp] theorem resetCore_errcmd (s : State) : (resetCore s).errcmd = State.reset.errcmd := rfl
@[simp] theorem resetCore_arg0 (s : State) : (resetCore s).arg0 = State.reset.arg0 := rfl
@[simp] theorem resetCore_arg1 (s : State) : (resetCore s).arg1 = State.reset.arg1 := rfl
@[simp] theorem resetCore_arg2 (s : State) : (resetCore s).arg2 = State.reset.arg2 := rfl
@[simp] theorem resetCore_result (s : State) : (resetCore s).result = State.reset.result := rfl
@[simp] theorem resetCore_lfsrWidth (s : State) : (resetCore s).lfsrWidth = State.reset.lfsrWidth := rfl
@[simp] theorem resetCore_lfsrPoly (s : State) : (resetCore s).lfsrPoly = State.reset.lfsrPoly := rfl
@[simp] theorem resetCore_lfsrState (s : State) : (resetCore s).lfsrState = State.reset.lfsrState := rfl
@[simp] theorem resetCore_pageImpl4 (s : State) : (resetCore s).pageImpl4 = State.reset.pageImpl4 := rfl
@[simp] theorem resetCore_pageImpl5 (s : State) : (resetCore s).pageImpl5 = State.reset.pageImpl5 := rfl
@[simp] theorem resetCore_ldpcValid (s : State) : (resetCore s).ldpcValid = State.reset.ldpcValid := rfl
@[simp] theorem resetCore_lens (s : State) : (resetCore s).lens = State.reset.lens := rfl
@[simp] theorem resetCore_mem (s : State) : (resetCore s).mem = State.reset.mem := rfl
@[simp] theorem resetCore_pending (s : State) : (resetCore s).pending = s.pending := rfl
@[simp] theorem resetCore_response (s : State) : (resetCore s).response = s.response := rfl

/-! ### SetBuf -/

@[simp] theorem setBuf_code (b : Buf) (x : Bits) (s : State) : (setBuf s b x).code = s.code := rfl
@[simp] theorem setBuf_fatal (b : Buf) (x : Bits) (s : State) : (setBuf s b x).fatal = s.fatal := rfl
@[simp] theorem setBuf_errcmd (b : Buf) (x : Bits) (s : State) : (setBuf s b x).errcmd = s.errcmd := rfl
@[simp] theorem setBuf_arg0 (b : Buf) (x : Bits) (s : State) : (setBuf s b x).arg0 = s.arg0 := rfl
@[simp] theorem setBuf_arg1 (b : Buf) (x : Bits) (s : State) : (setBuf s b x).arg1 = s.arg1 := rfl
@[simp] theorem setBuf_arg2 (b : Buf) (x : Bits) (s : State) : (setBuf s b x).arg2 = s.arg2 := rfl
@[simp] theorem setBuf_result (b : Buf) (x : Bits) (s : State) : (setBuf s b x).result = s.result := rfl
@[simp] theorem setBuf_lfsrWidth (b : Buf) (x : Bits) (s : State) : (setBuf s b x).lfsrWidth = s.lfsrWidth := rfl
@[simp] theorem setBuf_lfsrPoly (b : Buf) (x : Bits) (s : State) : (setBuf s b x).lfsrPoly = s.lfsrPoly := rfl
@[simp] theorem setBuf_lfsrState (b : Buf) (x : Bits) (s : State) : (setBuf s b x).lfsrState = s.lfsrState := rfl
@[simp] theorem setBuf_pageImpl4 (b : Buf) (x : Bits) (s : State) : (setBuf s b x).pageImpl4 = s.pageImpl4 := rfl
@[simp] theorem setBuf_pageImpl5 (b : Buf) (x : Bits) (s : State) : (setBuf s b x).pageImpl5 = s.pageImpl5 := rfl
@[simp] theorem setBuf_ldpcValid (b : Buf) (x : Bits) (s : State) : (setBuf s b x).ldpcValid = s.ldpcValid := rfl
@[simp] theorem setBuf_lens (b : Buf) (x : Bits) (s : State) : (setBuf s b x).lens = setLen s.lens b (BitVec.ofNat 15 x.length) := rfl
@[simp] theorem setBuf_mem (b : Buf) (x : Bits) (s : State) : (setBuf s b x).mem = replaceRange s.mem (bufBase b) bufBytes (packBytes x) := rfl
@[simp] theorem setBuf_pending (b : Buf) (x : Bits) (s : State) : (setBuf s b x).pending = s.pending := rfl
@[simp] theorem setBuf_response (b : Buf) (x : Bits) (s : State) : (setBuf s b x).response = s.response := rfl

/-! ### A matrix written -/

@[simp] theorem setMatrix_code (mx : Matrix) (sl : Slot) (rows : List (List Sym)) (s : State) : (setMatrix s mx sl rows).code = s.code := rfl
@[simp] theorem setMatrix_fatal (mx : Matrix) (sl : Slot) (rows : List (List Sym)) (s : State) : (setMatrix s mx sl rows).fatal = s.fatal := rfl
@[simp] theorem setMatrix_errcmd (mx : Matrix) (sl : Slot) (rows : List (List Sym)) (s : State) : (setMatrix s mx sl rows).errcmd = s.errcmd := rfl
@[simp] theorem setMatrix_arg0 (mx : Matrix) (sl : Slot) (rows : List (List Sym)) (s : State) : (setMatrix s mx sl rows).arg0 = s.arg0 := rfl
@[simp] theorem setMatrix_arg1 (mx : Matrix) (sl : Slot) (rows : List (List Sym)) (s : State) : (setMatrix s mx sl rows).arg1 = s.arg1 := rfl
@[simp] theorem setMatrix_arg2 (mx : Matrix) (sl : Slot) (rows : List (List Sym)) (s : State) : (setMatrix s mx sl rows).arg2 = s.arg2 := rfl
@[simp] theorem setMatrix_result (mx : Matrix) (sl : Slot) (rows : List (List Sym)) (s : State) : (setMatrix s mx sl rows).result = s.result := rfl
@[simp] theorem setMatrix_lfsrWidth (mx : Matrix) (sl : Slot) (rows : List (List Sym)) (s : State) : (setMatrix s mx sl rows).lfsrWidth = s.lfsrWidth := rfl
@[simp] theorem setMatrix_lfsrPoly (mx : Matrix) (sl : Slot) (rows : List (List Sym)) (s : State) : (setMatrix s mx sl rows).lfsrPoly = s.lfsrPoly := rfl
@[simp] theorem setMatrix_lfsrState (mx : Matrix) (sl : Slot) (rows : List (List Sym)) (s : State) : (setMatrix s mx sl rows).lfsrState = s.lfsrState := rfl
@[simp] theorem setMatrix_pageImpl4 (mx : Matrix) (sl : Slot) (rows : List (List Sym)) (s : State) : (setMatrix s mx sl rows).pageImpl4 = s.pageImpl4 := rfl
@[simp] theorem setMatrix_pageImpl5 (mx : Matrix) (sl : Slot) (rows : List (List Sym)) (s : State) : (setMatrix s mx sl rows).pageImpl5 = s.pageImpl5 := rfl
@[simp] theorem setMatrix_ldpcValid (mx : Matrix) (sl : Slot) (rows : List (List Sym)) (s : State) : (setMatrix s mx sl rows).ldpcValid = s.ldpcValid := rfl
@[simp] theorem setMatrix_lens (mx : Matrix) (sl : Slot) (rows : List (List Sym)) (s : State) : (setMatrix s mx sl rows).lens = s.lens := rfl
@[simp] theorem setMatrix_mem (mx : Matrix) (sl : Slot) (rows : List (List Sym)) (s : State) : (setMatrix s mx sl rows).mem = replaceRange s.mem (matrixBase mx sl) (slotSize sl * slotSize sl)
      (rows.flatten.map fun x => x.setWidth 8) := rfl
@[simp] theorem setMatrix_pending (mx : Matrix) (sl : Slot) (rows : List (List Sym)) (s : State) : (setMatrix s mx sl rows).pending = s.pending := rfl
@[simp] theorem setMatrix_response (mx : Matrix) (sl : Slot) (rows : List (List Sym)) (s : State) : (setMatrix s mx sl rows).response = s.response := rfl

/-! ### A command queued -/

@[simp] theorem queueCommand_code (w : Word) (s : State) : (queueCommand s w).code = s.code := rfl
@[simp] theorem queueCommand_fatal (w : Word) (s : State) : (queueCommand s w).fatal = s.fatal := rfl
@[simp] theorem queueCommand_errcmd (w : Word) (s : State) : (queueCommand s w).errcmd = s.errcmd := rfl
@[simp] theorem queueCommand_arg0 (w : Word) (s : State) : (queueCommand s w).arg0 = s.arg0 := rfl
@[simp] theorem queueCommand_arg1 (w : Word) (s : State) : (queueCommand s w).arg1 = s.arg1 := rfl
@[simp] theorem queueCommand_arg2 (w : Word) (s : State) : (queueCommand s w).arg2 = s.arg2 := rfl
@[simp] theorem queueCommand_result (w : Word) (s : State) : (queueCommand s w).result = s.result := rfl
@[simp] theorem queueCommand_lfsrWidth (w : Word) (s : State) : (queueCommand s w).lfsrWidth = s.lfsrWidth := rfl
@[simp] theorem queueCommand_lfsrPoly (w : Word) (s : State) : (queueCommand s w).lfsrPoly = s.lfsrPoly := rfl
@[simp] theorem queueCommand_lfsrState (w : Word) (s : State) : (queueCommand s w).lfsrState = s.lfsrState := rfl
@[simp] theorem queueCommand_pageImpl4 (w : Word) (s : State) : (queueCommand s w).pageImpl4 = s.pageImpl4 := rfl
@[simp] theorem queueCommand_pageImpl5 (w : Word) (s : State) : (queueCommand s w).pageImpl5 = s.pageImpl5 := rfl
@[simp] theorem queueCommand_ldpcValid (w : Word) (s : State) : (queueCommand s w).ldpcValid = s.ldpcValid := rfl
@[simp] theorem queueCommand_lens (w : Word) (s : State) : (queueCommand s w).lens = s.lens := rfl
@[simp] theorem queueCommand_mem (w : Word) (s : State) : (queueCommand s w).mem = s.mem := rfl
@[simp] theorem queueCommand_pending (w : Word) (s : State) : (queueCommand s w).pending = .write 0x000 .w8 w :: s.pending := rfl
@[simp] theorem queueCommand_response (w : Word) (s : State) : (queueCommand s w).response = s.response := rfl

/-! ### Length registers -/

@[simp] theorem getLen_setLen_same (l : Lens) (b : Buf) (v : BitVec 15) :
    getLen (setLen l b v) b = v := by cases b <;> rfl

@[simp] theorem getLen_setLen_other {l : Lens} {b b' : Buf} (h : b' ≠ b) (v : BitVec 15) :
    getLen (setLen l b v) b' = getLen l b' := by
  cases b <;> cases b' <;> first | rfl | exact absurd rfl h

@[simp] theorem getLen_reset (b : Buf) : getLen Lens.reset b = 0 := by cases b <;> rfl

/-! ### LDPC_VALID -/

@[simp] theorem getLsbD_markValid (v : BitVec 2) (sl sl' : Slot) :
    (markValid v sl).getLsbD sl'.num = (v.getLsbD sl'.num || decide (sl' = sl)) := by
  revert v; cases sl <;> cases sl' <;> decide

@[simp] theorem getLsbD_clearValid (v : BitVec 2) (sl sl' : Slot) :
    (clearValid v sl).getLsbD sl'.num = (v.getLsbD sl'.num && !decide (sl' = sl)) := by
  revert v; cases sl <;> cases sl' <;> decide

end Sys2Proof.Machine
end

