-- ==== Sys2Proof/Laws/Buffer.lean ====
section
/-! SUPPORT. Buffers and matrices: what SetBuf and a written matrix read back as, and what they leave alone
(10_state.md R41, 20_memory.md R74, R75). -/

namespace Sys2Proof.Machine

/-! ### Where buffers and matrices lie -/

theorem Buf.num_lt (b : Buf) : b.num < 8 := by cases b <;> decide

theorem Buf.num_injective {b b' : Buf} (h : b.num = b'.num) : b = b' := by
  cases b <;> cases b' <;> first | rfl | exact absurd h (by decide)

theorem bufBase_bounds (b : Buf) : 0x1000 ≤ bufBase b ∧ bufBase b + bufBytes ≤ 0x5000 := by
  cases b <;> decide

/-- Two buffers share no byte. -/
theorem bufBase_disjoint {b b' : Buf} (h : b ≠ b') :
    bufBase b + bufBytes ≤ bufBase b' ∨ bufBase b' + bufBytes ≤ bufBase b := by
  cases b <;> cases b' <;> first | exact absurd rfl h | decide

theorem matrixBase_bounds (mx : Matrix) (sl : Slot) :
    0x10000 ≤ matrixBase mx sl ∧ matrixBase mx sl + slotSize sl * slotSize sl ≤ windowSize := by
  cases mx <;> cases sl <;> decide

/-- Two matrix regions share no element. -/
theorem matrixBase_disjoint {mx mx' : Matrix} {sl sl' : Slot} (h : mx ≠ mx' ∨ sl ≠ sl') :
    matrixBase mx sl + slotSize sl * slotSize sl ≤ matrixBase mx' sl'
      ∨ matrixBase mx' sl' + slotSize sl' * slotSize sl' ≤ matrixBase mx sl := by
  cases mx <;> cases mx' <;> cases sl <;> cases sl' <;>
    first | decide | exact absurd h (by decide)

/-! ### Reading a buffer -/

theorem readBuf_eq (s : State) (b : Buf) :
    readBuf s b =
      ((readRange s.mem (bufBase b) ((bufLen s b + 7) / 8)).flatMap byteBits).take (bufLen s b) := rfl

theorem length_flatMap_byteBits (vs : List Byte) : (vs.flatMap byteBits).length = 8 * vs.length := by
  induction vs with
  | nil => rfl
  | cons v vs ih => simp [List.flatMap_cons, ih]; omega

/-- A buffer's string is LEN bits long (R40). -/
@[simp] theorem length_readBuf (s : State) (b : Buf) : (readBuf s b).length = bufLen s b := by
  rw [readBuf_eq, List.length_take, length_flatMap_byteBits, length_readRange]
  omega

/-- States that agree on LEN[b] and on the bytes that hold the string have the same string in b. -/
theorem readBuf_congr {s t : State} {b : Buf} (hl : bufLen s b = bufLen t b)
    (hm : ∀ a, bufBase b ≤ a → a < bufBase b + (bufLen t b + 7) / 8 →
      readByte s.mem a = readByte t.mem a) : readBuf s b = readBuf t b := by
  rw [readBuf_eq, readBuf_eq, hl, readRange_congr hm]

theorem getLsbD_eq_byteBits (v : Byte) {j : Nat} (h : j < 8) :
    v.getLsbD (7 - j) = (byteBits v)[j]'(by simpa using h) := by
  simp [byteBits, bitsOf, BitVec.getLsbD]

theorem getElem_flatMap_byteBits (vs : List Byte) (i : Nat) (h : i < (vs.flatMap byteBits).length) :
    (vs.flatMap byteBits)[i] = (vs.getD (i / 8) 0).getLsbD (7 - i % 8) := by
  induction vs generalizing i with
  | nil => simp at h
  | cons v vs ih =>
    simp only [List.flatMap_cons] at h ⊢
    by_cases hi : i < 8
    · rw [List.getElem_append_left (by simpa using hi)]
      have h0 : i / 8 = 0 := by omega
      have h1 : i % 8 = i := by omega
      simp [h0, h1, getLsbD_eq_byteBits v hi]
    · rw [List.getElem_append_right (by simpa using hi), ih]
      have h0 : i / 8 = (i - 8) / 8 + 1 := by omega
      have h1 : (i - 8) % 8 = i % 8 := by omega
      simp [h0, h1]

/-- Bit i of a buffer's string is its storage bit i (R40). -/
theorem getElem_readBuf (s : State) (b : Buf) (i : Nat) (h : i < (readBuf s b).length) :
    (readBuf s b)[i] = storageBit s b i := by
  have hi : i < bufLen s b := by simpa using h
  simp only [readBuf_eq, List.getElem_take, getElem_flatMap_byteBits, storageBit]
  rw [readRange_eq]
  simp only [List.getD_eq_getElem?_getD]
  rw [List.getElem?_eq_getElem (by simp; omega)]
  simp

/-! ### SetBuf -/

theorem bufLen_setBuf_same (s : State) (b : Buf) {x : Bits} (h : x.length ≤ Config.cap) :
    bufLen (setBuf s b x) b = x.length := by
  have : x.length < 2 ^ 15 := lt_of_le_of_lt h (by decide)
  simp only [bufLen, setBuf_lens, getLen_setLen_same, BitVec.toNat_ofNat]
  exact Nat.mod_eq_of_lt this

theorem bufLen_setBuf_other (s : State) {b b' : Buf} (h : b' ≠ b) (x : Bits) :
    bufLen (setBuf s b x) b' = bufLen s b' := by simp [bufLen, h]

/-- SetBuf writes no byte outside its buffer (R41). -/
theorem readByte_setBuf_out (s : State) (b : Buf) (x : Bits) {a : Nat}
    (h : a < bufBase b ∨ bufBase b + bufBytes ≤ a) :
    readByte (setBuf s b x).mem a = readByte s.mem a := by
  rw [setBuf_mem]; exact readByte_replaceRange_out h

/-- After SetBuf the buffer holds the string (R41). -/
theorem readBuf_setBuf_same (s : State) (b : Buf) {x : Bits} (h : x.length ≤ Config.cap) :
    readBuf (setBuf s b x) b = x := by
  have hl : (packBytes x).length ≤ bufBytes := by
    simp only [length_packBytes, bufBytes, Config.cap] at h ⊢; omega
  rw [readBuf_eq, bufLen_setBuf_same s b h, setBuf_mem]
  have := readRange_replaceRange (m := s.mem) (lo := bufBase b) hl
  rw [length_packBytes] at this
  rw [this, take_flatMap_packBytes]

/-- SetBuf on one buffer leaves another one's string alone, where LEN is within the capacity (R41). -/
theorem readBuf_setBuf_other (s : State) {b b' : Buf} (h : b' ≠ b) (x : Bits)
    (hl : bufLen s b' ≤ Config.cap) : readBuf (setBuf s b x) b' = readBuf s b' := by
  refine readBuf_congr (bufLen_setBuf_other s h x) fun a h1 h2 => ?_
  have hb : (bufLen s b' + 7) / 8 ≤ bufBytes := by
    simp only [bufBytes, Config.cap] at hl ⊢; omega
  have := bufBase_disjoint h
  exact readByte_setBuf_out s b x (by omega)

/-- After SetBuf every byte of the buffer past those of the string is 0 (R41). -/
theorem readByte_setBuf_past (s : State) (b : Buf) (x : Bits) {i : Nat}
    (h : (x.length + 7) / 8 ≤ i) (h' : i < bufBytes) :
    readByte (setBuf s b x).mem (bufBase b + i) = 0 := by
  rw [setBuf_mem, readByte_replaceRange_in h', List.getD_eq_default _ _ (by simpa using h)]
  rfl

theorem getD_packBytes_bit (x : Bits) {i : Nat} (h : i < 8 * ((x.length + 7) / 8)) :
    ((packBytes x).getD (i / 8) 0).getLsbD (7 - i % 8) = x.getD i false := by
  have hf := flatMap_packBytesFrom ((x.length + 7) / 8) x (by omega)
  have hi : i < ((packBytes x).flatMap byteBits).length := by
    rw [length_flatMap_byteBits, length_packBytes]; exact h
  rw [← getElem_flatMap_byteBits _ _ hi]
  have : ((packBytes x).flatMap byteBits)[i] = ((packBytes x).flatMap byteBits).getD i false := by
    rw [List.getD_eq_getElem?_getD, List.getElem?_eq_getElem hi, Option.getD_some]
  rw [this, packBytes, hf]
  by_cases hx : i < x.length
  · simp [List.getD_eq_getElem?_getD, List.getElem?_append_left hx]
  · simp only [List.getD_eq_getElem?_getD, List.getElem?_append_right (not_lt.mp hx)]
    rw [List.getElem?_eq_none (not_lt.mp hx)]
    simp only [zeros, List.getElem?_replicate]
    split <;> rfl

/-- After SetBuf every storage bit at or beyond LEN is 0 (R41). -/
theorem storageBit_setBuf_past (s : State) (b : Buf) (x : Bits) {i : Nat} (h : x.length ≤ i)
    (h' : i < Config.cap) : storageBit (setBuf s b x) b i = false := by
  have hi : i / 8 < bufBytes := by simp only [Config.cap, bufBytes] at *; omega
  rw [storageBit, setBuf_mem, readByte_replaceRange_in hi]
  by_cases h8 : i < 8 * ((x.length + 7) / 8)
  · have := getD_packBytes_bit x h8
    rw [show (0 : Byte) = unlistedByte from rfl] at this
    rw [this, List.getD_eq_default _ _ h]
  · rw [List.getD_eq_default _ _ (by simp; omega)]
    simp [unlistedByte]

/-- SetBuf keeps the canonical form of memory. -/
theorem memWf_setBuf {s : State} (h : memWf s.mem = true) (b : Buf) (x : Bits) :
    memWf (setBuf s b x).mem = true := memWf_replaceRange h _ _ _

/-! ### Matrices -/

@[simp] theorem length_matrixRows (s : State) (mx : Matrix) (sl : Slot) :
    (matrixRows s mx sl).length = slotSize sl := by simp [matrixRows]

/-- A matrix reads as its elements (R75). -/
theorem matrixRows_eq (s : State) (mx : Matrix) (sl : Slot) :
    matrixRows s mx sl = (List.range (slotSize sl)).map fun r =>
      (List.range (slotSize sl)).map fun c => element s mx sl r c := by
  refine List.map_congr_left fun r hr => ?_
  have hr := List.mem_range.mp hr
  have hk : r * slotSize sl + slotSize sl ≤ slotSize sl * slotSize sl := by nlinarith
  rw [readRange_slice (by omega) (by omega), readRange_eq, List.map_map]
  refine List.map_congr_left fun c _ => ?_
  simp only [Function.comp, element]
  congr 2; omega

/-- Two states whose memories agree on a matrix's elements have the same matrix. -/
theorem matrixRows_congr {s t : State} {mx : Matrix} {sl : Slot}
    (h : ∀ a, matrixBase mx sl ≤ a → a < matrixBase mx sl + slotSize sl * slotSize sl →
      readByte s.mem a = readByte t.mem a) : matrixRows s mx sl = matrixRows t mx sl := by
  rw [matrixRows_eq, matrixRows_eq]
  refine List.map_congr_left fun r hr => List.map_congr_left fun c hc => ?_
  have hr := List.mem_range.mp hr
  have hc := List.mem_range.mp hc
  have hk : r * slotSize sl + c < slotSize sl * slotSize sl := by nlinarith
  rw [element, element, h _ (by omega) (by omega)]

/-- SetBuf leaves every matrix alone. -/
theorem matrixRows_setBuf (s : State) (b : Buf) (x : Bits) (mx : Matrix) (sl : Slot) :
    matrixRows (setBuf s b x) mx sl = matrixRows s mx sl := by
  refine matrixRows_congr fun a h1 _ => readByte_setBuf_out s b x ?_
  have := bufBase_bounds b
  have := matrixBase_bounds mx sl
  omega

/-- A written matrix leaves every other matrix alone. -/
theorem matrixRows_setMatrix_other (s : State) {mx mx' : Matrix} {sl sl' : Slot}
    (h : mx ≠ mx' ∨ sl ≠ sl') (rows : List (List Sym)) :
    matrixRows (setMatrix s mx sl rows) mx' sl' = matrixRows s mx' sl' := by
  refine matrixRows_congr fun a h1 h2 => ?_
  rw [setMatrix_mem]
  have := matrixBase_disjoint h
  exact readByte_replaceRange_out (by omega)

theorem flatten_getD_of_rows {k : Nat} {rows : List (List Sym)} (hr : ∀ row ∈ rows, row.length = k)
    {r c : Nat} (hr' : r < rows.length) (hc : c < k) :
    rows.flatten.getD (r * k + c) 0 = (rows.getD r []).getD c 0 := by
  induction rows generalizing r with
  | nil => simp at hr'
  | cons row rows ih =>
    have hrow : row.length = k := hr row (by simp)
    cases r with
    | zero =>
      simp only [List.flatten_cons, List.getD_eq_getElem?_getD, Nat.zero_mul, Nat.zero_add]
      rw [List.getElem?_append_left (by omega)]; simp
    | succ r =>
      have hi : row.length ≤ (r + 1) * k + c := by rw [hrow]; nlinarith
      simp only [List.flatten_cons, List.getD_eq_getElem?_getD]
      rw [List.getElem?_append_right hi]
      have := ih (fun x hx => hr x (by simp [hx])) (r := r) (by simpa using hr')
      simp only [List.getD_eq_getElem?_getD] at this
      rw [hrow, show (r + 1) * k + c - k = r * k + c by rw [Nat.succ_mul]; omega, this]
      simp

theorem length_flatten_of_rows {k : Nat} {rows : List (List Sym)}
    (hr : ∀ row ∈ rows, row.length = k) : rows.flatten.length = rows.length * k := by
  induction rows with
  | nil => simp
  | cons row rows ih =>
    simp only [List.flatten_cons, List.length_append, List.length_cons, Nat.succ_mul,
      ih fun x hx => hr x (by simp [hx]), hr row (by simp)]
    omega

/-- A written matrix of k rows of k symbols reads back (R75). -/
theorem matrixRows_setMatrix_same (s : State) (mx : Matrix) (sl : Slot) {rows : List (List Sym)}
    (hn : rows.length = slotSize sl) (hr : ∀ row ∈ rows, row.length = slotSize sl) :
    matrixRows (setMatrix s mx sl rows) mx sl = rows := by
  rw [matrixRows_eq]
  apply List.ext_getElem
  · simp [hn]
  · intro r h1 h2
    have hrow : rows[r].length = slotSize sl := hr _ (List.getElem_mem h2)
    simp only [List.getElem_map, List.getElem_range]
    apply List.ext_getElem
    · simp [hrow]
    · intro c h3 h4
      have hc : c < slotSize sl := by simpa using h3
      have hk : r * slotSize sl + c < slotSize sl * slotSize sl := by
        have : r < slotSize sl := hn ▸ h2
        nlinarith
      have hf := flatten_getD_of_rows hr (r := r) (c := c) h2 hc
      have hlen := length_flatten_of_rows hr
      simp only [List.getElem_map, List.getElem_range, element, setMatrix_mem]
      rw [readByte_replaceRange_in hk]
      have hi : r * slotSize sl + c < rows.flatten.length := by rw [hlen, hn]; exact hk
      simp only [List.getD_eq_getElem?_getD, List.getElem?_map, List.getElem?_eq_getElem hi,
        List.getElem?_eq_getElem h2, List.getElem?_eq_getElem h4, Option.map_some,
        Option.getD_some] at hf ⊢
      rw [hf, BitVec.setWidth_setWidth_of_le _ (by decide), BitVec.setWidth_eq]

/-- Writing a matrix keeps the canonical form of memory. -/
theorem memWf_setMatrix {s : State} (h : memWf s.mem = true) (mx : Matrix) (sl : Slot)
    (rows : List (List Sym)) : memWf (setMatrix s mx sl rows).mem = true := memWf_replaceRange h _ _ _

end Sys2Proof.Machine
end

