-- ==== Sys2Proof/Laws/Command.lean ====
section
/-! SUPPORT. How a command ends and what one host access can do, said once: every later proof cites these. -/

namespace Sys2Proof.Machine

/-! ### The end of a command (60_exceptions.md R311–R314) -/

@[simp] theorem endState_done (w : Word) (s t : State) : endState w s (.done t) = complete t := rfl

@[simp] theorem endState_typed (w : Word) (s : State) (c : TypedCode) :
    endState w s (.typed c) = raiseTyped c s := rfl

@[simp] theorem endState_fatal (w : Word) (s : State) (c : FatalCode) :
    endState w s (.fatal c) = raiseFatal c w s := rfl

/-- A command that ends, ends in the state of its verdict. -/
theorem conclude_next {i : Instr} {s t : State} {v : Verdict} :
    conclude i s v = .next t ↔ t = endState (encode i) s v := by
  simp [conclude, eq_comm]

/-- The three ways a command can end. -/
theorem conclude_cases {i : Instr} {s t : State} {v : Verdict} (h : conclude i s v = .next t) :
    (∃ u, v = .done u ∧ t = complete u) ∨ (∃ c, v = .typed c ∧ t = raiseTyped c s)
      ∨ ∃ c, v = .fatal c ∧ t = raiseFatal c (encode i) s := by
  rw [conclude_next] at h
  subst h
  cases v with
  | done u => exact .inl ⟨u, rfl, rfl⟩
  | typed c => exact .inr (.inl ⟨c, rfl, rfl⟩)
  | fatal c => exact .inr (.inr ⟨c, rfl, rfl⟩)

/-- Every command ends with a verdict: each meaning is one use of the shared end of a command. -/
theorem exec_eq_conclude (i : Instr) (s : State) : ∃ v, exec i s = conclude i s v := by
  cases i <;> exact ⟨_, rfl⟩

/-! ### A write to CMD (30_encoding.md R109) -/

theorem runCommand_fatal {s : State} (h : s.fatal = true) (w : Word) : runCommand w s = .next s := by
  simp [runCommand, h]

theorem runCommand_unsupported {s : State} {w : Word} (h : s.fatal = false)
    (hd : decode w = .unsupported) : runCommand w s = .next (raiseTyped .unsupported s) := by
  simp [runCommand, h, hd]

theorem runCommand_badCmd {s : State} {w : Word} (h : s.fatal = false) (hd : decode w = .badCmd) :
    runCommand w s = .next (raiseFatal .badCmd w s) := by
  simp [runCommand, h, hd]

theorem runCommand_instr {s : State} {w : Word} {i : Instr} (h : s.fatal = false)
    (hd : decode w = .instr i) : runCommand w s = exec i s := by
  simp [runCommand, h, hd]

/-- All that a write to CMD can do. -/
theorem runCommand_cases {w : Word} {s t : State} (h : runCommand w s = .next t) :
    (s.fatal = true ∧ t = s) ∨ (s.fatal = false ∧ decode w = .unsupported ∧ t = raiseTyped .unsupported s)
      ∨ (s.fatal = false ∧ decode w = .badCmd ∧ t = raiseFatal .badCmd w s)
      ∨ ∃ i, s.fatal = false ∧ decode w = .instr i ∧ exec i s = .next t := by
  cases hf : s.fatal with
  | true => rw [runCommand_fatal hf] at h; cases h; exact .inl ⟨rfl, rfl⟩
  | false =>
    cases hd : decode w with
    | unsupported =>
      rw [runCommand_unsupported hf hd] at h; cases h; exact .inr (.inl ⟨rfl, rfl, rfl⟩)
    | badCmd =>
      rw [runCommand_badCmd hf hd] at h; cases h; exact .inr (.inr (.inl ⟨rfl, rfl, rfl⟩))
    | instr i =>
      rw [runCommand_instr hf hd] at h; exact .inr (.inr (.inr ⟨i, rfl, rfl, h⟩))

/-! ### One host access (20_memory.md R70–R79) -/

/-- All that a read can do: it changes nothing but the answer. -/
theorem performRead_cases {off : Nat} {w : Width} {s t : State} (h : performRead off w s = .next t) :
    off < windowSize ∧ ((target off w = none ∧ t = { s with response := .busError })
      ∨ ∃ tg, target off w = some tg ∧ t = { s with response := .data (readTarget s tg) }) := by
  unfold performRead at h
  split at h
  · cases h
  · refine ⟨by omega, ?_⟩
    cases ht : target off w with
    | none => rw [ht] at h; cases h; exact .inl ⟨rfl, rfl⟩
    | some tg => rw [ht] at h; cases h; exact .inr ⟨tg, rfl, rfl⟩

/-- All that a write can do: a bus error, a command, or the write of its target. -/
theorem performWrite_cases {off : Nat} {w : Width} {v : Word} {s t : State}
    (h : performWrite off w v s = .next t) :
    off < windowSize ∧ ((target off w = none ∧ t = { s with response := .busError })
      ∨ (target off w = some (.reg .cmd) ∧ runCommand v { s with response := .written } = .next t)
      ∨ ∃ tg, tg ≠ .reg .cmd ∧ target off w = some tg
          ∧ t = writeTarget { s with response := .written } v tg) := by
  unfold performWrite at h
  split at h
  · cases h
  · refine ⟨by omega, ?_⟩
    cases ht : target off w with
    | none => rw [ht] at h; cases h; exact .inl ⟨rfl, rfl⟩
    | some tg =>
      rw [ht] at h
      by_cases hc : tg = .reg .cmd
      · subst hc; exact .inr (.inl ⟨rfl, h⟩)
      · refine .inr (.inr ⟨tg, hc, rfl, ?_⟩)
        cases tg with
        | reg r =>
          cases r with
          | cmd => exact absurd rfl hc
          | _ => simpa [eq_comm] using h
        | _ => simpa [eq_comm] using h

end Sys2Proof.Machine
end

