-- ==== Sys2Proof/Laws/Decode.lean ====
section
/-! SUPPORT. Fields of a command word: what a placed number adds to a word under a mask and in a field. -/

namespace Sys2Proof

/-- A word that has the pattern under a mask keeps it when bits outside the mask are added. -/
theorem or_and_of {x y m p : Word} (hx : x &&& m = p) (hy : y &&& m = 0) : (x ||| y) &&& m = p := by
  apply BitVec.eq_of_getLsbD_eq
  intro i hi
  have h1 := congrArg (fun z => z.getLsbD i) hx
  have h2 := congrArg (fun z => z.getLsbD i) hy
  simp only [BitVec.getLsbD_and] at h1 h2
  rw [BitVec.getLsbD_and, BitVec.getLsbD_or, Bool.and_or_distrib_right, h1, h2]
  simp

/-- A number below 2^n at bit `lo` lies outside a mask when every number below 2^n does. -/
theorem place_and {lo n v : Nat} {m : Word} (h : v < 2 ^ n)
    (hm : ∀ u : Fin (2 ^ n), place lo u &&& m = 0) : place lo v &&& m = 0 := hm ⟨v, h⟩

/-- A field of two combined words is the two fields combined. -/
theorem field_or (lo n : Nat) (x y : Word) : field lo n (x ||| y) = field lo n x ||| field lo n y := by
  apply BitVec.eq_of_getLsbD_eq
  intro i hi
  simp [field, BitVec.getLsbD_extractLsb']
  cases decide (i < n) <;> simp

end Sys2Proof
end

