-- ==== Sys2Proof/Laws/Gf.lean ====
section
/-! SUPPORT. GF(64) is a field under gfAdd and gfMul (45_ldpc.md R230, R231): the laws that the LDPC proofs
need. Multiplication is linear over the bits of its second operand, which carries the laws from the six
powers of α to all symbols. -/

namespace Sys2Proof.Machine

/-- Every symbol is one of 64 numbers: a fact about all symbols is a finite table. -/
theorem forall_sym {p : Sym → Prop} (h : ∀ n < 64, p (BitVec.ofNat 6 n)) (a : Sym) : p a := by
  have := h a.toNat a.isLt
  rwa [BitVec.ofNat_toNat, BitVec.setWidth_eq] at this

/-- A fact about all pairs of symbols, from its table. -/
theorem forall_sym_pair {f : Nat → Nat → Bool}
    (h : ((List.range 64).all fun a => (List.range 64).all (f a)) = true) (a b : Sym) :
    f a.toNat b.toNat = true := by
  simp only [List.all_eq_true, List.mem_range] at h
  exact h _ a.isLt _ b.isLt

/-- Multiplication on numbers in closed form: the product, with x^6 replaced by x + 1 all at once. -/
def fastMul (a b : Nat) : Nat :=
  let r := (b % 2 * a) ^^^ (b / 2 % 2 * (a * 2)) ^^^ (b / 4 % 2 * (a * 4)) ^^^ (b / 8 % 2 * (a * 8))
    ^^^ (b / 16 % 2 * (a * 16)) ^^^ (b / 32 % 2 * (a * 32))
  (r % 64) ^^^ (r / 64) ^^^ (2 * (r / 64))

theorem toNat_gfMul (a b : Sym) : (gfMul a b).toNat = fastMul a.toNat b.toNat := by
  have h : ∀ a b : Sym,
      ((reducePoly (carrylessProduct a.toNat b.toNat)) % 64 == fastMul a.toNat b.toNat) = true :=
    forall_sym_pair (f := fun a b => reducePoly (carrylessProduct a b) % 64 == fastMul a b)
      (by decide +kernel)
  simpa [gfMul] using h a b

theorem gfMul_comm (a b : Sym) : gfMul a b = gfMul b a := by
  have h := forall_sym_pair (f := fun a b => fastMul a b == fastMul b a) (by decide +kernel) a b
  apply BitVec.eq_of_toNat_eq
  simpa [toNat_gfMul] using h

@[simp] theorem gfMul_zero (a : Sym) : gfMul a 0 = 0 :=
  forall_sym (p := fun a => gfMul a 0 = 0) (by decide +kernel) a

@[simp] theorem gfMul_one (a : Sym) : gfMul a 1 = a :=
  forall_sym (p := fun a => gfMul a 1 = a) (by decide +kernel) a

@[simp] theorem zero_gfMul (a : Sym) : gfMul 0 a = 0 := by rw [gfMul_comm, gfMul_zero]

@[simp] theorem one_gfMul (a : Sym) : gfMul 1 a = a := by rw [gfMul_comm, gfMul_one]

/-- The product with the power α^i that bit i of b selects. -/
def gfPart (a b : Sym) (i : Nat) : Sym := if b.getLsbD i then gfMul a (1#6 <<< i) else 0

/-- The product on numbers, part by part. -/
def fastPart (a b i : Nat) : Nat := b / 2 ^ i % 2 * fastMul a (2 ^ i)

theorem toNat_gfPart (a b : Sym) {i : Nat} (h : i < 6) :
    (gfPart a b i).toNat = fastPart a.toNat b.toNat i := by
  have hp : (1#6 <<< i).toNat = 2 ^ i := by interval_cases i <;> rfl
  have hb : b.getLsbD i = decide (b.toNat / 2 ^ i % 2 = 1) := by
    rw [BitVec.getLsbD, Nat.testBit_eq_decide_div_mod_eq]
  unfold gfPart fastPart
  rw [hb]
  rcases Nat.mod_two_eq_zero_or_one (b.toNat / 2 ^ i) with hm | hm
  · simp [hm]
  · simp only [hm, decide_true, if_true, toNat_gfMul, hp, one_mul]

theorem gfMul_eq_parts (a b : Sym) :
    gfMul a b = gfPart a b 0 ^^^ gfPart a b 1 ^^^ gfPart a b 2 ^^^ gfPart a b 3 ^^^ gfPart a b 4
      ^^^ gfPart a b 5 := by
  have h := forall_sym_pair (f := fun a b => fastMul a b == (fastPart a b 0 ^^^ fastPart a b 1
    ^^^ fastPart a b 2 ^^^ fastPart a b 3 ^^^ fastPart a b 4 ^^^ fastPart a b 5)) (by decide +kernel) a b
  apply BitVec.eq_of_toNat_eq
  simp only [BitVec.toNat_xor, toNat_gfMul]
  rw [toNat_gfPart a b (by omega), toNat_gfPart a b (by omega), toNat_gfPart a b (by omega),
    toNat_gfPart a b (by omega), toNat_gfPart a b (by omega), toNat_gfPart a b (by omega)]
  simpa using h

theorem gfPart_xor (a b c : Sym) (i : Nat) : gfPart a (b ^^^ c) i = gfPart a b i ^^^ gfPart a c i := by
  unfold gfPart
  rw [BitVec.getLsbD_xor]
  cases b.getLsbD i <;> cases c.getLsbD i <;> simp

/-- Multiplication distributes over addition. -/
theorem gfMul_add (a b c : Sym) : gfMul a (gfAdd b c) = gfAdd (gfMul a b) (gfMul a c) := by
  unfold gfAdd
  rw [gfMul_eq_parts a (b ^^^ c), gfMul_eq_parts a b, gfMul_eq_parts a c]
  simp only [gfPart_xor]
  ac_rfl

theorem add_gfMul (a b c : Sym) : gfMul (gfAdd a b) c = gfAdd (gfMul a c) (gfMul b c) := by
  rw [gfMul_comm, gfMul_add, gfMul_comm c a, gfMul_comm c b]

theorem gfMul_alpha (a b : Sym) : gfMul (gfMul a b) 2 = gfMul a (gfMul b 2) := by
  have h := forall_sym_pair (f := fun a b => fastMul (fastMul a b) 2 == fastMul a (fastMul b 2))
    (by decide +kernel) a b
  apply BitVec.eq_of_toNat_eq
  simp only [toNat_gfMul]
  simpa using h

theorem gfMul_power (a b : Sym) : ∀ i < 6, gfMul (gfMul a b) (1#6 <<< i) = gfMul a (gfMul b (1#6 <<< i)) := by
  have step : ∀ i < 5, (1#6 <<< (i + 1)) = gfMul (1#6 <<< i) 2 := by decide
  intro i
  induction i with
  | zero =>
    intro _
    rw [show (1#6 <<< 0) = (1 : Sym) from rfl, gfMul_one, gfMul_one]
  | succ i ih =>
    intro h
    rw [step i (by omega), ← gfMul_alpha, ih (by omega), gfMul_alpha, gfMul_alpha]

/-- Multiplication is associative. -/
theorem gfMul_assoc (a b c : Sym) : gfMul (gfMul a b) c = gfMul a (gfMul b c) := by
  have part : ∀ i < 6, gfPart (gfMul a b) c i = gfMul a (gfPart b c i) := fun i hi => by
    unfold gfPart; split
    · exact gfMul_power a b i hi
    · exact (gfMul_zero a).symm
  rw [gfMul_eq_parts (gfMul a b) c, gfMul_eq_parts b c]
  have dist : ∀ x y : Sym, gfMul a (x ^^^ y) = gfMul a x ^^^ gfMul a y := fun x y => gfMul_add a x y
  simp only [dist]
  rw [part 0 (by omega), part 1 (by omega), part 2 (by omega), part 3 (by omega), part 4 (by omega),
    part 5 (by omega)]

/-- A non-zero symbol times its inverse is 1 (R231). -/
theorem gfMul_gfInv (a : Sym) (h : a ≠ 0) : gfMul a (gfInv a) = 1 :=
  forall_sym (p := fun a => a ≠ 0 → gfMul a (gfInv a) = 1) (by decide +kernel) a h

/-- Adding a scaled row, symbol by symbol. -/
theorem addScaled_eq {acc row : List Sym} (c : Sym) (h : acc.length = row.length) :
    addScaled acc c row = List.zipWith (fun x y => gfAdd x (gfMul c y)) acc row := by
  by_cases hc : c = 0
  · have h0 : ∀ x y : Sym, gfAdd x (gfMul 0 y) = x := fun x y => by
      rw [zero_gfMul]; exact BitVec.xor_zero
    rw [addScaled, if_pos hc]
    subst hc
    simp only [h0]
    induction acc generalizing row with
    | nil => simp
    | cons x acc ih =>
      cases row with
      | nil => simp at h
      | cons y row => rw [List.zipWith_cons_cons, ← ih (row := row) (by simpa using h)]
  · rw [addScaled, if_neg hc]

end Sys2Proof.Machine
end

