-- ==== Sys2Proof/Laws/PerInstr.lean ====
section
/-! SUPPORT. One lemma per command: the encoding of a well-formed command has the match value of its row of
R108 under the row's mask, so its opcode is its own and every reserved bit is 0. -/

namespace Sys2Proof.Laws

open Sys2Proof

/-- The command's row of R108: its match value and its mask, written out again beside the decoder's table. -/
def matchMask : Instr → Word × Word
  | .nop => (0x00, 0xffffffffffffffff)
  | .bufCat _ _ _ => (0x01, 0xfffffffffffe00ff)
  | .packU _ _ _ => (0x08, 0xfffffffff00ff8ff)
  | .packS _ _ _ => (0x09, 0xfffffffff00ff8ff)
  | .unpackU _ _ => (0x0a, 0xfffffffff01fc7ff)
  | .unpackS _ _ => (0x0b, 0xfffffffff01fc7ff)
  | .lfsrStep => (0x10, 0xffffffffffffffff)
  | .lfsrRun _ => (0x11, 0xfffffffffffff8ff)
  | .goldB1I _ => (0x18, 0xfffffffffffff8ff)
  | .goldB3I _ => (0x19, 0xfffffffffffff8ff)
  | .weil _ _ => (0x1a, 0xffffffffffdff8ff)
  | .bchGen _ _ => (0x20, 0xffffffffffffc0ff)
  | .bch21_6 _ _ => (0x21, 0xffffffffffffc0ff)
  | .bch51_8 _ _ => (0x22, 0xffffffffffffc0ff)
  | .bch15_11 _ _ => (0x23, 0xffffffffffffc0ff)
  | .bch15_11HW _ _ => (0x24, 0xffffffffffffc0ff)
  | .bchB1I _ _ => (0x25, 0xffffffffffffc0ff)
  | .bchB1IW1 _ _ => (0x26, 0xffffffffffffc0ff)
  | .ldpcDerive _ => (0x28, 0xffffffffffdfffff)
  | .ldpcEnc _ _ _ => (0x29, 0xffffffffffdfc0ff)
  | .intlvB1C _ _ _ => (0x30, 0xfffffffffffe00ff)
  | .intlvB1I _ _ _ => (0x31, 0xfffffffffffe00ff)
  | .sfB1I _ _ _ _ _ _ => (0x38, 0xffffffff800fc0ff)
  | .sfB1C1 _ => (0x39, 0xfffffffffffff8ff)
  | .sfB1C2 _ _ => (0x3a, 0xffffffffffffc0ff)
  | .sfB1C3 _ _ => (0x3b, 0xffffffffffffc0ff)
  | .frameB1C _ _ _ _ => (0x3c, 0xfffffffffff000ff)
  | .frameB1I _ _ => (0x3d, 0xffffffffffffc0ff)

/-- The encoding of a well-formed command meets `(CMD AND mask) = match` for its row (R108). -/
def EncodingInRow.Statement (i : Instr) : Prop :=
  i.wellFormed = true → encode i &&& (matchMask i).2 = (matchMask i).1

theorem EncodingInRow.nop : EncodingInRow.Statement (.nop) := fun _ =>
  show encode (.nop) &&& (0xffffffffffffffff : Word) = 0x00 from
    by decide

theorem EncodingInRow.bufCat (d : Buf) (a : Buf) (b : Buf) :
    EncodingInRow.Statement (.bufCat d a b) := fun _ =>
  show encode (.bufCat d a b) &&& (0xfffffffffffe00ff : Word) = 0x01 from
    (or_and_of (or_and_of (or_and_of (by decide) (by cases d <;> decide)) (by cases a <;> decide))
      (by cases b <;> decide))

theorem EncodingInRow.packU (d : Buf) (x : Bool) (w : Nat) :
    EncodingInRow.Statement (.packU d x w) := fun h =>
  have h : w < 2 ^ 7 := by simpa [Instr.wellFormed, fitsW] using h
  show encode (.packU d x w) &&& (0xfffffffff00ff8ff : Word) = 0x08 from
    (or_and_of (or_and_of (or_and_of (by decide) (by cases d <;> decide)) (by cases x <;> decide))
      (place_and (n := 7) h (by decide +kernel)))

theorem EncodingInRow.packS (d : Buf) (x : Bool) (w : Nat) :
    EncodingInRow.Statement (.packS d x w) := fun h =>
  have h : w < 2 ^ 7 := by simpa [Instr.wellFormed, fitsW] using h
  show encode (.packS d x w) &&& (0xfffffffff00ff8ff : Word) = 0x09 from
    (or_and_of (or_and_of (or_and_of (by decide) (by cases d <;> decide)) (by cases x <;> decide))
      (place_and (n := 7) h (by decide +kernel)))

theorem EncodingInRow.unpackU (a : Buf) (w : Nat) : EncodingInRow.Statement (.unpackU a w) := fun h =>
  have h : w < 2 ^ 7 := by simpa [Instr.wellFormed, fitsW] using h
  show encode (.unpackU a w) &&& (0xfffffffff01fc7ff : Word) = 0x0a from
    (or_and_of (or_and_of (by decide) (by cases a <;> decide)) (place_and (n := 7) h (by decide +kernel)))

theorem EncodingInRow.unpackS (a : Buf) (w : Nat) : EncodingInRow.Statement (.unpackS a w) := fun h =>
  have h : w < 2 ^ 7 := by simpa [Instr.wellFormed, fitsW] using h
  show encode (.unpackS a w) &&& (0xfffffffff01fc7ff : Word) = 0x0b from
    (or_and_of (or_and_of (by decide) (by cases a <;> decide)) (place_and (n := 7) h (by decide +kernel)))

theorem EncodingInRow.lfsrStep : EncodingInRow.Statement (.lfsrStep) := fun _ =>
  show encode (.lfsrStep) &&& (0xffffffffffffffff : Word) = 0x10 from
    by decide

theorem EncodingInRow.lfsrRun (d : Buf) : EncodingInRow.Statement (.lfsrRun d) := fun _ =>
  show encode (.lfsrRun d) &&& (0xfffffffffffff8ff : Word) = 0x11 from
    (or_and_of (by decide) (by cases d <;> decide))

theorem EncodingInRow.goldB1I (d : Buf) : EncodingInRow.Statement (.goldB1I d) := fun _ =>
  show encode (.goldB1I d) &&& (0xfffffffffffff8ff : Word) = 0x18 from
    (or_and_of (by decide) (by cases d <;> decide))

theorem EncodingInRow.goldB3I (d : Buf) : EncodingInRow.Statement (.goldB3I d) := fun _ =>
  show encode (.goldB3I d) &&& (0xfffffffffffff8ff : Word) = 0x19 from
    (or_and_of (by decide) (by cases d <;> decide))

theorem EncodingInRow.weil (d : Buf) (sel : WeilLen) : EncodingInRow.Statement (.weil d sel) := fun _ =>
  show encode (.weil d sel) &&& (0xffffffffffdff8ff : Word) = 0x1a from
    (or_and_of (or_and_of (by decide) (by cases d <;> decide)) (by cases sel <;> decide))

theorem EncodingInRow.bchGen (d : Buf) (a : Buf) : EncodingInRow.Statement (.bchGen d a) := fun _ =>
  show encode (.bchGen d a) &&& (0xffffffffffffc0ff : Word) = 0x20 from
    (or_and_of (or_and_of (by decide) (by cases d <;> decide)) (by cases a <;> decide))

theorem EncodingInRow.bch21_6 (d : Buf) (a : Buf) : EncodingInRow.Statement (.bch21_6 d a) := fun _ =>
  show encode (.bch21_6 d a) &&& (0xffffffffffffc0ff : Word) = 0x21 from
    (or_and_of (or_and_of (by decide) (by cases d <;> decide)) (by cases a <;> decide))

theorem EncodingInRow.bch51_8 (d : Buf) (a : Buf) : EncodingInRow.Statement (.bch51_8 d a) := fun _ =>
  show encode (.bch51_8 d a) &&& (0xffffffffffffc0ff : Word) = 0x22 from
    (or_and_of (or_and_of (by decide) (by cases d <;> decide)) (by cases a <;> decide))

theorem EncodingInRow.bch15_11 (d : Buf) (a : Buf) : EncodingInRow.Statement (.bch15_11 d a) := fun _ =>
  show encode (.bch15_11 d a) &&& (0xffffffffffffc0ff : Word) = 0x23 from
    (or_and_of (or_and_of (by decide) (by cases d <;> decide)) (by cases a <;> decide))

theorem EncodingInRow.bch15_11HW (d : Buf) (a : Buf) :
    EncodingInRow.Statement (.bch15_11HW d a) := fun _ =>
  show encode (.bch15_11HW d a) &&& (0xffffffffffffc0ff : Word) = 0x24 from
    (or_and_of (or_and_of (by decide) (by cases d <;> decide)) (by cases a <;> decide))

theorem EncodingInRow.bchB1I (d : Buf) (a : Buf) : EncodingInRow.Statement (.bchB1I d a) := fun _ =>
  show encode (.bchB1I d a) &&& (0xffffffffffffc0ff : Word) = 0x25 from
    (or_and_of (or_and_of (by decide) (by cases d <;> decide)) (by cases a <;> decide))

theorem EncodingInRow.bchB1IW1 (d : Buf) (a : Buf) : EncodingInRow.Statement (.bchB1IW1 d a) := fun _ =>
  show encode (.bchB1IW1 d a) &&& (0xffffffffffffc0ff : Word) = 0x26 from
    (or_and_of (or_and_of (by decide) (by cases d <;> decide)) (by cases a <;> decide))

theorem EncodingInRow.ldpcDerive (sl : Slot) : EncodingInRow.Statement (.ldpcDerive sl) := fun _ =>
  show encode (.ldpcDerive sl) &&& (0xffffffffffdfffff : Word) = 0x28 from
    (or_and_of (by decide) (by cases sl <;> decide))

theorem EncodingInRow.ldpcEnc (d : Buf) (a : Buf) (sl : Slot) :
    EncodingInRow.Statement (.ldpcEnc d a sl) := fun _ =>
  show encode (.ldpcEnc d a sl) &&& (0xffffffffffdfc0ff : Word) = 0x29 from
    (or_and_of (or_and_of (or_and_of (by decide) (by cases d <;> decide)) (by cases a <;> decide))
      (by cases sl <;> decide))

theorem EncodingInRow.intlvB1C (d : Buf) (a : Buf) (b : Buf) :
    EncodingInRow.Statement (.intlvB1C d a b) := fun _ =>
  show encode (.intlvB1C d a b) &&& (0xfffffffffffe00ff : Word) = 0x30 from
    (or_and_of (or_and_of (or_and_of (by decide) (by cases d <;> decide)) (by cases a <;> decide))
      (by cases b <;> decide))

theorem EncodingInRow.intlvB1I (d : Buf) (a : Buf) (b : Buf) :
    EncodingInRow.Statement (.intlvB1I d a b) := fun _ =>
  show encode (.intlvB1I d a b) &&& (0xfffffffffffe00ff : Word) = 0x31 from
    (or_and_of (or_and_of (or_and_of (by decide) (by cases d <;> decide)) (by cases a <;> decide))
      (by cases b <;> decide))

theorem EncodingInRow.sfB1I (d : Buf) (a : Buf) (x : Bool) (sf : Nat) (pg : Nat) (z : Bool) :
    EncodingInRow.Statement (.sfB1I d a x sf pg z) := fun h =>
  have h : sf < 2 ^ 3 ∧ pg < 2 ^ 6 := by simpa [Instr.wellFormed, fitsSF, fitsPG] using h
  show encode (.sfB1I d a x sf pg z) &&& (0xffffffff800fc0ff : Word) = 0x38 from
    (or_and_of (or_and_of (or_and_of (or_and_of (or_and_of (or_and_of (by decide)
      (by cases d <;> decide)) (by cases a <;> decide)) (by cases x <;> decide))
      (place_and (n := 3) (h.1) (by decide +kernel))) (place_and (n := 6) (h.2) (by decide +kernel)))
      (by cases z <;> decide))

theorem EncodingInRow.sfB1C1 (d : Buf) : EncodingInRow.Statement (.sfB1C1 d) := fun _ =>
  show encode (.sfB1C1 d) &&& (0xfffffffffffff8ff : Word) = 0x39 from
    (or_and_of (by decide) (by cases d <;> decide))

theorem EncodingInRow.sfB1C2 (d : Buf) (a : Buf) : EncodingInRow.Statement (.sfB1C2 d a) := fun _ =>
  show encode (.sfB1C2 d a) &&& (0xffffffffffffc0ff : Word) = 0x3a from
    (or_and_of (or_and_of (by decide) (by cases d <;> decide)) (by cases a <;> decide))

theorem EncodingInRow.sfB1C3 (d : Buf) (a : Buf) : EncodingInRow.Statement (.sfB1C3 d a) := fun _ =>
  show encode (.sfB1C3 d a) &&& (0xffffffffffffc0ff : Word) = 0x3b from
    (or_and_of (or_and_of (by decide) (by cases d <;> decide)) (by cases a <;> decide))

theorem EncodingInRow.frameB1C (d : Buf) (a : Buf) (b : Buf) (c : Buf) :
    EncodingInRow.Statement (.frameB1C d a b c) := fun _ =>
  show encode (.frameB1C d a b c) &&& (0xfffffffffff000ff : Word) = 0x3c from
    (or_and_of (or_and_of (or_and_of (or_and_of (by decide) (by cases d <;> decide))
      (by cases a <;> decide)) (by cases b <;> decide)) (by cases c <;> decide))

theorem EncodingInRow.frameB1I (d : Buf) (a : Buf) : EncodingInRow.Statement (.frameB1I d a) := fun _ =>
  show encode (.frameB1I d a) &&& (0xffffffffffffc0ff : Word) = 0x3d from
    (or_and_of (or_and_of (by decide) (by cases d <;> decide)) (by cases a <;> decide))

end Sys2Proof.Laws
end

