-- ==== Sys2Proof/Laws/Quantise.lean ====
section
/-! SUPPORT. QUANTISE (41_bitfield.md R140): the reference value exists and is unique exactly for the inputs that the
host need not refuse, and the function on rational inputs computes it. -/

namespace Sys2Proof.Machine

/-- Two integers to which one number rounds are equal. -/
theorem RoundsHalfEven.unique {q : ℝ} {m n : Int} (hm : RoundsHalfEven q m) (hn : RoundsHalfEven q n) :
    m = n := by
  wlog h : m ≤ n generalizing m n
  · exact (this hn hm (by omega)).symm
  obtain ⟨hm1, hm2⟩ := hm
  obtain ⟨hn1, hn2⟩ := hn
  have a := abs_le.mp hm1
  have b := abs_le.mp hn1
  have hle : (n : ℝ) ≤ m + 1 := by linarith
  have hle : n ≤ m + 1 := by exact_mod_cast hle
  rcases (by omega : m = n ∨ n = m + 1) with h | rfl
  · exact h
  · push_cast at a b hn2
    have hq : q = m + 1 / 2 := by linarith
    have em := hm2 (by rw [hq]; norm_num)
    have en := hn2 (by rw [hq, abs_of_nonpos] <;> linarith)
    rw [Int.even_add_one] at en
    exact absurd em en

/-- A number between l and l + 1/2 rounds to l. -/
theorem roundsHalfEven_low {q : ℝ} {l : Int} (h : (l : ℝ) ≤ q) (h' : q - l < 1 / 2) : RoundsHalfEven q l := by
  have e : |q - l| = q - l := abs_of_nonneg (by linarith)
  exact ⟨by linarith, fun hh => by linarith⟩

/-- A number between l + 1/2 and l + 1 rounds to l + 1. -/
theorem roundsHalfEven_high {q : ℝ} {l : Int} (h : q < l + 1) (h' : 1 / 2 < q - l) :
    RoundsHalfEven q (l + 1) := by
  have e : |q - ((l + 1 : Int) : ℝ)| = l + 1 - q := by push_cast; rw [abs_of_nonpos] <;> linarith
  exact ⟨by linarith, fun hh => by linarith⟩

/-- A number halfway between l and l + 1 rounds to the even one. -/
theorem roundsHalfEven_half {q : ℝ} {l : Int} (h : q - l = 1 / 2) :
    RoundsHalfEven q (if l % 2 = 0 then l else l + 1) := by
  split
  · next he => exact ⟨by rw [h]; norm_num, fun _ => Int.even_iff.mpr he⟩
  · next ho =>
    have e : |q - ((l + 1 : Int) : ℝ)| = 1 / 2 := by push_cast; rw [abs_of_nonpos] <;> linarith
    exact ⟨e.le, fun _ => Int.even_iff.mpr (by omega)⟩

/-- Every real number rounds to an integer. -/
theorem exists_roundsHalfEven (q : ℝ) : ∃ raw, RoundsHalfEven q raw := by
  have hl := Int.floor_le q
  have hh := Int.lt_floor_add_one q
  rcases lt_trichotomy (q - ⌊q⌋) (1 / 2) with h | h | h
  · exact ⟨_, roundsHalfEven_low hl h⟩
  · exact ⟨_, roundsHalfEven_half h⟩
  · exact ⟨_, roundsHalfEven_high hh h⟩

/-- Exactly the inputs that the host need not refuse have a reference value, and it is one (R140). -/
theorem existsUnique_isReferenceRaw (value scale : HostNumber) :
    (∃! raw, IsReferenceRaw value scale raw) ↔ HasRaw value scale := by
  cases value <;> cases scale <;> simp only [IsReferenceRaw, HasRaw]
  case real.real v s =>
    refine ⟨fun ⟨_, h, _⟩ => h.1, fun hs => ?_⟩
    obtain ⟨raw, h⟩ := exists_roundsHalfEven (v / s)
    exact ⟨raw, ⟨hs, h⟩, fun _ h' => h'.2.unique h⟩
  all_goals exact ⟨fun ⟨_, h, _⟩ => h, False.elim⟩

/-- On rational inputs the reference value is computed by `quantiseReference` (R140). -/
theorem quantiseReference_eq_some (value scale : Rat) (raw : Int) :
    quantiseReference value scale = some raw ↔ IsReferenceRaw (.real value) (.real scale) raw := by
  unfold quantiseReference
  by_cases hs : scale = 0
  · simp [hs, IsReferenceRaw]
  have hs' : (scale : ℝ) ≠ 0 := by exact_mod_cast hs
  have hl : (((value / scale).floor : Int) : Rat) ≤ value / scale := Rat.floor_le _
  have hh : value / scale < ((value / scale).floor : Int) + 1 := by
    have := Rat.lt_floor (x := value / scale); linarith
  simp only [hs, if_false, IsReferenceRaw, hs', ne_eq, not_false_eq_true, true_and]
  rw [← Rat.cast_div]
  generalize value / scale = q at *
  generalize q.floor = l at *
  have hl' : (l : ℝ) ≤ (q : ℝ) := by exact_mod_cast hl
  have hh' : (q : ℝ) < l + 1 := by exact_mod_cast hh
  have key : ∀ {r : Int}, RoundsHalfEven (q : ℝ) r → (some r = some raw ↔ RoundsHalfEven (q : ℝ) raw) :=
    fun h => by
      rw [Option.some_inj]
      exact ⟨fun e => e ▸ h, fun h' => h.unique h'⟩
  have cast : ((q - l : Rat) : ℝ) = q - l := by push_cast; rfl
  have half : ((1 / 2 : Rat) : ℝ) = 1 / 2 := by norm_num
  split
  · next h => exact key (roundsHalfEven_low hl' (by rw [← cast, ← half]; exact_mod_cast h))
  · split
    · next h => exact key (roundsHalfEven_high hh' (by rw [← cast, ← half]; exact_mod_cast h))
    · next h1 h2 =>
      have e : q - l = 1 / 2 := le_antisymm (not_lt.mp h2) (not_lt.mp h1)
      have e' : (q : ℝ) - l = 1 / 2 := by rw [← cast, e, half]
      have := key (roundsHalfEven_half e')
      split <;> simp_all

end Sys2Proof.Machine
end

