-- ==== Sys2Proof/Laws/Wrote.lean ====
section
/-! SUPPORT. What a successful command that writes one buffer leaves, and the failure records, in the terms of
Sys2Proof/Safety.lean. -/

namespace Sys2Proof.Machine

theorem raiseFatal_eq (c : FatalCode) (w : Word) (s : State) : raiseFatal c w s = fatalRecord c w s := rfl

theorem raiseTyped_eq (c : TypedCode) (s : State) : raiseTyped c s = typedRecord c s := rfl

/-- A buffer written by SetBuf, with the success status after it (10_state.md R41, 60_exceptions.md R311). -/
theorem wroteBuffer_setBuf (s : State) (d : Buf) {x : Bits} (h : x.length ≤ Config.cap) :
    WroteBuffer d x s (complete (setBuf s d x)) where
  registers := ⟨_, _, rfl⟩
  length := bufLen_setBuf_same s d h
  string := readBuf_setBuf_same s d h
  beyond := fun _ h1 h2 => storageBit_setBuf_past s d x h1 h2
  otherLengths := fun _ hb => getLen_setLen_other hb _
  otherBytes := fun _ ha => readByte_setBuf_out s d x ha

/-- A command whose verdict writes one buffer completes and leaves exactly that write. -/
theorem conclude_setBuf {i : Instr} {s : State} {v : Verdict} {d : Buf} {x : Bits}
    (hv : v = .done (setBuf s d x)) (h : x.length ≤ Config.cap) :
    ∃ t, conclude i s v = .next t ∧ WroteBuffer d x s t :=
  ⟨_, by rw [hv]; rfl, wroteBuffer_setBuf s d h⟩

end Sys2Proof.Machine
end

