-- ==== Sys2Proof/Tests/Slice0.lean ====
section
/-! SUPPORT. Tests on fixed values: the smoke test of WellFormed, the decoding of a written-out word for every
command, one-step tests with the expected values of 95_test_vectors.md, and a witness for the hypotheses of every
obligation that has some. -/

namespace Sys2Proof.Tests

set_option Elab.async false

open Sys2Proof Sys2Proof.Machine Sys2Proof.Spec

/-! ### Helpers -/

/-- The reset state with a string in a buffer. -/
def holding (b : Buf) (x : Bits) : State := setBuf State.reset b x

/-- A state with LEN of a buffer changed. -/
def withLen (s : State) (b : Buf) (n : Nat) : State :=
  { s with lens := setLen s.lens b (BitVec.ofNat 15 n) }

/-- The reset state with the host's accesses queued. -/
def queue (l : List HostAccess) : State := { State.reset with pending := l }

/-- The state after a fatal failure of the command word 0x100. -/
def failed (l : List HostAccess) : State := fatalRecord .badCmd 0x100 (queue l)

/-- What `f` gives in the next state; none when there is no next state. -/
def after {α : Type} (o : Host.Outcome State Fault Refusal) (f : State → α) : Option α :=
  match o with
  | .next t => some (f t)
  | _ => none

/-- The status word and ERRCMD after an outcome. -/
def record (o : Host.Outcome State Fault Refusal) : Option (Word × Word) :=
  after o fun t => (statusWord t, t.errcmd)

/-- The rows of the identity matrix of 44 symbols. -/
def identityRows : List (List Sym) :=
  (List.range 44).map fun i => (List.range 44).map fun j => if i = j then 1 else 0

/-- H1 and H2 of slot 1 the identity (95 program 4). -/
def identityH : State := setMatrix (setMatrix State.reset .h1 .s1 identityRows) .h2 .s1 identityRows

/-- The cells of `identityH`, then Q of slot 1 the identity. -/
def identityMem : Memory := (setMatrix identityH .q .s1 identityRows).mem

/-- Slot 1 derived from identity matrices (95 program 4, step 2). -/
def identitySlot : State := { identityH with mem := identityMem, ldpcValid := 0b10 }

/-! ### WellFormed refuses each ill-formed term -/

theorem test_illFormed_packU_w : (Instr.packU .b0 false 128).wellFormed = false := by decide
theorem test_illFormed_packS_w : (Instr.packS .b0 false 128).wellFormed = false := by decide
theorem test_illFormed_unpackU_w : (Instr.unpackU .b0 128).wellFormed = false := by decide
theorem test_illFormed_unpackS_w : (Instr.unpackS .b0 128).wellFormed = false := by decide
theorem test_illFormed_sfB1I_sf : (Instr.sfB1I .b0 .b0 false 8 0 false).wellFormed = false := by decide
theorem test_illFormed_sfB1I_pg : (Instr.sfB1I .b0 .b0 false 1 64 false).wellFormed = false := by decide

/-! ### Decoding of words written out from R101, R102, R107 and R108, field by field down to the opcode -/

theorem test_decode_nop : decode 0b00000000 = .instr .nop := by decide
theorem test_decode_bufCat : decode 0b100_011_101_00000001 = .instr (.bufCat .b5 .b3 .b4) := by decide
theorem test_decode_packU :
    decode 0b1111111_1_000000000_110_00001000 = .instr (.packU .b6 true 127) := by decide
theorem test_decode_packS :
    decode 0b1000000_0_000000000_001_00001001 = .instr (.packS .b1 false 64) := by decide
theorem test_decode_unpackU :
    decode 0b0100001_0_000000_101_000_00001010 = .instr (.unpackU .b5 33) := by decide
theorem test_decode_unpackS :
    decode 0b0000001_0_000000_010_000_00001011 = .instr (.unpackS .b2 1) := by decide
theorem test_decode_lfsrStep : decode 0b00010000 = .instr .lfsrStep := by decide
theorem test_decode_lfsrRun : decode 0b011_00010001 = .instr (.lfsrRun .b3) := by decide
theorem test_decode_goldB1I : decode 0b100_00011000 = .instr (.goldB1I .b4) := by decide
theorem test_decode_goldB3I : decode 0b111_00011001 = .instr (.goldB3I .b7) := by decide
theorem test_decode_weil_main : decode 0b0_0_000000000_010_00011010 = .instr (.weil .b2 .main) := by decide
theorem test_decode_weil_sub : decode 0b1_0_000000000_100_00011010 = .instr (.weil .b4 .sub) := by decide
theorem test_decode_bchGen : decode 0b110_001_00100000 = .instr (.bchGen .b1 .b6) := by decide
theorem test_decode_bch21_6 : decode 0b101_010_00100001 = .instr (.bch21_6 .b2 .b5) := by decide
theorem test_decode_bch51_8 : decode 0b100_011_00100010 = .instr (.bch51_8 .b3 .b4) := by decide
theorem test_decode_bch15_11 : decode 0b000_010_00100011 = .instr (.bch15_11 .b2 .b0) := by decide
theorem test_decode_bch15_11HW : decode 0b011_100_00100100 = .instr (.bch15_11HW .b4 .b3) := by decide
theorem test_decode_bchB1I : decode 0b000_001_00100101 = .instr (.bchB1I .b1 .b0) := by decide
theorem test_decode_bchB1IW1 : decode 0b111_110_00100110 = .instr (.bchB1IW1 .b6 .b7) := by decide
theorem test_decode_ldpcDerive :
    decode 0b1_0_000000000_000_00101000 = .instr (.ldpcDerive .s1) := by decide
theorem test_decode_ldpcEnc :
    decode 0b1_0_000000_010_001_00101001 = .instr (.ldpcEnc .b1 .b2 .s1) := by decide
theorem test_decode_intlvB1C : decode 0b011_010_001_00110000 = .instr (.intlvB1C .b1 .b2 .b3) := by decide
theorem test_decode_intlvB1I : decode 0b110_101_100_00110001 = .instr (.intlvB1I .b4 .b5 .b6) := by decide
theorem test_decode_sfB1I :
    decode 0b1_001100_101_1_000_000_010_111_00111000
      = .instr (.sfB1I .b7 .b2 true 5 12 true) := by decide
theorem test_decode_sfB1C1 : decode 0b101_00111001 = .instr (.sfB1C1 .b5) := by decide
theorem test_decode_sfB1C2 : decode 0b011_001_00111010 = .instr (.sfB1C2 .b1 .b3) := by decide
theorem test_decode_sfB1C3 : decode 0b100_010_00111011 = .instr (.sfB1C3 .b2 .b4) := by decide
theorem test_decode_frameB1C :
    decode 0b010_001_000_111_00111100 = .instr (.frameB1C .b7 .b0 .b1 .b2) := by decide
theorem test_decode_frameB1I : decode 0b001_010_00111101 = .instr (.frameB1I .b2 .b1) := by decide

/-- 95 section 2.1: a stray bit of NOP, a reserved opcode, and one with other bits set. -/
theorem test_decode_badCmd : decode 0x100 = .badCmd := by decide
theorem test_decode_reserved : decode 0x02 = .unsupported := by decide
theorem test_decode_reserved_high_bits : decode 0xFFFFFF02 = .unsupported := by decide

/-! ### One step, expected values of 95_test_vectors.md part 2 -/

/-- Section 2.1: NOP after a typed failure sets CODE to OK. -/
theorem test_nop : record (exec .nop (typedRecord .unsupported State.reset)) = some (0, 0) := by decide

/-- Section 2.1: aliased cat. -/
theorem test_bufCat_aliased :
    after (exec (.bufCat .b0 .b0 .b1) (setBuf (holding .b0 (bitsOf 3 0b101)) .b1 (bitsOf 2 0b01)))
      (fun t => readBuf t .b0) = some (bitsOf 5 0b10101) := by decide +kernel

/-- Section 2.2: low 4 bits of 37. -/
theorem test_packU_truncates :
    after (exec (.packU .b0 false 4) { State.reset with arg0 := 37 }) (fun t => readBuf t .b0)
      = some (bitsOf 4 0b0101) := by decide +kernel

/-- Section 2.2: append off a byte boundary. -/
theorem test_packU_appends :
    after (exec (.packU .b0 true 2) { holding .b0 (bitsOf 3 0b101) with arg0 := 1 })
      (fun t => readBuf t .b0) = some (bitsOf 5 0b10101) := by decide +kernel

/-- Section 2.2: -3 in 5 bits. -/
theorem test_packS :
    after (exec (.packS .b0 false 5) { State.reset with arg0 := 0xFFFFFFFFFFFFFFFD })
      (fun t => readBuf t .b0) = some (bitsOf 5 0b11101) := by decide +kernel

/-- Section 2.2: unpack unsigned. -/
theorem test_unpackU :
    after (exec (.unpackU .b0 4) (holding .b0 (bitsOf 4 0b0101))) State.result = some 5 := by
  decide +kernel

/-- Section 2.2: no wrap of a huge offset. -/
theorem test_unpackU_huge_offset :
    record (exec (.unpackU .b0 1) { holding .b0 (bitsOf 4 5) with arg0 := 0xFFFFFFFFFFFFFFFF })
      = some (0x111, 0x20000A) := by decide +kernel

/-- Section 2.2: unpack the signed minimum. -/
theorem test_unpackS :
    after (exec (.unpackS .b0 4) (holding .b0 (bitsOf 4 0b1000))) State.result
      = some 0xFFFFFFFFFFFFFFF8 := by decide +kernel

/-- Section 2.3: a register of 64 bits. -/
theorem test_lfsrStep_64 :
    after (exec .lfsrStep
      { State.reset with lfsrWidth := 64, lfsrPoly := 0x8000000000000001, lfsrState := 0x8000000000000000 })
      (fun t => (t.result, t.lfsrState)) = some (1, 1) := by decide +kernel

/-- Section 2.3: a full period. -/
theorem test_lfsrRun_period :
    after (exec (.lfsrRun .b0)
      { State.reset with lfsrWidth := 4, lfsrPoly := 0b1001, lfsrState := 1, arg0 := 15 })
      (fun t => (readBuf t .b0, t.lfsrState)) = some (bitsOf 15 0b000111101011001, 1) := by decide +kernel

/-- Section 2.4: B1I with taps 1 and 3. -/
theorem test_goldB1I :
    after (exec (.goldB1I .b3) { State.reset with arg0 := 5, arg1 := 24 }) (fun t => readBuf t .b3)
      = some (bitsOf 24 0b011001011011011011001101) := by decide +kernel

/-- Section 2.4: B3I, bits of ARG0 above 12 ignored. -/
theorem test_goldB3I :
    after (exec (.goldB3I .b3) { State.reset with arg0 := 0x2001, arg1 := 24 }) (fun t => readBuf t .b3)
      = some (bitsOf 24 0b111111111111010110000110) := by decide +kernel

/-- Section 2.4: the first bits of the main code with w = 2678, p = 699. -/
theorem test_weil_main :
    after (exec (.weil .b3 .main) { State.reset with arg0 := 2678, arg1 := 699, arg2 := 8 })
      (fun t => readBuf t .b3) = some (bitsOf 8 0b10101111) := by decide +kernel

/-- Section 2.4: p = 0 starts at index N - 1. -/
theorem test_weil_sub_start :
    after (exec (.weil .b3 .sub) { State.reset with arg0 := 5, arg1 := 0, arg2 := 3 })
      (fun t => readBuf t .b3) = some (bitsOf 3 0b101) := by decide +kernel

/-- Section 2.5: BCH.GEN with n = 7, k = 3. -/
theorem test_bchGen :
    after (exec (.bchGen .b1 .b0) { holding .b0 (bitsOf 3 0b100) with arg0 := 7, arg1 := 3, arg2 := 0b011 })
      (fun t => readBuf t .b1) = some (bitsOf 7 0b1000000) := by decide +kernel

theorem test_bch21_6 :
    after (exec (.bch21_6 .b1 .b0) (holding .b0 (bitsOf 6 0b101010))) (fun t => readBuf t .b1)
      = some (bitsOf 21 0b101010111010000111101) := by decide +kernel

theorem test_bch51_8 :
    after (exec (.bch51_8 .b1 .b0) (holding .b0 (bitsOf 8 0b10100101))) (fun t => readBuf t .b1)
      = some (bitsOf 51 0b101001011111000110000000111100111010100100000101101) := by decide +kernel

theorem test_bch15_11 :
    after (exec (.bch15_11 .b1 .b0) (holding .b0 (bitsOf 11 0b10000000000))) (fun t => readBuf t .b1)
      = some (bitsOf 15 0b100000000001001) := by decide +kernel

theorem test_bch15_11HW :
    after (exec (.bch15_11HW .b1 .b0) (holding .b0 (bitsOf 11 0b10101010101))) (fun t => readBuf t .b1)
      = some (bitsOf 15 0b101010101011011) := by decide +kernel

theorem test_bchB1I :
    after (exec (.bchB1I .b1 .b0) (holding .b0 (bitsOf 22 0b1010101010111111111110)))
      (fun t => readBuf t .b1) = some (bitsOf 30 0b110111011101110111011011011010) := by decide +kernel

theorem test_bchB1IW1 :
    after (exec (.bchB1IW1 .b1 .b0) (holding .b0 (bitsOf 26 0b11100010010000000000000001)))
      (fun t => readBuf t .b1) = some (bitsOf 30 0b111000100100000000000000010011) := by decide +kernel

/-- Section 2.6. -/
theorem test_gfMul : gfMul 2 32 = 3 ∧ gfMul 32 32 = 48 ∧ gfMul 7 (gfInv 7) = 1 := by decide +kernel
theorem test_gfInv : gfInv 2 = 33 ∧ gfInv 3 = 62 := by decide +kernel

/-- Section 2.7: the reset state is singular. -/
theorem test_ldpcDerive_reset : record (exec (.ldpcDerive .s0) State.reset) = some (0x115, 0x28) := by
  decide +kernel

/-- Section 2.7: identity matrices give the identity Q. -/
theorem test_derivedQ_identity : derivedQ identitySlot .s1 = some (matrixRows identitySlot .q .s1) := by
  decide +kernel

/-- Section 2.7: with identity matrices the codeword is the message twice. -/
theorem test_ldpcEnc_identity :
    after (exec (.ldpcEnc .b1 .b0 .s1)
      (setBuf identitySlot .b0
        (bitsOf 264 0x0441ca3504d665c7e2968aeec74dfaf400c624c3d25586de8649eab70cf6e7cfc2)))
      (fun t => readBuf t .b1)
      = some (bitsOf 528 0x0441ca3504d665c7e2968aeec74dfaf400c624c3d25586de8649eab70cf6e7cfc20441ca3504d665c7e2968aeec74dfaf400c624c3d25586de8649eab70cf6e7cfc2) := by
  decide +kernel

/-- Section 2.7: the length is checked before NOT_DERIVED. -/
theorem test_ldpcEnc_length_first :
    record (exec (.ldpcEnc .b1 .b0 .s1) (withLen State.reset .b0 263)) = some (0x111, 0x200129) := by
  decide +kernel

/-- Section 2.8. -/
theorem test_intlvB1I :
    after (exec (.intlvB1I .b2 .b0 .b1)
      (setBuf (holding .b0 (bitsOf 15 0b110101011100000)) .b1 (bitsOf 15 0b000000000011111)))
      (fun t => readBuf t .b2) = some (bitsOf 30 0b101000100010001010100101010101) := by decide +kernel

/-- Section 2.8: the first column of ones and zeros. -/
theorem test_intlvB1C :
    after (exec (.intlvB1C .b2 .b0 .b1)
      (withLen (holding .b0 (List.replicate 1200 true)) .b1 528))
      (fun t => ((readBuf t .b2).take 36, bufLen t .b2))
      = some (bitsOf 36 0b110110110110110110110110110110110111, 1728) := by decide +kernel

/-- Section 2.9: the raw pattern, encoded. -/
theorem test_sfB1I :
    after (exec (.sfB1I .b1 .b0 false 1 0 false)
      (holding .b0 (bitsOf 224 0x81020408102040810204081020408102040810204081020408102040)))
      (fun t => readBuf t .b1)
      = some (bitsOf 300 0x8102041420408c62040805e04081590408118c4081089408100b808102b3081023188102017) := by
  decide +kernel

/-- Section 2.9 and program 3: the page is checked before the length. -/
theorem test_sfB1I_page_off :
    record (exec (.sfB1I .b7 .b0 false 4 12 false) { State.reset with pageImpl4 := 0xFFFFFFFFFFFFEFFF })
      = some (0x002, 0) := by decide +kernel

theorem test_sfB1C1 :
    after (exec (.sfB1C1 .b0) { State.reset with arg0 := 30, arg1 := 200 }) (fun t => readBuf t .b0)
      = some (bitsOf 72 0x7b574646f067a1a26c) := by decide +kernel

theorem test_sfB1C1_value :
    record (exec (.sfB1C1 .b0) { State.reset with arg0 := 63, arg1 := 256 }) = some (0x113, 0x39) := by
  decide +kernel

/-- R285: the length is checked, then the slot. -/
theorem test_sfB1C2_length : record (exec (.sfB1C2 .b1 .b3) State.reset) = some (0x111, 0x193A) := by
  decide +kernel
theorem test_sfB1C2_slot :
    record (exec (.sfB1C2 .b1 .b3) (withLen State.reset .b3 576)) = some (0x116, 0x193A) := by
  decide +kernel

/-- R286: the length is checked, then the slot. -/
theorem test_sfB1C3_length : record (exec (.sfB1C3 .b2 .b4) State.reset) = some (0x111, 0x223B) := by
  decide +kernel
theorem test_sfB1C3_slot :
    record (exec (.sfB1C3 .b2 .b4) (withLen State.reset .b4 240)) = some (0x116, 0x223B) := by
  decide +kernel

/-- Section 2.9: subframe 1 first, then the first column. -/
theorem test_frameB1C :
    after (exec (.frameB1C .b7 .b0 .b1 .b2)
      (withLen (withLen (holding .b1 (List.replicate 1200 true)) .b0 72) .b2 528))
      (fun t => ((readBuf t .b7).take 108, bufLen t .b7))
      = some (bitsOf 108 0b110110110110110110110110110110110111, 1800) := by decide +kernel

/-- Section 2.9: a body of 1500 bits gives 1504. -/
theorem test_frameB1I :
    after (exec (.frameB1I .b2 .b1) (withLen State.reset .b1 1500))
      (fun t => (num (readBuf t .b2), bufLen t .b2)) = some (0, 1504) := by decide +kernel

theorem test_frameB1I_length :
    record (exec (.frameB1I .b2 .b1) (withLen State.reset .b1 1504)) = some (0x111, 0xA3D) := by
  decide +kernel

/-! ### The host's side and its window -/

/-- Section 2.9: renderings. -/
theorem test_renderHex : renderHex (bitsOf 3 0b101) = ['a'] := by decide +kernel
theorem test_renderOctal : renderOctal (bitsOf 4 0b1011) = ['5', '4'] := by decide +kernel
theorem test_renderBytes : renderBytes (bitsOf 15 0b000111101011001) = [0x1E, 0xB2] := by decide +kernel

/-- R140: halves go to the even integer, and scale 0 is refused. -/
theorem test_quantise_halves :
    quantiseReference 5 2 = some 2 ∧ quantiseReference 7 2 = some 4 ∧ quantiseReference (-5) 2 = some (-2)
      ∧ quantiseReference 1 0 = none := by decide +kernel

/-- R140 with the irrational scale of M0 (R141): three units have the raw 3. -/
theorem test_quantise_irrational_scale :
    IsReferenceRaw (.real (3 * (Real.pi / 2 ^ 31))) (.real (Real.pi / 2 ^ 31)) 3 := by
  have h : Real.pi / 2 ^ 31 ≠ 0 := div_ne_zero Real.pi_ne_zero (by norm_num)
  refine ⟨h, ?_⟩
  rw [mul_div_assoc, div_self h]
  norm_num [RoundsHalfEven]

/-- R114 and log entry 18: one bit is one byte with zeros after it, then LEN. -/
theorem test_bufLoad : bufLoad .b0 [true] = [.write 0x1000 .w1 0x80, .write 0x080 .w8 1] := by decide +kernel

/-- Program 1, step 6: the 8-byte read of BUF0. -/
theorem test_read_word :
    after (step { holding .b0 (bitsOf 15 0b000111101011001) with pending := [.read 0x1000 .w8] })
      State.response = some (.data 0x1EB2000000000000) := by decide +kernel

/-- Program 4, step 5: a write of the value held still clears LDPC_VALID. -/
theorem test_element_write_clears :
    after (step { identitySlot with pending := [.write 0x1C000 .w1 1] }) State.ldpcValid = some 0 := by
  decide +kernel

/-- Program 2, step 7: NOP while FATAL = 1. -/
theorem test_fatal_gate :
    after (step (failed [hostCommand .nop])) (fun t => (statusWord t, t.errcmd)) = some (0x110, 0x100) := by
  decide +kernel

/-- Program 2, step 8: the soft reset. -/
theorem test_soft_reset :
    after (step (failed [.write 0x010 .w8 1])) (fun t => (statusWord t, t.errcmd)) = some (0, 0) := by
  decide +kernel

/-- A command word queued for the next step runs (log entry 1). -/
theorem test_withFetchWord :
    after (step (State.reset.withFetchWord 64 0x0000000040B00738)) (fun t => bufLen t .b7)
      = some 300 := by decide +kernel

/-! ### Witnesses: for each obligation with hypotheses, states and operands that meet them, clause by clause -/

/-- An outcome of which `f` gives something is a next state. -/
theorem next_of_after {α : Type} {o : Host.Outcome State Fault Refusal} {f : State → α} {a : α}
    (h : after o f = some a) : ∃ t, o = .next t ∧ f t = a := by
  cases o with
  | next t => exact ⟨t, rfl, by simpa [after] using h⟩
  | fault _ => simp [after] at h
  | refused _ => simp [after] at h

/-- Every command gives a next state. -/
theorem exec_next (i : Instr) (s : State) : ∃ t, exec i s = .next t := by
  obtain ⟨v, h⟩ := exec_eq_conclude i s
  exact ⟨_, h⟩

/-- A string of one bit in BUF0, and accesses queued. -/
def sample (l : List HostAccess) : State :=
  { queue l with mem := [(0x1000, 0x80)], lens := { Lens.reset with len0 := 1 } }

/-- The same after a fatal failure. -/
def failedSample (l : List HostAccess) : State := fatalRecord .badCmd 0x100 (sample l)

theorem readByte_sample_matrix (mx : Matrix) (sl : Slot) (idx : Nat) :
    readByte [((0x1000 : Nat), (0x80 : Byte))] (matrixBase mx sl + idx) = 0 := by
  have := matrixBase_bounds mx sl
  rw [readByte_cons, if_neg (by show ¬0x1000 = _; omega)]; rfl

theorem backed_sample (a : Nat) (h : readByte [((0x1000 : Nat), (0x80 : Byte))] a ≠ 0) : Backed a := by
  rw [readByte_cons] at h
  by_cases ha : 0x1000 = a
  · exact .inl (by omega)
  · rw [if_neg ha] at h; exact absurd rfl h

theorem inv_sample (l : List HostAccess) : Inv (sample l) where
  canonical := rfl
  backed := backed_sample
  symbols := fun mx sl idx _ => by
    show (readByte [((0x1000 : Nat), (0x80 : Byte))] _).toNat < 64
    rw [readByte_sample_matrix]; decide
  lengths := fun b => by cases b <;> simp [bufLen, sample, Lens.reset, getLen, Config.cap]
  fatal := ⟨fun h => (by cases h), fun ⟨_, h⟩ => (by cases h)⟩
  errcmd := fun _ => rfl

theorem inv_failedSample (l : List HostAccess) : Inv (failedSample l) where
  canonical := rfl
  backed := backed_sample
  symbols := (inv_sample l).symbols
  lengths := (inv_sample l).lengths
  fatal := ⟨fun _ => ⟨_, rfl⟩, fun _ => rfl⟩
  errcmd := fun h => by cases h

theorem witness_StepKeepsInvariant :
    (Inv (sample [hostCommand (.bufCat .b1 .b0 .b0)])
        ∧ ∃ t, step (sample [hostCommand (.bufCat .b1 .b0 .b0)]) = .next t ∧ bufLen t .b1 = 2)
      ∧ Inv (failedSample [.write 0x010 .w8 1])
        ∧ ∃ t, step (failedSample [.write 0x010 .w8 1]) = .next t ∧ t.fatal = false :=
  ⟨⟨inv_sample _, next_of_after (by decide +kernel)⟩, inv_failedSample _,
    next_of_after (by decide +kernel)⟩

/-- A state with the memory and the LDPC_VALID of `identitySlot` has its valid slot derived. -/
theorem slotsDerived_identity {s : State} (hm : s.mem = identitySlot.mem)
    (hv : s.ldpcValid = identitySlot.ldpcValid) : SlotsDerived s := by
  intro sl h
  cases sl with
  | s0 => rw [slotValid, hv] at h; exact absurd h (by decide)
  | s1 =>
    have := test_derivedQ_identity
    unfold derivedQ matrixRows at this ⊢
    rwa [hm]

theorem witness_StepKeepsDerivedSlots :
    SlotsDerived { identitySlot with pending := [.write 0x1C000 .w1 1] }
      ∧ slotValid { identitySlot with pending := [.write 0x1C000 .w1 1] } .s1 = true
      ∧ ∃ t, step { identitySlot with pending := [.write 0x1C000 .w1 1] } = .next t ∧ t.ldpcValid = 0 :=
  ⟨slotsDerived_identity rfl rfl, rfl, next_of_after (by decide +kernel)⟩

theorem witness_ResetsGiveResetState :
    (failed [.hardReset]).pending = .hardReset :: []
      ∧ (failed [.write 0x010 .w8 1]).pending = .write 0x010 .w8 1 :: []
      ∧ (failed [.write 0x010 .w8 2]).pending = .write 0x010 .w8 2 :: [] := ⟨rfl, rfl, rfl⟩

theorem witness_DecodeOfEncode :
    (Instr.packU .b7 true 127).wellFormed = true
      ∧ (Instr.sfB1I .b7 .b7 true 7 63 true).wellFormed = true := by decide

theorem witness_EncodeOfDecode : decode 0x4CB01738 = .instr (.sfB1I .b7 .b2 true 5 12 true) := by decide

theorem witness_StepRunsDecodedCommand :
    NextIsCommand (queue [.write 0x000 .w8 0x11D01]) 0x11D01 []
      ∧ (queue [.write 0x000 .w8 0x11D01]).fatal = false
      ∧ decode 0x11D01 = .instr (.bufCat .b5 .b3 .b4) := ⟨rfl, rfl, by decide⟩

theorem witness_FatalGateIgnoresCommands :
    NextIsCommand (failed [.write 0x000 .w8 0x11]) 0x11 [] ∧ (failed [.write 0x000 .w8 0x11]).fatal = true :=
  ⟨rfl, rfl⟩

theorem witness_ReservedOpcodesAreUnsupported :
    (∀ op ∈ [0x02, 0x07, 0x0C, 0x0F, 0x12, 0x17, 0x1B, 0x1F, 0x27, 0x2A, 0x2F, 0x32, 0x37, 0x3E, 0xFF],
        ReservedOpcode op)
      ∧ ReservedOpcode ((0xFFFFFF02 : Word).toNat % 256)
      ∧ NextIsCommand (queue [.write 0x000 .w8 0xFFFFFF02]) 0xFFFFFF02 []
      ∧ (queue [.write 0x000 .w8 0xFFFFFF02]).fatal = false := by
  refine ⟨?_, ?_, rfl, rfl⟩
  · unfold ReservedOpcode; decide
  · unfold ReservedOpcode; decide

theorem witness_DefinedOpcodesSelectByMask :
    ((0x00, 0xffffffffffffffff, fun _ => Instr.nop) ∈ rows ∧ (0x100 : Word) &&& 0xff = 0x00
        ∧ (0x100 : Word) &&& 0xffffffffffffffff ≠ 0x00
        ∧ NextIsCommand (queue [.write 0x000 .w8 0x100]) 0x100 []
        ∧ (queue [.write 0x000 .w8 0x100]).fatal = false)
      ∧ (0x3d, 0xffffffffffffc0ff, fun w => Instr.frameB1I (bufAt 8 w) (bufAt 11 w)) ∈ rows
        ∧ (0x3f3d : Word) &&& 0xff = 0x3d ∧ (0x3f3d : Word) &&& 0xffffffffffffc0ff = 0x3d :=
  ⟨⟨by simp [rows], by decide, by decide, rfl, rfl⟩, by simp [rows], by decide, by decide⟩

/-- The last row's command of a word. -/
theorem test_rows_frameB1I : (rows.getLast?.map fun r => r.2.2 0x3f3d) = some (.frameB1I .b7 .b7) := by decide

theorem witness_CommandsNeverWriteHostState :
    ∃ t, exec (.bufCat .b0 .b0 .b0) (sample []) = .next t ∧ bufLen t .b0 = 2 :=
  next_of_after (by decide +kernel)

theorem witness_OnlyNamedCommandsWriteResultStateAndQ :
    (∃ t, exec .lfsrStep { State.reset with lfsrWidth := 1, lfsrState := 1 } = .next t
        ∧ (t.result, t.lfsrState) = (1, 0))
      ∧ (∃ t, exec (.unpackU .b0 1) (sample []) = .next t ∧ t.result = 1)
      ∧ (∃ t, exec (.unpackS .b0 1) (sample []) = .next t ∧ t.result = 0xFFFFFFFFFFFFFFFF)
      ∧ (∃ t, exec (.lfsrRun .b0) { State.reset with lfsrWidth := 1, lfsrState := 1, arg0 := 1 } = .next t
        ∧ t.lfsrState = 0)
      ∧ ∃ t, exec (.ldpcDerive .s0) State.reset = .next t ∧ Instr.ldpcDerive .s0 ≠ .ldpcDerive .s1 :=
  ⟨next_of_after (by decide +kernel), next_of_after (by decide +kernel), next_of_after (by decide +kernel),
    next_of_after (by decide +kernel), _, (exec_next _ _).choose_spec, by decide⟩

theorem witness_FatalStaysUntilReset :
    (failed [hostCommand .nop]).fatal = true
      ∧ (∃ t, step (failed [hostCommand .nop]) = .next t ∧ t.fatal = true)
      ∧ ∃ t, step (failed [.hardReset]) = .next t ∧ t.fatal = false :=
  ⟨rfl, next_of_after (by decide +kernel), next_of_after (by decide +kernel)⟩

theorem witness_BusErrorsChangeNothing :
    (∀ p ∈ [(0x0, Width.w4), (0xFFC, .w8), (0x1000, .w2), (0x4FFC, .w8), (0x5000, .w1), (0xFFFF, .w1),
        (0x10000, .w8), (0x27FFF, .w2)], NotAllowed p.1 p.2)
      ∧ (queue [.read 0x5000 .w1]).pending = .read 0x5000 .w1 :: []
      ∧ (queue [.write 0x0 .w4 1]).pending = .write 0x0 .w4 1 :: [] := by
  refine ⟨?_, rfl, rfl⟩
  unfold NotAllowed
  decide

theorem witness_AccessOutsideWindowFaults :
    0x28000 ≤ 0x28000 ∧ (queue [.read 0x28000 .w1]).pending = .read 0x28000 .w1 :: []
      ∧ (queue [.write 0x28000 .w8 1]).pending = .write 0x28000 .w8 1 :: [] := ⟨by decide, rfl, rfl⟩

theorem witness_ReadsHaveNoSideEffect :
    (sample [.read 0x1000 .w8]).pending = .read 0x1000 .w8 :: []
      ∧ (∃ t, step (sample [.read 0x1000 .w8]) = .next t ∧ t.response = .data 0x8000000000000000)
      ∧ ∃ t, step (sample [.read 0x1004 .w8]) = .next t ∧ t.response = .busError :=
  ⟨rfl, next_of_after (by decide +kernel), next_of_after (by decide +kernel)⟩

theorem witness_RegisterWritesReadBack :
    let s := queue [.write 0x040 .w8 0xFF, .read 0x040 .w8]
    (0x040, { s with lfsrWidth := (0xFF : Word).setWidth 7 }, (0xFF : Word) &&& 0x7f)
        ∈ [(0x020, { s with arg0 := 0xFF }, 0xFF), (0x028, { s with arg1 := 0xFF }, 0xFF),
          (0x030, { s with arg2 := 0xFF }, 0xFF),
          (0x040, { s with lfsrWidth := (0xFF : Word).setWidth 7 }, 0xFF &&& 0x7f),
          (0x048, { s with lfsrPoly := 0xFF }, 0xFF), (0x050, { s with lfsrState := 0xFF }, 0xFF),
          (0x058, { s with pageImpl4 := 0xFF }, 0xFF), (0x060, { s with pageImpl5 := 0xFF }, 0xFF)]
      ∧ s.pending = .write 0x040 .w8 0xFF :: .read 0x040 .w8 :: [] := ⟨by decide, rfl⟩

theorem witness_LenIsWriteAnyReadLegal :
    (queue [.write (0x080 + 8 * Buf.b7.num) .w8 16384]).pending
        = .write (0x080 + 8 * Buf.b7.num) .w8 16384 :: []
      ∧ (16384 : Word).toNat ≤ 16384
      ∧ (queue [.write (0x080 + 8 * Buf.b0.num) .w8 16385]).pending
        = .write (0x080 + 8 * Buf.b0.num) .w8 16385 :: []
      ∧ 16384 < (16385 : Word).toNat := ⟨rfl, by decide, rfl, by decide⟩

theorem witness_ReservedAndReadOnlyRegisters :
    (∀ off ∈ [0x070, 0x078, 0x0C0, 0xFF8],
        off % 8 = 0 ∧ (off = 0x070 ∨ off = 0x078 ∨ (0x0C0 ≤ off ∧ off ≤ 0xFF8)))
      ∧ 0x018 % 8 = 0 ∧ 0x018 ∈ [0x008, 0x018, 0x038, 0x068]
      ∧ (queue [.read 0xFF8 .w8]).pending = .read 0xFF8 .w8 :: []
      ∧ (queue [.write 0x018 .w8 1]).pending = .write 0x018 .w8 1 :: []
      ∧ (0x110 < 2 ^ 64
        ∧ (0x008, 0x110) = (0x008, codeNumber (failed [.read 0x008 .w8]).code
          + 256 * (failed [.read 0x008 .w8]).fatal.toNat)
        ∧ (failed [.read 0x008 .w8]).pending = .read 0x008 .w8 :: [])
      ∧ (let s := failed [.read 0x010 .w8]
        (0x010, 0) ∈ [(0x000, 0), (0x010, 0), (0x008, codeNumber s.code + 256 * s.fatal.toNat),
            (0x018, s.errcmd.toNat), (0x038, s.result.toNat), (0x068, s.ldpcValid.toNat)]
          ∧ s.pending = .read 0x010 .w8 :: [])
      ∧ (0x0B8, 0) = (0x080 + 8 * Buf.b7.num, bufLen (queue [.read 0x0B8 .w8]) .b7)
        ∧ (queue [.read 0x0B8 .w8]).pending = .read 0x0B8 .w8 :: [] :=
  ⟨by decide, by decide, by decide, rfl, rfl, ⟨by decide, rfl, rfl⟩, ⟨by decide, rfl⟩, rfl, rfl⟩

theorem witness_BufferByteHoldsEightBits :
    0x7FF < 0x800
      ∧ (queue [.read (0x1000 + 0x800 * Buf.b7.num + 0x7FF) .w1]).pending
        = .read (0x1000 + 0x800 * Buf.b7.num + 0x7FF) .w1 :: []
      ∧ (queue [.write (0x1000 + 0x800 * Buf.b0.num + 0) .w1 0xA5]).pending
        = .write (0x1000 + 0x800 * Buf.b0.num + 0) .w1 0xA5 :: [] := ⟨by decide, rfl, rfl⟩

theorem witness_BufferWordIsEightBytes :
    (0x1000 ≤ 0x1000 ∧ 0x1000 < 0x5000 ∧ 0x1000 % 8 = 0
        ∧ (queue [.read 0x1000 .w8]).pending = .read 0x1000 .w8 :: [])
      ∧ 0x1000 ≤ 0x4FF8 ∧ 0x4FF8 < 0x5000 ∧ 0x4FF8 % 8 = 0
        ∧ (queue [.write 0x4FF8 .w8 1]).pending = .write 0x4FF8 .w8 1 :: [] :=
  ⟨⟨by decide, by decide, by decide, rfl⟩, by decide, by decide, by decide, rfl⟩

theorem witness_ElementReadsAndWriteClearsValid :
    (Inv (sample [.read (matrixBase .q .s0 + (99 * slotSize .s0 + 99)) .w1]) ∧ 99 < slotSize .s0
        ∧ (sample [.read (matrixBase .q .s0 + (99 * slotSize .s0 + 99)) .w1]).pending
          = .read (matrixBase .q .s0 + (99 * slotSize .s0 + 99)) .w1 :: [])
      ∧ (Matrix.h1 ≠ .q ∧ 0 < slotSize .s0
        ∧ (queue [.write (matrixBase .h1 .s0 + (0 * slotSize .s0 + 0)) .w1 0xFF]).pending
          = .write (matrixBase .h1 .s0 + (0 * slotSize .s0 + 0)) .w1 0xFF :: [])
      ∧ Matrix.h2 ≠ .q ∧ 43 < slotSize .s1
        ∧ (queue [.write (matrixBase .h2 .s1 + (43 * slotSize .s1 + 43)) .w1 0]).pending
          = .write (matrixBase .h2 .s1 + (43 * slotSize .s1 + 43)) .w1 0 :: [] :=
  ⟨⟨inv_sample _, by decide, rfl⟩, ⟨by decide, by decide, rfl⟩, by decide, by decide, rfl⟩

theorem witness_QAndPaddingIgnoreWrites :
    (0 < 0x4000 ∧ (Matrix.q = .q ∨ slotSize .s0 * slotSize .s0 ≤ 0)
        ∧ (queue [.write (matrixBase .q .s0 + 0) .w1 1]).pending = .write (matrixBase .q .s0 + 0) .w1 1 :: [])
      ∧ slotSize .s1 * slotSize .s1 ≤ 1936
      ∧ 0x3FFF < 0x4000 ∧ (Matrix.h1 = .q ∨ slotSize .s0 * slotSize .s0 ≤ 0x3FFF)
        ∧ slotSize .s0 * slotSize .s0 ≤ 0x3FFF
        ∧ (queue [.read (matrixBase .h1 .s0 + 0x3FFF) .w1]).pending
          = .read (matrixBase .h1 .s0 + 0x3FFF) .w1 :: [] :=
  ⟨⟨by decide, .inl rfl, rfl⟩, by decide, by decide, by decide, by decide, rfl⟩

/-- The longest string in a buffer, all zeros, and a length in another one. -/
def long (n m : Nat) : State := withLen (withLen State.reset .b0 n) .b1 m

theorem witness_BufCatConcatenates :
    bufLen (long 16383 1) .b0 + bufLen (long 16383 1) .b1 ≤ 16384
      ∧ 16384 < bufLen (long 16384 1) .b0 + bufLen (long 16384 1) .b1 := by decide

theorem witness_PackUnsigned :
    ((128 : Nat) = 0 ∨ 64 < 128) ∧ ({ State.reset with arg0 := -1 } : State).arg0.toInt < 0
      ∧ 0 ≤ State.reset.arg0.toInt
      ∧ 16384 < (if true then readBuf (long 16380 0) .b0 else []).length + 5
      ∧ (if true then readBuf (long 16380 0) .b0 else []).length + 4 ≤ 16384
      ∧ 1 ≤ 4 ∧ 5 ≤ 64 ∧ 0 ≤ (long 16380 0).arg0.toInt := by
  rw [if_pos rfl, length_readBuf]; decide

theorem witness_PackSigned :
    ((65 : Nat) = 0 ∨ 64 < 65) ∧ 16384 < (if true then readBuf (long 16384 0) .b0 else []).length + 1
      ∧ (if true then readBuf (long 16320 0) .b0 else []).length + 64 ≤ 16384 ∧ 1 ≤ 64 := by
  rw [if_pos rfl, if_pos rfl, length_readBuf, length_readBuf]; decide

theorem witness_UnpackUnsigned :
    ((0 : Nat) = 0 ∨ 64 < 0) ∧ bufLen (long 64 0) .b0 < (1 : Word).toNat + 64
      ∧ ({ long 64 0 with arg0 := 63 } : State).arg0.toNat + 1 ≤ bufLen (long 64 0) .b0
      ∧ 1 ≤ 1 ∧ 64 ≤ 64 := by decide

theorem witness_UnpackSigned :
    ((65 : Nat) = 0 ∨ 64 < 65)
      ∧ bufLen (long 4 0) .b0 < ({ long 4 0 with arg0 := 0xFFFFFFFFFFFFFFFF } : State).arg0.toNat + 1
      ∧ (long 64 0).arg0.toNat + 64 ≤ bufLen (long 64 0) .b0 ∧ 1 ≤ 64 := by decide

theorem witness_PackThenUnpackReturnsRaw :
    (if true then bufLen (long 16320 0) .b0 else 0) + 64 ≤ 16384 ∧ 1 ≤ 64
      ∧ (-(2 ^ (4 - 1)) ≤ ({ long 0 0 with arg0 := -8 } : State).arg0.toInt
        ∧ ({ long 0 0 with arg0 := -8 } : State).arg0.toInt < 2 ^ (4 - 1))
      ∧ (if false then bufLen (long 0 0) .b0 else 0) + 4 ≤ 16384 := by decide

theorem witness_LfsrStepAsRule :
    (∀ l ∈ ([0, 65, 127] : List (BitVec 7)), l.toNat = 0 ∨ 64 < l.toNat)
      ∧ ∀ l ∈ ([1, 64] : List (BitVec 7)), 1 ≤ l.toNat ∧ l.toNat ≤ 64 := by decide

theorem witness_LfsrRunAsRule :
    (∀ l ∈ ([0, 65] : List (BitVec 7)), l.toNat = 0 ∨ 64 < l.toNat)
      ∧ (∀ l ∈ ([1, 64] : List (BitVec 7)), 1 ≤ l.toNat ∧ l.toNat ≤ 64)
      ∧ 16384 < (16385 : Word).toNat ∧ (16384 : Word).toNat ≤ 16384 := by decide

theorem witness_LfsrRunsCompose :
    1 ≤ ({ State.reset with lfsrWidth := 64 } : State).lfsrWidth.toNat
      ∧ ({ State.reset with lfsrWidth := 64 } : State).lfsrWidth.toNat ≤ 64 ∧ 16384 + 0 ≤ 16384
      ∧ 9 + 16375 ≤ 16384 := by decide

theorem witness_GoldB1IAsRule : (16384 : Word).toNat ≤ 16384 ∧ 16384 < (16385 : Word).toNat := by decide

theorem witness_GoldB3IAsRule : (16384 : Word).toNat ≤ 16384 ∧ 16384 < (-1 : Word).toNat := by decide

theorem witness_WeilAsRule :
    (16384 : Word).toNat ≤ 16384 ∧ 16384 < (16385 : Word).toNat ∧ 0 < 16384 ∧ 10242 < 10243
      ∧ ((10242 : Int) - (((0 : Word).toNat : Int) - 1 + (0 : Nat))) % (10243 : Int) = 0
      ∧ 3606 < 3607 ∧ ((3606 : Int) - (((0 : Word).toNat : Int) - 1 + (0 : Nat))) % (3607 : Int) = 0 := by
  decide

theorem witness_LegendreBitIsQuadraticResidue :
    0 < weilModulus .main ∧ 10242 < weilModulus .main ∧ 3606 < weilModulus .sub := by decide

theorem witness_BchGenIsSystematic :
    ((0 : Nat) = 0 ∨ 64 < 0) ∧ (65 = 0 ∨ 64 < 65) ∧ (1 ≤ 3 ∧ 3 ≤ 64 ∧ 2 < 3)
      ∧ (1 ≤ 3 ∧ 3 ≤ 64 ∧ 3 ≤ 7 ∧ bufLen (long 4 0) .b0 ≠ 3)
      ∧ (1 ≤ 64 ∧ 64 ≤ 64 ∧ 64 ≤ 16385 ∧ bufLen (long 64 0) .b0 = 64 ∧ 16384 < 16385)
      ∧ 1 ≤ 1 ∧ 1 ≤ 64 ∧ 1 ≤ 16384 ∧ bufLen (long 1 0) .b0 = 1 ∧ 16384 ≤ 16384 := by decide

theorem witness_BchB1CCodewords : bufLen (long 6 0) .b0 = 6 ∧ bufLen (long 8 0) .b0 = 8 := by decide

theorem witness_Bch15IsPolynomialDivision : bufLen (long 11 0) .b0 = 11 := by decide

theorem witness_Bch15FormsAgree : bufLen (long 11 0) .b0 = 11 := by decide

theorem witness_BchB1IWords : bufLen (long 22 0) .b0 = 22 ∧ bufLen (long 26 0) .b0 = 26 := by decide

theorem witness_FixedBchRejectsWrongLength :
    (Instr.bch15_11 .b2 .b0, 11) ∈ [(Instr.bch21_6 .b2 .b0, 6), (.bch51_8 .b2 .b0, 8), (.bch15_11 .b2 .b0, 11),
        (.bch15_11HW .b2 .b0, 11), (.bchB1I .b2 .b0, 22), (.bchB1IW1 .b2 .b0, 26)]
      ∧ bufLen (long 22 0) .b0 ≠ 11 := by decide

/-- The spec's product with 0 and 1. -/
theorem gfTimes_zero (a : Sym) : gfTimes a 0 = 0 :=
  forall_sym (p := fun a => gfTimes a 0 = 0) (by decide +kernel) a
theorem zero_gfTimes (a : Sym) : gfTimes 0 a = 0 :=
  forall_sym (p := fun a => gfTimes 0 a = 0) (by decide +kernel) a
theorem one_gfTimes (a : Sym) : gfTimes 1 a = a :=
  forall_sym (p := fun a => gfTimes 1 a = a) (by decide +kernel) a

theorem gfSum_succ (k : Nat) (f : Nat → Sym) : gfSum (k + 1) f = gfSum k f ^^^ f k := by
  simp [gfSum, List.range_succ]

theorem gfSum_zero (k : Nat) {f : Nat → Sym} (h : ∀ i, f i = 0) : gfSum k f = 0 := by
  induction k with
  | zero => rfl
  | succ k ih => rw [gfSum_succ, ih, h]; rfl

/-- A sum whose terms are picked by a unit row. -/
theorem gfSum_unit (k r : Nat) (f : Nat → Sym) :
    gfSum k (fun t => gfTimes (if r = t then 1 else 0) (f t)) = if r < k then f r else 0 := by
  induction k with
  | zero => rfl
  | succ k ih =>
    rw [gfSum_succ, ih]
    rcases lt_trichotomy r k with h | h | h
    · rw [if_pos h, if_neg (by omega), if_pos (by omega), zero_gfTimes]; exact BitVec.xor_zero
    · subst h
      rw [if_neg (by omega), if_pos rfl, if_pos (by omega), one_gfTimes]; exact BitVec.zero_xor
    · rw [if_neg (by omega), if_neg (by omega), if_neg (by omega), zero_gfTimes]; rfl

/-- H2 of `identityH` is the identity. -/
theorem identityH_h2 : ∀ r c, r < 44 → c < 44 →
    element identityH .h2 .s1 r c = if r = c then 1 else 0 := by
  have h : matrixRows identityH .h2 .s1 = identityRows :=
    matrixRows_setMatrix_same _ _ _ (by simp [identityRows, slotSize, Config.k1])
      (by simp [identityRows, slotSize, Config.k1])
  rw [matrixRows_eq] at h
  intro r c hr hc
  have := congrArg (fun m => (m.getD r []).getD c 0) h
  simpa [identityRows, slotSize, Config.k1, List.getD_eq_getElem?_getD, hr, hc] using this

theorem witness_DeriveSolvesOrIsSingular :
    LeftInverse identityH .s1 (fun r t => if r = t then 1 else 0)
      ∧ ¬∃ v, LeftInverse State.reset .s1 v := by
  constructor
  · intro r c hr hc
    rw [gfSum_unit, if_pos hr]
    exact identityH_h2 r c hr hc
  · rintro ⟨v, hv⟩
    have h := hv 0 0 (by decide) (by decide)
    have h0 : ∀ t, gfTimes (v 0 t) (element State.reset .h2 .s1 t 0) = 0 := fun t => gfTimes_zero _
    rw [gfSum_zero _ h0] at h
    exact absurd h (by decide)

theorem witness_DerivedQSatisfiesH :
    (63 : Sym) ≠ 0 ∧ ∃ t, exec (.ldpcDerive .s1) identitySlot = .next t ∧ t.code = .ok := by
  refine ⟨by decide, _, rfl, ?_⟩
  rw [test_derivedQ_identity]; rfl

theorem witness_LdpcEncAsRule :
    bufLen (long 263 0) .b0 ≠ 6 * slotSize .s1
      ∧ (bufLen (long 600 0) .b0 = 6 * slotSize .s0 ∧ slotValid (long 600 0) .s0 = false)
      ∧ bufLen (withLen identitySlot .b0 264) .b0 = 6 * slotSize .s1
        ∧ slotValid (withLen identitySlot .b0 264) .s1 = true := by decide

theorem witness_CodewordSatisfiesParityCheck :
    SlotsDerived (withLen identitySlot .b0 264) ∧ slotValid (withLen identitySlot .b0 264) .s1 = true
      ∧ bufLen (withLen identitySlot .b0 264) .b0 = 6 * slotSize .s1 :=
  ⟨slotsDerived_identity rfl rfl, by decide, by decide⟩

theorem witness_IntlvB1IAlternates :
    (bufLen (long 15 15) .b0 = 15 ∧ bufLen (long 15 15) .b1 = 15)
      ∧ (bufLen (long 14 15) .b0 ≠ 15 ∨ bufLen (long 14 15) .b1 ≠ 15)
      ∧ (bufLen (long 15 16) .b0 ≠ 15 ∨ bufLen (long 15 16) .b1 ≠ 15) := by decide

theorem witness_IntlvB1CPositions :
    (bufLen (long 1200 528) .b0 = 1200 ∧ bufLen (long 1200 528) .b1 = 528)
      ∧ (bufLen (long 1200 527) .b0 ≠ 1200 ∨ bufLen (long 1200 527) .b1 ≠ 528) := by decide

theorem witness_DeinterleaveRecoversInputs :
    bufLen (long 1200 528) .b0 = 1200 ∧ bufLen (long 1200 528) .b1 = 528 := by decide

theorem witness_SfB1IEncodes :
    1 ≤ 5 ∧ 5 ≤ 5 ∧ (if true then readBuf (long 224 16084) .b1 else []).length + 300 ≤ 16384
      ∧ bufLen (long 224 16084) .b0 = 224
      ∧ ((5 : Nat) = 4 → (long 224 16084).pageImpl4.getLsbD 63 = true)
      ∧ ((5 : Nat) = 5 → (long 224 16084).pageImpl5.getLsbD 63 = true) := by
  rw [if_pos rfl, length_readBuf]; decide

theorem witness_SfB1IFailures :
    ((0 : Nat) < 1 ∨ 5 < 0) ∧ (6 < 1 ∨ 5 < 6)
      ∧ (((4 : Nat) = 4 ∧ ({ long 0 0 with pageImpl4 := 0xFFFFFFFFFFFFEFFF } : State).pageImpl4.getLsbD 12 = false)
        ∨ ((4 : Nat) = 5 ∧ (long 0 0).pageImpl5.getLsbD 12 = false))
      ∧ (1 ≤ 1 ∧ 1 ≤ 5 ∧ false = false
        ∧ (¬(((1 : Nat) = 4 ∧ (long 223 0).pageImpl4.getLsbD 0 = false)
          ∨ ((1 : Nat) = 5 ∧ (long 223 0).pageImpl5.getLsbD 0 = false)))
        ∧ bufLen (long 223 0) .b0 ≠ 224)
      ∧ (1 ≤ 5 ∧ 5 ≤ 5 ∧ (true = false → False)
        ∧ 16384 < (if true then readBuf (long 0 16085) .b1 else []).length + 300) := by
  rw [if_pos rfl, length_readBuf]; decide

theorem witness_SfB1C1JoinsCodewords :
    ((63 : Word).toNat ≤ 63 ∧ (255 : Word).toNat ≤ 255)
      ∧ (63 < (64 : Word).toNat ∨ 255 < (0 : Word).toNat)
      ∧ (63 < (63 : Word).toNat ∨ 255 < (256 : Word).toNat) := by decide

theorem witness_SfB1C2AndC3SealAndEncode :
    (Instr.sfB1C3 .b1 .b0, 240, Slot.s1) ∈ [(Instr.sfB1C2 .b1 .b0, 576, Slot.s0), (Instr.sfB1C3 .b1 .b0, 240, .s1)]
      ∧ bufLen (long 241 0) .b0 ≠ 240
      ∧ (bufLen (long 240 0) .b0 = 240 ∧ slotValid (long 240 0) .s1 = false)
      ∧ (bufLen (withLen identitySlot .b0 240) .b0 = 240
        ∧ slotValid (withLen identitySlot .b0 240) .s1 = true)
      ∧ (Instr.sfB1C2 .b1 .b0, 576, Slot.s0)
          ∈ [(Instr.sfB1C2 .b1 .b0, 576, Slot.s0), (Instr.sfB1C3 .b1 .b0, 240, .s1)]
        ∧ bufLen { long 576 0 with ldpcValid := 0b01 } .b0 = 576
        ∧ slotValid { long 576 0 with ldpcValid := 0b01 } .s0 = true := by decide

theorem witness_FrameB1CLayout :
    (bufLen (withLen (long 72 1200) .b2 528) .b0 = 72 ∧ bufLen (withLen (long 72 1200) .b2 528) .b1 = 1200
        ∧ bufLen (withLen (long 72 1200) .b2 528) .b2 = 528)
      ∧ (bufLen (long 71 1200) .b0 ≠ 72 ∨ bufLen (long 71 1200) .b1 ≠ 1200
        ∨ bufLen (long 71 1200) .b2 ≠ 528) := by decide

theorem witness_FrameB1IAppendsFourZeros :
    bufLen (long 1500 0) .b0 = 1500 ∧ bufLen (long 1504 0) .b0 ≠ 1500 := by decide

theorem witness_HostReadsByteRendering :
    WroteBuffer .b0 (bitsOf 15 0b000111101011001) State.reset
        (complete (setBuf State.reset .b0 (bitsOf 15 0b000111101011001)))
      ∧ (bitsOf 15 0b000111101011001).length ≤ 16384
      ∧ 16383 < bufLen (long 16384 0) .b0 :=
  ⟨wroteBuffer_setBuf _ _ (by decide), by decide, by decide⟩

end Sys2Proof.Tests
end

