-- ==== Sys2Proof/Proofs/Scope.lean ====
section
/-! What a string means outside the core (O60): `num` as a sum of bit weights, the byte rendering as the bytes a
successful command leaves in its destination buffer. -/

namespace Sys2Proof.Machine

/-! ### Numbers -/

/-- The weight of bit i of a string, its first bit most significant (R21). -/
def bitWeight (x : Bits) (i : Nat) : Nat := (x.getD i false).toNat * 2 ^ (x.length - 1 - i)

theorem bitWeight_append_singleton_of_lt {x : Bits} {i : Nat} (b : Bool) (h : i < x.length) :
    bitWeight (x ++ [b]) i = 2 * bitWeight x i := by
  have hexp : x.length + 1 - 1 - i = x.length - 1 - i + 1 := by omega
  rw [bitWeight, bitWeight, List.getD_append _ _ _ _ h, List.length_append, List.length_singleton, hexp, pow_succ]
  ring

theorem bitWeight_append_singleton_last (x : Bits) (b : Bool) :
    bitWeight (x ++ [b]) x.length = b.toNat := by
  simp [bitWeight]

/-- The number of a string is the sum of its bits' weights (R21). -/
theorem num_eq_sum_bitWeight (x : Bits) : num x = ((List.range x.length).map (bitWeight x)).sum := by
  induction x using List.reverseRecOn with
  | nil => rfl
  | append_singleton x b ih =>
    have hold : (List.range x.length).map (bitWeight (x ++ [b]))
        = (List.range x.length).map fun i => 2 * bitWeight x i :=
      List.map_congr_left fun i hi => bitWeight_append_singleton_of_lt b (List.mem_range.mp hi)
    rw [num_append_singleton, ih, List.length_append, List.length_singleton, List.range_succ, List.map_append,
      List.sum_append, hold, List.sum_map_mul_left, List.map_singleton, List.sum_singleton,
      bitWeight_append_singleton_last]

/-! ### Bytes -/

theorem map_digitsFrom_eight (n : Nat) (x : Bits) :
    (digitsFrom 8 n x).map (BitVec.ofNat 8) = packBytesFrom n x := by
  induction n generalizing x with
  | zero => rfl
  | succ n ih => rw [digitsFrom, List.map_cons, ih, packBytesFrom, byteOf]

/-- The byte rendering packs a string as the storage of a buffer does (R74, R300). -/
theorem renderBytes_eq_packBytes (x : Bits) : renderBytes x = packBytes x :=
  map_digitsFrom_eight _ x

/-- Bit 7 - k of byte j of a buffer is storage bit 8j + k (R40). -/
theorem storageBit_byte (s : State) (b : Buf) (j : Nat) {k : Nat} (h : k < 8) :
    storageBit s b (8 * j + k) = (readByte s.mem (bufBase b + j)).getLsbD (7 - k) := by
  have hdiv : (8 * j + k) / 8 = j := by omega
  have hmod : (8 * j + k) % 8 = k := by omega
  rw [storageBit, hdiv, hmod]

/-- Bit 7 - k of byte j of a packed string is bit 8j + k of the string, or 0 past its end (R74). -/
theorem packBytes_getD_getLsbD {x : Bits} {j k : Nat} (hj : j < (x.length + 7) / 8) (hk : k < 8) :
    ((packBytes x).getD j 0).getLsbD (7 - k) = x.getD (8 * j + k) false := by
  have hdiv : (8 * j + k) / 8 = j := by omega
  have hmod : (8 * j + k) % 8 = k := by omega
  rw [← getD_packBytes_bit x (i := 8 * j + k) (by omega), hdiv, hmod]

/-- Bit i of a buffer's string is its storage bit i (R40). -/
theorem getD_readBuf {s : State} {b : Buf} {i : Nat} (h : i < bufLen s b) :
    (readBuf s b).getD i false = storageBit s b i := by
  have hi : i < (readBuf s b).length := by rwa [length_readBuf]
  rw [List.getD_eq_getElem _ _ hi, getElem_readBuf]

/-- After a write of `x` every storage bit of the buffer is that bit of `x`, or 0 past its end (R41). -/
theorem WroteBuffer.storageBit_eq {d : Buf} {x : Bits} {s t : State} (w : WroteBuffer d x s t) {i : Nat}
    (hi : i < Config.cap) : storageBit t d i = x.getD i false := by
  by_cases hx : i < x.length
  · rw [← getD_readBuf (w.length ▸ hx), w.string]
  · have hle : x.length ≤ i := Nat.le_of_not_lt hx
    rw [w.beyond i hle hi, List.getD_eq_default _ _ hle]

/-- After a write of `x` the bytes of the buffer that reach into the string are the packed bytes of `x`. -/
theorem WroteBuffer.readByte_eq {d : Buf} {x : Bits} {s t : State} (w : WroteBuffer d x s t)
    (hcap : x.length ≤ Config.cap) {j : Nat} (hj : j < (x.length + 7) / 8) :
    readByte t.mem (bufBase d + j) = (packBytes x).getD j 0 := by
  apply BitVec.eq_of_getLsbD_eq
  intro n hn
  obtain ⟨k, hk, rfl⟩ : ∃ k, k < 8 ∧ n = 7 - k := ⟨7 - n, by omega, by omega⟩
  have hin : 8 * j + k < Config.cap := by simp only [Config.cap] at hcap ⊢; omega
  rw [← storageBit_byte t d j hk, w.storageBit_eq hin, packBytes_getD_getLsbD hj hk]

/-- The bytes of the destination buffer are the byte rendering of the string written (R300). -/
theorem WroteBuffer.renderBytes_eq {d : Buf} {x : Bits} {s t : State} (w : WroteBuffer d x s t)
    (hcap : x.length ≤ Config.cap) :
    renderBytes x = (List.range ((x.length + 7) / 8)).map fun j => readByte t.mem (bufBase d + j) := by
  rw [renderBytes_eq_packBytes]
  apply List.ext_getElem
  · simp
  · intro j hj hj'
    have hlt : j < (x.length + 7) / 8 := by rwa [length_packBytes] at hj
    rw [List.getElem_map, List.getElem_range, w.readByte_eq hcap hlt, List.getD_eq_getElem _ _ hj]

/-- Settles O60: a buffer's string is its storage bits (`getD_readBuf`), and a successful write leaves every
storage bit of the buffer equal to that bit of the string or 0 (`WroteBuffer.storageBit_eq`), so its bytes are the
packed ones. -/
theorem hostReadsByteRendering : Obligations.HostReadsByteRendering :=
  ⟨fun _ _ _ h => getD_readBuf h, num_eq_sum_bitWeight, fun _ _ _ _ w hcap => w.renderBytes_eq hcap⟩

end Sys2Proof.Machine
end

/-! The state family (10_state.md): decoding and encoding agree (O7), what one command can write (O14, O15), what one
host access can do (O9, O20, O21, O25, O26), and the two invariants every step keeps (O4, O5). -/

namespace Sys2Proof

/-! ### The encoding of a decoded word (30_encoding.md R100–R102) -/

theorem Buf.num_ofField (v : BitVec 3) : (Buf.ofField v).num = v.toNat := by
  revert v; decide

theorem Slot.num_ofField (v : BitVec 1) : (Slot.ofField v).num = v.toNat := by
  revert v; decide

theorem WeilLen.num_ofField (v : BitVec 1) : (WeilLen.ofField v).num = v.toNat := by
  revert v; decide

theorem toNat_beq_one (v : BitVec 1) : (v == 1).toNat = v.toNat := by
  revert v; decide

/-- A field put back where it was read is the word under the mask of its bits. -/
theorem place_field (lo n : Nat) (w : Word) :
    place lo (field lo n w).toNat = w &&& place lo (2 ^ n - 1) := by
  apply BitVec.eq_of_getLsbD_eq
  intro i hi
  by_cases hlo : i < lo
  · simp [place, hlo]
  · have hin : i - lo < 64 := by omega
    have hshift : lo + (i - lo) = i := by omega
    simp [place, field, BitVec.getLsbD_ofNat, BitVec.testBit_toNat, Nat.testBit_mod_two_pow, hi, hlo, hin, hshift,
      Bool.and_comm, -BitVec.getLsbD_eq_getElem]

theorem place_fieldD (w : Word) : place 8 (fieldD w).num = w &&& 0x700 := by
  rw [fieldD, Buf.num_ofField, place_field]; rfl

theorem place_fieldA (w : Word) : place 11 (fieldA w).num = w &&& 0x3800 := by
  rw [fieldA, Buf.num_ofField, place_field]; rfl

theorem place_fieldB (w : Word) : place 14 (fieldB w).num = w &&& 0x1c000 := by
  rw [fieldB, Buf.num_ofField, place_field]; rfl

theorem place_fieldC (w : Word) : place 17 (fieldC w).num = w &&& 0xe0000 := by
  rw [fieldC, Buf.num_ofField, place_field]; rfl

theorem place_fieldX (w : Word) : place 20 (fieldX w).toNat = w &&& 0x100000 := by
  rw [fieldX, toNat_beq_one, place_field]; rfl

theorem place_fieldW (w : Word) : place 21 (fieldW w) = w &&& 0xfe00000 := by
  rw [fieldW, place_field]; rfl

theorem place_slot (w : Word) : place 21 (Slot.ofField (fieldS w)).num = w &&& 0x200000 := by
  rw [Slot.num_ofField, fieldS, place_field]; rfl

theorem place_weilLen (w : Word) : place 21 (WeilLen.ofField (fieldS w)).num = w &&& 0x200000 := by
  rw [WeilLen.num_ofField, fieldS, place_field]; rfl

theorem place_fieldSF (w : Word) : place 21 (fieldSF w) = w &&& 0xe00000 := by
  rw [fieldSF, place_field]; rfl

theorem place_fieldPG (w : Word) : place 24 (fieldPG w) = w &&& 0x3f000000 := by
  rw [fieldPG, place_field]; rfl

theorem place_fieldZ (w : Word) : place 30 (fieldZ w).toNat = w &&& 0x40000000 := by
  rw [fieldZ, toNat_beq_one, place_field]; rfl

theorem fitsW_fieldW (w : Word) : fitsW (fieldW w) = true := decide_eq_true (field 21 7 w).isLt

theorem fitsSF_fieldSF (w : Word) : fitsSF (fieldSF w) = true := decide_eq_true (field 21 3 w).isLt

theorem fitsPG_fieldPG (w : Word) : fitsPG (fieldPG w) = true := decide_eq_true (field 24 6 w).isLt

/-- A word that has the pattern under a mask is the pattern and the bits outside the mask. -/
theorem pattern_or_fields {w m p f : Word} (h : w &&& m = p) (hf : m ||| f = BitVec.allOnes 64) :
    p ||| w &&& f = w := by
  rw [← h, ← BitVec.and_or_distrib_left, hf, BitVec.and_allOnes]

/-! One lemma per format of R107: the pattern and the placed fields are the word. -/

theorem encode_formatN {w p : Word} (h : w &&& 0xffffffffffffffff = p) : p = w :=
  h.symm.trans BitVec.and_allOnes

theorem encode_formatD {w p : Word} (h : w &&& 0xfffffffffffff8ff = p) : p ||| place 8 (fieldD w).num = w := by
  rw [place_fieldD]
  exact pattern_or_fields h rfl

theorem encode_formatDA {w p : Word} (h : w &&& 0xffffffffffffc0ff = p) :
    p ||| place 8 (fieldD w).num ||| place 11 (fieldA w).num = w := by
  rw [place_fieldD, place_fieldA]
  simp only [BitVec.or_assoc, ← BitVec.and_or_distrib_left]
  exact pattern_or_fields h rfl

theorem encode_formatDAB {w p : Word} (h : w &&& 0xfffffffffffe00ff = p) :
    p ||| place 8 (fieldD w).num ||| place 11 (fieldA w).num ||| place 14 (fieldB w).num = w := by
  rw [place_fieldD, place_fieldA, place_fieldB]
  simp only [BitVec.or_assoc, ← BitVec.and_or_distrib_left]
  exact pattern_or_fields h rfl

theorem encode_formatDABC {w p : Word} (h : w &&& 0xfffffffffff000ff = p) :
    p ||| place 8 (fieldD w).num ||| place 11 (fieldA w).num ||| place 14 (fieldB w).num
      ||| place 17 (fieldC w).num = w := by
  rw [place_fieldD, place_fieldA, place_fieldB, place_fieldC]
  simp only [BitVec.or_assoc, ← BitVec.and_or_distrib_left]
  exact pattern_or_fields h rfl

theorem encode_formatDXW {w p : Word} (h : w &&& 0xfffffffff00ff8ff = p) :
    p ||| place 8 (fieldD w).num ||| place 20 (fieldX w).toNat ||| place 21 (fieldW w) = w := by
  rw [place_fieldD, place_fieldX, place_fieldW]
  simp only [BitVec.or_assoc, ← BitVec.and_or_distrib_left]
  exact pattern_or_fields h rfl

theorem encode_formatAW {w p : Word} (h : w &&& 0xfffffffff01fc7ff = p) :
    p ||| place 11 (fieldA w).num ||| place 21 (fieldW w) = w := by
  rw [place_fieldA, place_fieldW]
  simp only [BitVec.or_assoc, ← BitVec.and_or_distrib_left]
  exact pattern_or_fields h rfl

theorem encode_formatDS {w p : Word} (h : w &&& 0xffffffffffdff8ff = p) :
    p ||| place 8 (fieldD w).num ||| place 21 (WeilLen.ofField (fieldS w)).num = w := by
  rw [place_fieldD, place_weilLen]
  simp only [BitVec.or_assoc, ← BitVec.and_or_distrib_left]
  exact pattern_or_fields h rfl

theorem encode_formatS {w p : Word} (h : w &&& 0xffffffffffdfffff = p) :
    p ||| place 21 (Slot.ofField (fieldS w)).num = w := by
  rw [place_slot]
  exact pattern_or_fields h rfl

theorem encode_formatDAS {w p : Word} (h : w &&& 0xffffffffffdfc0ff = p) :
    p ||| place 8 (fieldD w).num ||| place 11 (fieldA w).num ||| place 21 (Slot.ofField (fieldS w)).num = w := by
  rw [place_fieldD, place_fieldA, place_slot]
  simp only [BitVec.or_assoc, ← BitVec.and_or_distrib_left]
  exact pattern_or_fields h rfl

theorem encode_formatSFB {w p : Word} (h : w &&& 0xffffffff800fc0ff = p) :
    p ||| place 8 (fieldD w).num ||| place 11 (fieldA w).num ||| place 20 (fieldX w).toNat
      ||| place 21 (fieldSF w) ||| place 24 (fieldPG w) ||| place 30 (fieldZ w).toNat = w := by
  rw [place_fieldD, place_fieldA, place_fieldX, place_fieldSF, place_fieldPG, place_fieldZ]
  simp only [BitVec.or_assoc, ← BitVec.and_or_distrib_left]
  exact pattern_or_fields h rfl

/-- A row gives back the word it selects: the command it reads from the word is well formed and encodes to it. -/
def Row.RoundTrips (r : Row) : Prop :=
  ∀ w, w &&& r.mask = r.pattern → encode (r.make w) = w ∧ (r.make w).wellFormed = true

/-- Every row of R108, in the table's order, by its format. -/
theorem table_roundTrips : ∀ r ∈ table, r.RoundTrips := by
  simp only [table, List.forall_mem_cons, List.not_mem_nil, false_imp_iff, implies_true, and_true]
  exact ⟨
    fun _ h => ⟨encode_formatN h, rfl⟩,
    fun _ h => ⟨encode_formatDAB h, rfl⟩,
    fun w h => ⟨encode_formatDXW h, fitsW_fieldW w⟩,
    fun w h => ⟨encode_formatDXW h, fitsW_fieldW w⟩,
    fun w h => ⟨encode_formatAW h, fitsW_fieldW w⟩,
    fun w h => ⟨encode_formatAW h, fitsW_fieldW w⟩,
    fun _ h => ⟨encode_formatN h, rfl⟩,
    fun _ h => ⟨encode_formatD h, rfl⟩,
    fun _ h => ⟨encode_formatD h, rfl⟩,
    fun _ h => ⟨encode_formatD h, rfl⟩,
    fun _ h => ⟨encode_formatDS h, rfl⟩,
    fun _ h => ⟨encode_formatDA h, rfl⟩,
    fun _ h => ⟨encode_formatDA h, rfl⟩,
    fun _ h => ⟨encode_formatDA h, rfl⟩,
    fun _ h => ⟨encode_formatDA h, rfl⟩,
    fun _ h => ⟨encode_formatDA h, rfl⟩,
    fun _ h => ⟨encode_formatDA h, rfl⟩,
    fun _ h => ⟨encode_formatDA h, rfl⟩,
    fun _ h => ⟨encode_formatS h, rfl⟩,
    fun _ h => ⟨encode_formatDAS h, rfl⟩,
    fun _ h => ⟨encode_formatDAB h, rfl⟩,
    fun _ h => ⟨encode_formatDAB h, rfl⟩,
    fun w h => ⟨encode_formatSFB h, by simp [Instr.wellFormed, fitsSF_fieldSF, fitsPG_fieldPG]⟩,
    fun _ h => ⟨encode_formatD h, rfl⟩,
    fun _ h => ⟨encode_formatDA h, rfl⟩,
    fun _ h => ⟨encode_formatDA h, rfl⟩,
    fun _ h => ⟨encode_formatDABC h, rfl⟩,
    fun _ h => ⟨encode_formatDA h, rfl⟩⟩

/-- A word that decodes to a command has the pattern of a row of R108 under the row's mask (R109). -/
theorem decode_eq_instr {w : Word} {i : Instr} (h : decode w = .instr i) :
    ∃ r ∈ table, w &&& r.mask = r.pattern ∧ r.make w = i := by
  unfold decode at h
  cases hr : rowOf (opcodeOf w) with
  | none => simp [hr] at h
  | some r =>
    by_cases hm : w &&& r.mask = r.pattern
    · exact ⟨r, List.mem_of_find?_eq_some hr, hm, by simpa [hr, hm] using h⟩
    · simp [hr, hm] at h

/-- Settles O7: the word lies in one row of R108, and every row round-trips (`table_roundTrips`). -/
theorem encodeOfDecode : Obligations.EncodeOfDecode := by
  intro w i h
  obtain ⟨r, hr, hm, rfl⟩ := decode_eq_instr h
  exact table_roundTrips r hr w hm

end Sys2Proof

namespace Sys2Proof.Machine

/-! ### Lengths of the strings that the commands write -/

@[simp] theorem length_lfsrRun (l poly st n : Nat) : (lfsrRun l poly st n).1.length = n := by
  induction n generalizing st with
  | zero => rfl
  | succ n ih => simp [lfsrRun, ih]

@[simp] theorem length_bchEncode (n k mask : Nat) (m : Bits) : (bchEncode n k mask m).length = n :=
  length_lfsrRun ..

@[simp] theorem length_goldB1ILoop (mask g1 g2 n : Nat) : (goldB1ILoop mask g1 g2 n).length = n := by
  induction n generalizing g1 g2 with
  | zero => rfl
  | succ n ih => simp [goldB1ILoop, ih]

@[simp] theorem length_goldB3ILoop (i g1 g2 n : Nat) : (goldB3ILoop i g1 g2 n).length = n := by
  induction n generalizing i g1 g2 with
  | zero => rfl
  | succ n ih => simp [goldB3ILoop, ih]

@[simp] theorem length_interleave2 (a b : Bits) : (interleave2 a b).length = 2 * min a.length b.length := by
  simp [interleave2, List.length_flatMap, Nat.mul_comm]

@[simp] theorem length_fillRows (r : Nat) (x y : Bits) (n : Nat) : (fillRows r x y n).length = n := by
  induction n generalizing r x y with
  | zero => rfl
  | succ n ih => cases h : rowFromSF3 r <;> simp [fillRows, h, ih]

@[simp] theorem length_interleave36x48 (x y : Bits) : (interleave36x48 x y).length = 1728 := by
  simp [interleave36x48, readColumns, List.length_flatMap]

@[simp] theorem length_bch21 (m : Bits) : (bch21 m).length = 21 := length_bchEncode ..

@[simp] theorem length_bch51 (m : Bits) : (bch51 m).length = 51 := length_bchEncode ..

@[simp] theorem length_bch15 (m : Bits) : (bch15 m).length = 15 := length_bchEncode ..

@[simp] theorem length_bch15Registers (m : Bits) : (bch15Registers m).length = m.length + 4 := by
  simp [bch15Registers]

@[simp] theorem length_b1iWord (m : Bits) : (b1iWord m).length = 30 := by simp [b1iWord]

theorem length_b1iWord1_le (m : Bits) : (b1iWord1 m).length ≤ 30 := by
  simp [b1iWord1]

@[simp] theorem length_sealCrc (r : Bits) : (sealCrc r).length = r.length + 24 := by simp [sealCrc]

theorem length_addScaled_le (acc row : List Sym) (c : Sym) : (addScaled acc c row).length ≤ acc.length := by
  unfold addScaled
  split
  · exact le_refl _
  · simp

/-- Adding scaled rows never lengthens the sum. -/
theorem length_foldl_addScaled_le (ps : List (Sym × List Sym)) (acc : List Sym) :
    (ps.foldl (fun acc p => addScaled acc p.1 p.2) acc).length ≤ acc.length := by
  induction ps generalizing acc with
  | nil => exact le_refl _
  | cons p ps ih => exact (ih _).trans (length_addScaled_le _ _ _)

theorem length_ldpcEncode_le (s : State) (sl : Slot) (m : Bits) :
    (ldpcEncode s sl m).length ≤ m.length + 6 * slotSize sl := by
  have h : (paritySymbols (slotSize sl) (symbolsOf (slotSize sl) m) (matrixRows s .q sl)).length
      ≤ slotSize sl := by
    simpa [paritySymbols] using length_foldl_addScaled_le _ (List.replicate (slotSize sl) (0 : Sym))
  simpa [ldpcEncode, symbolBits, List.length_flatMap, Nat.mul_comm] using h

theorem slotSize_le (sl : Slot) : slotSize sl ≤ 100 := by cases sl <;> decide

/-! ### What one command can write (10_state.md R36–R47) -/

/-- `u` holds the writes of a command `i` begun in `s`, all checks passed and the status not yet set: a buffer
within the capacity, RESULT, LFSR_STATE, or the Q and the LDPC_VALID bit of a slot. -/
inductive CommandWrites (s : State) : Instr → State → Prop
  | nothing : CommandWrites s .nop s
  | buffer {i : Instr} (d : Buf) (x : Bits) (h : x.length ≤ Config.cap) : CommandWrites s i (setBuf s d x)
  | unpackU (a : Buf) (w : Nat) (r : Word) : CommandWrites s (.unpackU a w) { s with result := r }
  | unpackS (a : Buf) (w : Nat) (r : Word) : CommandWrites s (.unpackS a w) { s with result := r }
  | lfsrStep (st r : Word) : CommandWrites s .lfsrStep { s with lfsrState := st, result := r }
  | lfsrRun (d : Buf) (x : Bits) (st : Word) (h : x.length ≤ Config.cap) :
      CommandWrites s (.lfsrRun d) { setBuf s d x with lfsrState := st }
  | derive (sl : Slot) (rows : List (List Sym)) (h : derivedQ s sl = some rows) :
      CommandWrites s (.ldpcDerive sl) { setMatrix s .q sl rows with ldpcValid := markValid s.ldpcValid sl }

/-- A verdict of command `i` begun in `s` that makes no write but those of `CommandWrites`. -/
def Verdict.Writes (s : State) (i : Instr) : Verdict → Prop
  | .done u => CommandWrites s i u
  | .typed _ => True
  | .fatal _ => True

section
variable {s : State} {i : Instr}

@[simp] theorem writes_typed (c : TypedCode) : (Verdict.typed c).Writes s i := trivial

@[simp] theorem writes_fatal (c : FatalCode) : (Verdict.fatal c).Writes s i := trivial

theorem writes_ite {p : Prop} [Decidable p] {v v' : Verdict} (h : p → v.Writes s i) (h' : ¬p → v'.Writes s i) :
    (if p then v else v').Writes s i := by
  split
  · exact h ‹_›
  · exact h' ‹_›

/-- A check that raises a fatal failure leaves the verdict after it, for which the check has passed. -/
theorem writes_check {p : Prop} [Decidable p] {c : FatalCode} {v : Verdict} (h : ¬p → v.Writes s i) :
    (if p then .fatal c else v).Writes s i :=
  writes_ite (fun _ => trivial) h

theorem writes_setBuf {d : Buf} {x : Bits} {n : Nat} (h : x.length ≤ n) (hn : n ≤ Config.cap) :
    (Verdict.done (setBuf s d x)).Writes s i :=
  .buffer d x (h.trans hn)

theorem writes_encodeFixed {d a : Buf} {len n : Nat} {enc : Bits → Bits}
    (h : ∀ m : Bits, m.length = len → (enc m).length ≤ n) (hn : n ≤ Config.cap) :
    (encodeFixed s d a len enc).Writes s i :=
  writes_check fun hm => writes_setBuf (h _ (not_not.mp hm)) hn

theorem writes_packInto {d : Buf} {x : Bool} {f : Bits} : (packInto s d x f).Writes s i :=
  writes_check fun h => .buffer d _ (not_lt.mp h)

theorem writes_emitB1ISubframe {d : Buf} {x : Bool} {r : Bits} : (emitB1ISubframe s d x r).Writes s i :=
  writes_check fun h => .buffer d _ (not_lt.mp h)

theorem writes_ldpcEncode {d : Buf} {sl : Slot} {m : Bits} (h : m.length ≤ 600) :
    (Verdict.done (setBuf s d (ldpcEncode s sl m))).Writes s i := by
  have hk := slotSize_le sl
  exact writes_setBuf (n := 1200) ((length_ldpcEncode_le s sl m).trans (by omega)) (by decide)

theorem writes_sealAndEncode {d a : Buf} {len : Nat} {sl : Slot} (h : len ≤ 576) :
    (sealAndEncode s d a len sl).Writes s i :=
  writes_check fun hl => writes_check fun _ => writes_ldpcEncode (by
    rw [length_sealCrc, not_not.mp hl]; omega)

end

/-- Every command ends with a verdict that makes no write but those of `CommandWrites`. -/
theorem exec_writes (i : Instr) (s : State) : ∃ v, exec i s = conclude i s v ∧ v.Writes s i := by
  cases i with
  | nop => exact ⟨_, rfl, .nothing⟩
  | bufCat d a b =>
    exact ⟨_, rfl, writes_check fun h => .buffer d _ (by rw [List.length_append]; exact not_lt.mp h)⟩
  | packU d x w => exact ⟨_, rfl, writes_check fun _ => writes_check fun _ => writes_packInto⟩
  | packS d x w => exact ⟨_, rfl, writes_check fun _ => writes_packInto⟩
  | unpackU a w => exact ⟨_, rfl, writes_check fun _ => writes_check fun _ => .unpackU a w _⟩
  | unpackS a w => exact ⟨_, rfl, writes_check fun _ => writes_check fun _ => .unpackS a w _⟩
  | lfsrStep => exact ⟨_, rfl, writes_check fun _ => .lfsrStep _ _⟩
  | lfsrRun d =>
    exact ⟨_, rfl, writes_check fun _ => writes_check fun h =>
      .lfsrRun d _ _ (by rw [length_lfsrRun]; exact not_lt.mp h)⟩
  | goldB1I d =>
    exact ⟨_, rfl, writes_check fun h => .buffer d _ (by rw [length_goldB1ILoop]; exact not_lt.mp h)⟩
  | goldB3I d =>
    exact ⟨_, rfl, writes_check fun h => .buffer d _ (by rw [length_goldB3ILoop]; exact not_lt.mp h)⟩
  | weil d sel =>
    exact ⟨_, rfl, writes_check fun h =>
      .buffer d _ (by rw [List.length_map, List.length_range]; exact not_lt.mp h)⟩
  | bchGen d a =>
    exact ⟨_, rfl, writes_check fun _ => writes_check fun _ => writes_check fun _ => writes_check fun h =>
      .buffer d _ (by rw [length_bchEncode]; exact not_lt.mp h)⟩
  | bch21_6 d a => exact ⟨_, rfl, writes_encodeFixed (fun m _ => (length_bch21 m).le) (by decide)⟩
  | bch51_8 d a => exact ⟨_, rfl, writes_encodeFixed (fun m _ => (length_bch51 m).le) (by decide)⟩
  | bch15_11 d a => exact ⟨_, rfl, writes_encodeFixed (fun m _ => (length_bch15 m).le) (by decide)⟩
  | bch15_11HW d a =>
    exact ⟨_, rfl, writes_encodeFixed (n := 15) (fun m h => by rw [length_bch15Registers, h]) (by decide)⟩
  | bchB1I d a => exact ⟨_, rfl, writes_encodeFixed (fun m _ => (length_b1iWord m).le) (by decide)⟩
  | bchB1IW1 d a => exact ⟨_, rfl, writes_encodeFixed (fun m _ => length_b1iWord1_le m) (by decide)⟩
  | ldpcDerive sl =>
    refine ⟨_, rfl, ?_⟩
    cases h : derivedQ s sl with
    | none => trivial
    | some rows => exact .derive sl rows h
  | ldpcEnc d a sl =>
    have hk := slotSize_le sl
    exact ⟨_, rfl, writes_check fun h => writes_check fun _ => writes_ldpcEncode (by
      rw [not_not.mp h]; omega)⟩
  | intlvB1C d a b =>
    exact ⟨_, rfl, writes_check fun _ => writes_check fun _ =>
      writes_setBuf (length_interleave36x48 _ _).le (by decide)⟩
  | intlvB1I d a b =>
    exact ⟨_, rfl, writes_check fun h => writes_check fun _ =>
      writes_setBuf (n := 30) (by rw [length_interleave2, not_not.mp h]; omega) (by decide)⟩
  | sfB1I d a x sf pg z =>
    exact ⟨_, rfl, writes_ite (fun _ => trivial) fun _ => writes_ite (fun _ => trivial) fun _ =>
      writes_ite (fun _ => writes_emitB1ISubframe) fun _ => writes_check fun _ => writes_emitB1ISubframe⟩
  | sfB1C1 d =>
    exact ⟨_, rfl, writes_check fun _ => writes_check fun _ =>
      writes_setBuf (n := 72) (by rw [List.length_append, length_lfsrRun, length_lfsrRun]) (by decide)⟩
  | sfB1C2 d a => exact ⟨_, rfl, writes_sealAndEncode (by decide)⟩
  | sfB1C3 d a => exact ⟨_, rfl, writes_sealAndEncode (by decide)⟩
  | frameB1C d a b c =>
    exact ⟨_, rfl, writes_check fun h => writes_check fun _ => writes_check fun _ =>
      writes_setBuf (n := 1800) (by rw [List.length_append, length_interleave36x48, not_not.mp h]) (by decide)⟩
  | frameB1I d a =>
    exact ⟨_, rfl, writes_check fun h =>
      writes_setBuf (n := 1504) (by rw [List.length_append, length_zeros, not_not.mp h]) (by decide)⟩

/-- All that a command can do: it succeeds with its writes made, or it records a failure (R311–R314). -/
theorem exec_cases {i : Instr} {s t : State} (h : exec i s = .next t) :
    (∃ u, CommandWrites s i u ∧ t = complete u) ∨ (∃ c, t = raiseTyped c s)
      ∨ ∃ c, t = raiseFatal c (encode i) s := by
  obtain ⟨v, hv, hw⟩ := exec_writes i s
  rw [hv] at h
  obtain ⟨u, rfl, rfl⟩ | ⟨c, -, rfl⟩ | ⟨c, -, rfl⟩ := conclude_cases h
  · exact .inl ⟨u, hw, rfl⟩
  · exact .inr (.inl ⟨c, rfl⟩)
  · exact .inr (.inr ⟨c, rfl⟩)

/-! ### What no command writes -/

theorem element_index_lt {sl : Slot} {r c : Nat} (hr : r < slotSize sl) (hc : c < slotSize sl) :
    r * slotSize sl + c < slotSize sl * slotSize sl := by nlinarith

/-- States that agree on the bytes of a matrix agree on its elements. -/
theorem element_congr {s t : State} {mx : Matrix} {sl : Slot} {r c : Nat} (hr : r < slotSize sl)
    (hc : c < slotSize sl)
    (h : ∀ a, matrixBase mx sl ≤ a → a < matrixBase mx sl + slotSize sl * slotSize sl →
      readByte t.mem a = readByte s.mem a) : element t mx sl r c = element s mx sl r c := by
  have := element_index_lt hr hc
  rw [element, element, h _ (by omega) (by omega)]

/-- SetBuf leaves the bytes of every matrix alone (R41). -/
theorem readByte_setBuf_matrix (s : State) (d : Buf) (x : Bits) {mx : Matrix} {sl : Slot} {a : Nat}
    (h : matrixBase mx sl ≤ a) : readByte (setBuf s d x).mem a = readByte s.mem a := by
  have := bufBase_bounds d
  have := matrixBase_bounds mx sl
  exact readByte_setBuf_out s d x (by omega)

/-- A command leaves every byte of a matrix alone, unless the matrix is the Q that it derives (R44, R46). -/
theorem CommandWrites.readByte_matrix {s u : State} {i : Instr} (w : CommandWrites s i u) {mx : Matrix} {sl : Slot}
    (hne : mx ≠ .q ∨ i ≠ .ldpcDerive sl) {a : Nat} (h : matrixBase mx sl ≤ a)
    (h' : a < matrixBase mx sl + slotSize sl * slotSize sl) : readByte u.mem a = readByte s.mem a := by
  cases w with
  | nothing | unpackU | unpackS | lfsrStep => rfl
  | buffer d x => exact readByte_setBuf_matrix s d x h
  | lfsrRun d x => exact readByte_setBuf_matrix s d x h
  | derive sl' rows =>
    have hne' : Matrix.q ≠ mx ∨ sl' ≠ sl := hne.imp Ne.symm fun hi hsl => hi (hsl ▸ rfl)
    have := matrixBase_disjoint hne'
    exact readByte_replaceRange_out (by omega)

/-- LDPC_VALID of a slot is written by its own LDPC.DERIVE alone (R47). -/
theorem CommandWrites.slotValid_eq {s u : State} {i : Instr} (w : CommandWrites s i u) {sl : Slot}
    (hne : i ≠ .ldpcDerive sl) : slotValid u sl = slotValid s sl := by
  cases w with
  | derive sl' rows =>
    have hsl : sl ≠ sl' := fun hsl => hne (hsl ▸ rfl)
    simp [slotValid, hsl]
  | _ => rfl

/-- Settles O14: none of the writes of `CommandWrites` is to a register of the host, and H1 and H2 are apart from
every buffer and every Q (`CommandWrites.readByte_matrix`). -/
theorem commandsNeverWriteHostState : Obligations.CommandsNeverWriteHostState := by
  intro i s t h
  obtain ⟨u, w, rfl⟩ | ⟨c, rfl⟩ | ⟨c, rfl⟩ := exec_cases h
  · have hmx : ∀ (mx : Matrix) (sl : Slot) (r c : Nat), mx ≠ .q → r < slotSize sl → c < slotSize sl →
        element (complete u) mx sl r c = element s mx sl r c := fun mx sl r c hq hr hc =>
      element_congr hr hc fun _ h1 h2 => w.readByte_matrix (.inl hq) h1 h2
    have helem : ∀ sl r c, r < slotSize sl → c < slotSize sl →
        element (complete u) .h1 sl r c = element s .h1 sl r c
          ∧ element (complete u) .h2 sl r c = element s .h2 sl r c := fun sl r c hr hc =>
      ⟨hmx .h1 sl r c (by decide) hr hc, hmx .h2 sl r c (by decide) hr hc⟩
    cases w <;> exact ⟨rfl, rfl, rfl, rfl, rfl, rfl, rfl, rfl, rfl, helem⟩
  · exact ⟨rfl, rfl, rfl, rfl, rfl, rfl, rfl, rfl, rfl, fun _ _ _ _ _ => ⟨rfl, rfl⟩⟩
  · exact ⟨rfl, rfl, rfl, rfl, rfl, rfl, rfl, rfl, rfl, fun _ _ _ _ _ => ⟨rfl, rfl⟩⟩

/-- RESULT is written by LFSR.STEP, UNPACK.U and UNPACK.S alone (R37). -/
theorem CommandWrites.result_writer {s u : State} {i : Instr} (w : CommandWrites s i u)
    (h : u.result ≠ s.result) : i = .lfsrStep ∨ (∃ a w, i = .unpackU a w) ∨ ∃ a w, i = .unpackS a w := by
  cases w with
  | lfsrStep => exact .inl rfl
  | unpackU a w => exact .inr (.inl ⟨a, w, rfl⟩)
  | unpackS a w => exact .inr (.inr ⟨a, w, rfl⟩)
  | _ => exact absurd rfl h

/-- LFSR_STATE is written by LFSR.STEP and LFSR.RUN alone (R38). -/
theorem CommandWrites.lfsrState_writer {s u : State} {i : Instr} (w : CommandWrites s i u)
    (h : u.lfsrState ≠ s.lfsrState) : i = .lfsrStep ∨ ∃ d, i = .lfsrRun d := by
  cases w with
  | lfsrStep => exact .inl rfl
  | lfsrRun d => exact .inr ⟨d, rfl⟩
  | _ => exact absurd rfl h

/-- Settles O15: the writers of RESULT and LFSR_STATE are those of `CommandWrites`, and a slot's Q and LDPC_VALID
bit have one writer each; a failure writes none of them. -/
theorem onlyNamedCommandsWriteResultStateAndQ : Obligations.OnlyNamedCommandsWriteResultStateAndQ := by
  intro i s t h
  obtain ⟨u, w, rfl⟩ | ⟨c, rfl⟩ | ⟨c, rfl⟩ := exec_cases h
  · exact ⟨w.result_writer, w.lfsrState_writer, fun sl hne =>
      ⟨w.slotValid_eq hne, matrixRows_congr fun _ h1 h2 => w.readByte_matrix (.inr hne) h1 h2⟩⟩
  · exact ⟨fun hr => absurd rfl hr, fun hl => absurd rfl hl, fun _ _ => ⟨rfl, rfl⟩⟩
  · exact ⟨fun hr => absurd rfl hr, fun hl => absurd rfl hl, fun _ _ => ⟨rfl, rfl⟩⟩

end Sys2Proof.Machine

namespace Sys2Proof.Machine

open Sys2Proof.Spec

/-! ### One step on the next access (20_memory.md R70–R80) -/

section
variable {s : State} {rest : List HostAccess} {off : Nat} {w : Width}

theorem step_read {tg : Target} (hp : s.pending = .read off w :: rest) (hoff : off < windowSize)
    (ht : target off w = some tg) : step s = .next (answered s rest (.data (readTarget s tg))) := by
  simp only [step, hp, perform, performRead, if_neg (Nat.not_le.mpr hoff), ht]
  rfl

theorem step_write {tg : Target} {v : Word} (hp : s.pending = .write off w v :: rest) (hoff : off < windowSize)
    (ht : target off w = some tg) (hcmd : tg ≠ .reg .cmd) :
    step s = .next (writeTarget (answered s rest .written) v tg) := by
  simp only [step, hp, perform, performWrite, if_neg (Nat.not_le.mpr hoff), ht]
  cases tg with
  | reg r =>
    cases r with
    | cmd => exact absurd rfl hcmd
    | _ => rfl
  | _ => rfl

theorem step_command {v : Word} (hp : NextIsCommand s v rest) :
    step s = runCommand v (answered s rest .written) := by
  simp only [NextIsCommand] at hp
  simp only [step, hp]
  rfl

end

/-- Settles O9: the step takes the access from the queue, and the gate of `runCommand` lets the command through. -/
theorem stepRunsDecodedCommand : Obligations.StepRunsDecodedCommand := by
  intro s w i rest hp hf hd
  exact (step_command hp).trans (runCommand_instr (s := answered s rest .written) hf hd)

/-! ### Registers (10_state.md R31–R42) -/

theorem target_reg {off : Nat} (h : off < 0x1000) (h8 : off % 8 = 0) :
    target off .w8 = some (.reg (regAt off)) := by
  simp [target, h, h8]

section
variable {s : State} {rest : List HostAccess} {off : Nat}

theorem step_readReg (hp : s.pending = .read off .w8 :: rest) (h : off < 0x1000) (h8 : off % 8 = 0) :
    step s = .next (answered s rest (.data (readReg s (regAt off)))) :=
  step_read hp (h.trans (by decide)) (target_reg h h8)

theorem step_writeReg {v : Word} (hp : s.pending = .write off .w8 v :: rest) (h : off < 0x1000)
    (h8 : off % 8 = 0) (hcmd : regAt off ≠ .cmd) :
    step s = .next (writeReg (answered s rest .written) v (regAt off)) :=
  step_write hp (h.trans (by decide)) (target_reg h h8) (by simpa using hcmd)

/-- A register that takes a write and reads back: a write step, then a read step. -/
theorem step_write_read {t : State} {v x : Word} (hp : s.pending = .write off .w8 v :: .read off .w8 :: rest)
    (h : off < 0x1000) (h8 : off % 8 = 0) (hcmd : regAt off ≠ .cmd)
    (hw : writeReg (answered s (.read off .w8 :: rest) .written) v (regAt off)
      = answered t (.read off .w8 :: rest) .written)
    (hr : readReg (answered t (.read off .w8 :: rest) .written) (regAt off) = x) :
    step s = .next (answered t (.read off .w8 :: rest) .written)
      ∧ step (answered t (.read off .w8 :: rest) .written) = .next (answered t rest (.data x)) := by
  constructor
  · rw [step_writeReg hp h h8 hcmd, hw]
  · rw [step_readReg rfl h h8, hr]
    rfl

end

/-- LFSR_WIDTH keeps bits [6:0] of the value (R38). -/
theorem setWidth_seven (v : Word) : (v.setWidth 7).setWidth 64 = v &&& 0x7f := by
  apply BitVec.eq_of_toNat_eq
  have := Nat.and_two_pow_sub_one_eq_mod v.toNat 7
  simp at this ⊢
  omega

/-- Settles O20: the eight registers one by one, each by `step_write_read`. -/
theorem registerWritesReadBack : Obligations.RegisterWritesReadBack := by
  intro s t v x off rest hmem hp
  simp only [List.mem_cons, Prod.mk.injEq, List.not_mem_nil, or_false] at hmem
  obtain ⟨rfl, rfl, rfl⟩ | ⟨rfl, rfl, rfl⟩ | ⟨rfl, rfl, rfl⟩ | ⟨rfl, rfl, rfl⟩ | ⟨rfl, rfl, rfl⟩
    | ⟨rfl, rfl, rfl⟩ | ⟨rfl, rfl, rfl⟩ | ⟨rfl, rfl, rfl⟩ := hmem
  case inr.inr.inr.inl => exact step_write_read hp (by decide) rfl (by decide) rfl (setWidth_seven v)
  all_goals exact step_write_read hp (by decide) rfl (by decide) rfl rfl

theorem regAt_len (b : Buf) : regAt (0x080 + 8 * b.num) = .len b := by cases b <;> rfl

/-- Settles O21: the guard of the write is the bound of R42, and LEN holds every value within it. -/
theorem lenIsWriteAnyReadLegal : Obligations.LenIsWriteAnyReadLegal := by
  intro s b v rest hp
  have hb := Buf.num_lt b
  have hstep := step_writeReg hp (by omega) (by omega) (by simp [regAt_len])
  rw [regAt_len] at hstep
  constructor
  · intro hv
    refine ⟨setLen s.lens b (v.setWidth 15), hstep.trans ?_, ?_, fun b' hb' => getLen_setLen_other hb' _⟩
    · rw [writeReg, if_pos (show v.toNat ≤ Config.cap from hv)]
      rfl
    · rw [getLen_setLen_same, BitVec.toNat_setWidth, Nat.mod_eq_of_lt (by omega)]
  · intro hv
    rw [hstep, writeReg, if_neg (show ¬v.toNat ≤ Config.cap from not_le.mpr hv)]

/-! ### Matrix regions (20_memory.md R71, R75) -/

theorem regionAt_matrixBase (mx : Matrix) (sl : Slot) {idx : Nat} (h : idx < 0x4000) :
    regionAt (matrixBase mx sl + idx) = (mx, sl) := by
  have hdiv : (matrixBase mx sl + idx - 0x10000) / 0x4000 = (matrixBase mx sl - 0x10000) / 0x4000 := by
    cases mx <;> cases sl <;> simp only [matrixBase] <;> omega
  unfold regionAt
  rw [hdiv]
  cases mx <;> cases sl <;> rfl

/-- The matrix regions are the six of 0x4000 bytes from 0x10000 on (R71). -/
theorem matrixBase_region (mx : Matrix) (sl : Slot) : ∃ j < 6, matrixBase mx sl = 0x10000 + 0x4000 * j := by
  cases mx <;> cases sl
  exacts [⟨0, by decide, rfl⟩, ⟨3, by decide, rfl⟩, ⟨1, by decide, rfl⟩, ⟨4, by decide, rfl⟩,
    ⟨2, by decide, rfl⟩, ⟨5, by decide, rfl⟩]

theorem matrixRegion_bounds (mx : Matrix) (sl : Slot) {idx : Nat} (h : idx < 0x4000) :
    0x10000 ≤ matrixBase mx sl + idx ∧ matrixBase mx sl + idx < windowSize := by
  obtain ⟨j, hj, hbase⟩ := matrixBase_region mx sl
  rw [hbase, windowSize]
  omega

theorem target_matrix (mx : Matrix) (sl : Slot) {idx : Nat} (h : idx < 0x4000) :
    target (matrixBase mx sl + idx) .w1 = some (.matrixByte mx sl idx) := by
  obtain ⟨hlo, -⟩ := matrixRegion_bounds mx sl h
  have hidx : (matrixBase mx sl + idx - 0x10000) % 0x4000 = idx := by
    obtain ⟨j, -, hbase⟩ := matrixBase_region mx sl
    rw [hbase]
    omega
  rw [target, if_neg (by omega), if_neg (by omega), if_neg (by omega), if_pos rfl, regionAt_matrixBase mx sl h, hidx]

section
variable {s : State} {mx : Matrix} {sl : Slot} {idx : Nat} {rest : List HostAccess}

theorem step_readMatrix (h : idx < 0x4000) (hp : s.pending = .read (matrixBase mx sl + idx) .w1 :: rest) :
    step s = .next (answered s rest (.data (readTarget s (.matrixByte mx sl idx)))) := by
  exact step_read hp (matrixRegion_bounds mx sl h).2 (target_matrix mx sl h)

theorem step_writeMatrix {v : Word} (h : idx < 0x4000)
    (hp : s.pending = .write (matrixBase mx sl + idx) .w1 v :: rest) :
    step s = .next (writeMatrixByte (answered s rest .written) mx sl idx v) := by
  exact step_write hp (matrixRegion_bounds mx sl h).2 (target_matrix mx sl h) (by simp)

end

/-- Every element lies in its region: k² ≤ 0x4000. -/
theorem index_lt_region {sl : Slot} {idx : Nat} (h : idx < slotSize sl * slotSize sl) : idx < 0x4000 :=
  h.trans_le (by cases sl <;> decide)

/-- A byte below 64 is its low 6 bits. -/
theorem setWidth_six_of_lt {v : Byte} (h : v.toNat < 64) : (v.setWidth 6).setWidth 64 = v.setWidth 64 := by
  apply BitVec.eq_of_toNat_eq
  simp
  omega

/-- The byte that holds a symbol has the symbol in bits [5:0] (R75). -/
theorem setWidth_symbolByte (x : Sym) : (x.setWidth 8).setWidth 6 = x := by
  simp

/-- Settles O25: a read answers the byte, which the invariant bounds; a write is the write of `writeMatrixByte`. -/
theorem elementReadsAndWriteClearsValid : Obligations.ElementReadsAndWriteClearsValid := by
  constructor
  · intro s mx sl r c rest hinv hr hc hp
    have hidx := element_index_lt hr hc
    rw [step_readMatrix (index_lt_region hidx) hp, readTarget, if_pos hidx, element,
      setWidth_six_of_lt (hinv.symbols mx sl _ hidx)]
  · intro s mx sl r c v rest hq hr hc hp
    have hidx := element_index_lt hr hc
    refine ⟨writeByte s.mem (matrixBase mx sl + (r * slotSize sl + c)) ((v.setWidth 6).setWidth 8),
      clearValid s.ldpcValid sl, ?_, by simp, fun sl' hsl => by simp [hsl], ?_,
      fun a ha => readByte_writeByte_other ha⟩
    · rw [step_writeMatrix (index_lt_region hidx) hp, writeMatrixByte, if_pos ⟨hq, hidx⟩]
      rfl
    · rw [element, readByte_writeByte_same, setWidth_symbolByte]

/-- Settles O26: the guards of `writeMatrixByte` and of the read keep Q and the padding out. -/
theorem qAndPaddingIgnoreWrites : Obligations.QAndPaddingIgnoreWrites := by
  intro s mx sl idx v rest hidx hout
  constructor
  · intro hp
    have hguard : ¬(mx ≠ .q ∧ idx < slotSize sl * slotSize sl) := fun ⟨hq, hlt⟩ =>
      hout.elim hq fun hle => absurd hlt (not_lt.mpr hle)
    rw [step_writeMatrix hidx hp, writeMatrixByte, if_neg hguard]
  · intro hle hp
    rw [step_readMatrix hidx hp, readTarget, if_neg (not_lt.mpr hle)]

end Sys2Proof.Machine

namespace Sys2Proof.Machine

/-! ### What every step keeps, from what each kind of step keeps -/

theorem target_bufByte_bounds {off a : Nat} {w : Width} (h : target off w = some (.bufByte a)) :
    0x1000 ≤ a ∧ a < 0x5000 := by
  unfold target at h
  split_ifs at h <;> simp at h
  omega

theorem target_bufWord_bounds {off a : Nat} {w : Width} (h : target off w = some (.bufWord a)) :
    0x1000 ≤ a ∧ a + 8 ≤ 0x5000 := by
  unfold target at h
  split_ifs at h <;> simp at h
  omega

/-- A property of states that holds at reset and that each kind of change keeps: the queue and the answer, a host
write of an allowed target, and the end of a command that the fatal gate lets through. -/
structure StepClosed (P : State → Prop) : Prop where
  reset : P State.reset
  bookkeeping : ∀ {s} p r, P s → P { s with pending := p, response := r }
  register : ∀ {s} v r, r ≠ .ctrl → P s → P (writeReg s v r)
  bufByte : ∀ {s} a v, 0x1000 ≤ a → a < 0x5000 → P s → P { s with mem := writeByte s.mem a v }
  bufWord : ∀ {s} a v, 0x1000 ≤ a → a + 8 ≤ 0x5000 → P s → P { s with mem := writeBytes s.mem a (bigEndianBytes v) }
  matrixByte : ∀ {s} mx sl idx v, P s → P (writeMatrixByte s mx sl idx v)
  typed : ∀ {s} c, s.fatal = false → P s → P (raiseTyped c s)
  fatal : ∀ {s} c w, P s → P (raiseFatal c w s)
  done : ∀ {s u i}, s.fatal = false → CommandWrites s i u → P s → P (complete u)

namespace StepClosed
variable {P : State → Prop} (hP : StepClosed P)
include hP

/-- A write of CTRL is a reset or nothing (R34, R341). -/
theorem writeReg {s : State} (v : Word) (r : Reg) (h : P s) : P (writeReg s v r) := by
  by_cases hr : r = .ctrl
  · rw [hr, Machine.writeReg]
    split
    · exact hP.bookkeeping (s := State.reset) s.pending s.response hP.reset
    · exact h
  · exact hP.register v r hr h

theorem writeTarget {s : State} {v : Word} {off : Nat} {w : Width} {tg : Target} (ht : target off w = some tg)
    (h : P s) : P (writeTarget s v tg) := by
  cases tg with
  | reg r => exact hP.writeReg v r h
  | bufByte a => exact hP.bufByte a _ (target_bufByte_bounds ht).1 (target_bufByte_bounds ht).2 h
  | bufWord a => exact hP.bufWord a v (target_bufWord_bounds ht).1 (target_bufWord_bounds ht).2 h
  | matrixByte mx sl idx => exact hP.matrixByte mx sl idx v h

theorem runCommand {s t : State} {w : Word} (h : P s) (hr : runCommand w s = .next t) : P t := by
  obtain ⟨-, rfl⟩ | ⟨hf, -, rfl⟩ | ⟨-, -, rfl⟩ | ⟨i, hf, -, hexec⟩ := runCommand_cases hr
  · exact h
  · exact hP.typed _ hf h
  · exact hP.fatal _ _ h
  · obtain ⟨u, hw, rfl⟩ | ⟨c, rfl⟩ | ⟨c, rfl⟩ := exec_cases hexec
    · exact hP.done hf hw h
    · exact hP.typed _ hf h
    · exact hP.fatal _ _ h

theorem perform {s t : State} {a : HostAccess} (h : P s) (hp : perform s a = .next t) : P t := by
  cases a with
  | read off w =>
    obtain ⟨-, ⟨-, rfl⟩ | ⟨tg, -, rfl⟩⟩ := performRead_cases hp
    · exact hP.bookkeeping s.pending _ h
    · exact hP.bookkeeping s.pending _ h
  | write off w v =>
    obtain ⟨-, ⟨-, rfl⟩ | ⟨-, hr⟩ | ⟨tg, -, ht, rfl⟩⟩ := performWrite_cases hp
    · exact hP.bookkeeping s.pending _ h
    · exact hP.runCommand (hP.bookkeeping s.pending .written h) hr
    · exact hP.writeTarget ht (hP.bookkeeping s.pending .written h)
  | hardReset =>
    cases hp
    exact hP.bookkeeping (s := State.reset) s.pending .noResponse hP.reset

/-- A step keeps every property that each kind of change keeps. -/
theorem step {s t : State} (h : P s) (hs : step s = .next t) : P t := by
  unfold Machine.step at hs
  split at hs
  · cases hs; exact h
  · exact hP.perform (hP.bookkeeping _ s.response h) hs

end StepClosed

/-! ### The invariant (log entry 9; 10_state.md R33, R35, R42, R45) -/

/-- A value that the byte at offset `a` may hold: only storage holds a byte other than 0, and an element holds a
symbol. -/
structure ByteLegal (a : Nat) (v : Byte) : Prop where
  backed : v ≠ 0 → Backed a
  symbol : ∀ mx sl idx, idx < slotSize sl * slotSize sl → a = matrixBase mx sl + idx → v.toNat < 64

theorem byteLegal_zero (a : Nat) : ByteLegal a 0 :=
  ⟨fun h => absurd rfl h, fun _ _ _ _ _ => by decide⟩

/-- A byte of buffer storage may hold any value: it is no element. -/
theorem byteLegal_buffer {a : Nat} (v : Byte) (h : 0x1000 ≤ a) (h' : a < 0x5000) : ByteLegal a v where
  backed := fun _ => .inl ⟨h, h'⟩
  symbol := fun mx sl idx _ ha => by
    have := (matrixBase_bounds mx sl).1
    omega

theorem byteLegal_element {mx : Matrix} {sl : Slot} {idx : Nat} (x : Sym) (h : idx < slotSize sl * slotSize sl) :
    ByteLegal (matrixBase mx sl + idx) (x.setWidth 8) where
  backed := fun _ => .inr ⟨mx, sl, idx, h, rfl⟩
  symbol := fun _ _ _ _ _ => by
    have := x.isLt
    rw [BitVec.toNat_setWidth]
    omega

/-- The part of the invariant that speaks of memory. -/
structure MemLegal (m : Memory) : Prop where
  canonical : memWf m = true
  bytes : ∀ a, ByteLegal a (readByte m a)

theorem memLegal_nil : MemLegal [] := ⟨rfl, byteLegal_zero⟩

namespace MemLegal
variable {m : Memory} (h : MemLegal m)
include h

theorem replaceRange {lo n : Nat} {vs : List Byte}
    (hvs : ∀ i < n, ByteLegal (lo + i) (vs.getD i unlistedByte)) : MemLegal (replaceRange m lo n vs) where
  canonical := memWf_replaceRange h.canonical lo n vs
  bytes := fun a => by
    by_cases ha : a < lo ∨ lo + n ≤ a
    · rw [readByte_replaceRange_out ha]; exact h.bytes a
    · obtain ⟨i, rfl⟩ : ∃ i, a = lo + i := ⟨a - lo, by omega⟩
      have hi : i < n := by omega
      rw [readByte_replaceRange_in hi]; exact hvs i hi

theorem writeByte {a : Nat} {v : Byte} (hv : ByteLegal a v) : MemLegal (writeByte m a v) :=
  h.replaceRange fun i hi => by
    obtain rfl : i = 0 := by omega
    exact hv

theorem setBuf {s : State} (hs : m = s.mem) (d : Buf) (x : Bits) : MemLegal (setBuf s d x).mem := by
  subst hs
  have := bufBase_bounds d
  exact h.replaceRange fun i hi => byteLegal_buffer _ (by omega) (by omega)

theorem setMatrix {s : State} (hs : m = s.mem) (mx : Matrix) (sl : Slot) (rows : List (List Sym)) :
    MemLegal (setMatrix s mx sl rows).mem := by
  subst hs
  refine h.replaceRange fun i hi => ?_
  have hget := List.getD_map (l := rows.flatten) (d := (0 : Sym)) (n := i) fun x => x.setWidth 8
  rw [show unlistedByte = (0 : Sym).setWidth 8 from rfl, hget]
  exact byteLegal_element _ hi

end MemLegal

theorem MemLegal.writeBytes {m : Memory} (h : MemLegal m) {a : Nat} {vs : List Byte} (hlo : 0x1000 ≤ a)
    (hhi : a + vs.length ≤ 0x5000) : MemLegal (writeBytes m a vs) := by
  induction vs generalizing m a with
  | nil => exact h
  | cons v vs ih =>
    rw [List.length_cons] at hhi
    exact ih (h.writeByte (byteLegal_buffer v hlo (by omega))) (by omega) (by omega)

/-- The part of the invariant that speaks of LEN (R42). -/
def LensLegal (l : Lens) : Prop := ∀ b, (getLen l b).toNat ≤ Config.cap

theorem LensLegal.setLen {l : Lens} (h : LensLegal l) (b : Buf) {v : BitVec 15} (hv : v.toNat ≤ Config.cap) :
    LensLegal (setLen l b v) := by
  intro b'
  by_cases hb : b' = b
  · rw [hb, getLen_setLen_same]; exact hv
  · rw [getLen_setLen_other hb]; exact h b'

/-- The part of the invariant that speaks of STATUS and ERRCMD (R33, R35). -/
structure StatusLegal (code : Code) (failed : Bool) (word : Word) : Prop where
  fatal : failed = true ↔ ∃ c, code = .fatal c
  errcmd : failed = false → word = 0

/-- While FATAL is 0 any code that is not fatal may take the place of CODE. -/
theorem StatusLegal.withCode {code code' : Code} {errcmd : Word} (h : StatusLegal code false errcmd)
    (hc : ∀ c, code' ≠ .fatal c) : StatusLegal code' false errcmd :=
  ⟨by simpa using hc, h.errcmd⟩

theorem statusLegal_fatal (c : FatalCode) (w : Word) : StatusLegal (.fatal c) true w :=
  ⟨by simp, fun h => absurd h (by decide)⟩

/-- The invariant, part by part. -/
theorem inv_iff (s : State) :
    Inv s ↔ MemLegal s.mem ∧ LensLegal s.lens ∧ StatusLegal s.code s.fatal s.errcmd := by
  constructor
  · intro h
    refine ⟨⟨h.canonical, fun a => ⟨h.backed a, ?_⟩⟩, h.lengths, h.fatal, h.errcmd⟩
    rintro mx sl idx hidx rfl
    exact h.symbols mx sl idx hidx
  · rintro ⟨hm, hl, hs⟩
    exact ⟨hm.canonical, fun a => (hm.bytes a).backed,
      fun mx sl idx hidx => (hm.bytes _).symbol mx sl idx hidx rfl, hl, hs.fatal, hs.errcmd⟩

namespace Inv
variable {s : State} (h : Inv s)
include h

theorem memLegal : MemLegal s.mem := ((inv_iff s).mp h).1

theorem lensLegal : LensLegal s.lens := ((inv_iff s).mp h).2.1

theorem statusLegal : StatusLegal s.code s.fatal s.errcmd := ((inv_iff s).mp h).2.2

end Inv

theorem inv_reset : Inv State.reset :=
  (inv_iff _).mpr ⟨memLegal_nil, fun b => by cases b <;> decide, by simp [State.reset], fun _ => rfl⟩

theorem Inv.writeReg {s : State} (h : Inv s) (v : Word) {r : Reg} (hr : r ≠ .ctrl) : Inv (writeReg s v r) := by
  cases r with
  | ctrl => exact absurd rfl hr
  | len b =>
    rw [Machine.writeReg]
    split
    case isTrue hv =>
      have hmod : (v.setWidth 15).toNat ≤ Config.cap := by
        rw [BitVec.toNat_setWidth]; exact (Nat.mod_le _ _).trans hv
      exact (inv_iff _).mpr ⟨h.memLegal, h.lensLegal.setLen b hmod, h.statusLegal⟩
    · exact h
  | _ => exact (inv_iff _).mpr ⟨h.memLegal, h.lensLegal, h.statusLegal⟩

theorem Inv.writeMatrixByte {s : State} (h : Inv s) (mx : Matrix) (sl : Slot) (idx : Nat) (v : Word) :
    Inv (writeMatrixByte s mx sl idx v) := by
  rw [Machine.writeMatrixByte]
  split
  case isTrue hidx =>
    exact (inv_iff _).mpr ⟨h.memLegal.writeByte (byteLegal_element _ hidx.2), h.lensLegal, h.statusLegal⟩
  · exact h

theorem LensLegal.setBuf {s : State} (h : LensLegal s.lens) (d : Buf) {x : Bits} (hx : x.length ≤ Config.cap) :
    LensLegal (setBuf s d x).lens :=
  h.setLen d <| by rw [BitVec.toNat_ofNat]; exact (Nat.mod_le _ _).trans hx

/-- The writes of a command keep memory and LEN legal, and leave STATUS and ERRCMD alone (R311). -/
theorem CommandWrites.inv {s u : State} {i : Instr} (w : CommandWrites s i u) (h : Inv s) : Inv u := by
  have hm := h.memLegal
  have hl := h.lensLegal
  have hs := h.statusLegal
  apply (inv_iff u).mpr
  cases w with
  | nothing | unpackU | unpackS | lfsrStep => exact ⟨hm, hl, hs⟩
  | buffer d x hx => exact ⟨hm.setBuf rfl d x, hl.setBuf d hx, hs⟩
  | lfsrRun d x st hx => exact ⟨hm.setBuf rfl d x, hl.setBuf d hx, hs⟩
  | derive sl rows => exact ⟨hm.setMatrix rfl .q sl rows, hl, hs⟩

theorem CommandWrites.fatal_eq {s u : State} {i : Instr} (w : CommandWrites s i u) : u.fatal = s.fatal := by
  cases w <;> rfl

/-- A state in which FATAL is 0 still meets the invariant with a code that is not fatal (R311, R313). -/
theorem Inv.withCode {s : State} (h : Inv s) (hf : s.fatal = false) {code : Code} (hc : ∀ c, code ≠ .fatal c) :
    Inv { s with code := code } := by
  have hs := h.statusLegal
  rw [hf] at hs
  exact (inv_iff _).mpr ⟨h.memLegal, h.lensLegal, hf ▸ hs.withCode hc⟩

theorem inv_stepClosed : StepClosed Inv where
  reset := inv_reset
  bookkeeping := fun _ _ h => (inv_iff _).mpr ⟨h.memLegal, h.lensLegal, h.statusLegal⟩
  register := fun v _ hr h => h.writeReg v hr
  bufByte := fun a v hlo hhi h =>
    (inv_iff _).mpr ⟨h.memLegal.writeByte (byteLegal_buffer v hlo hhi), h.lensLegal, h.statusLegal⟩
  bufWord := fun a v hlo hhi h =>
    (inv_iff _).mpr ⟨h.memLegal.writeBytes hlo (by simpa [bigEndianBytes] using hhi), h.lensLegal, h.statusLegal⟩
  matrixByte := fun mx sl idx v h => h.writeMatrixByte mx sl idx v
  typed := fun c hf h => h.withCode hf (by simp)
  fatal := fun c w h => (inv_iff _).mpr ⟨h.memLegal, h.lensLegal, statusLegal_fatal c w⟩
  done := fun hf hw h => (hw.inv h).withCode (hw.fatal_eq.trans hf) (by simp)

/-- Settles O4: the invariant is `StepClosed`. -/
theorem stepKeepsInvariant : Obligations.StepKeepsInvariant := fun _ _ h hs => inv_stepClosed.step h hs

/-! ### Derived slots (10_state.md R45–R47, 45_ldpc.md R233) -/

/-- The elimination of n columns adds n pivot rows to the solved ones. -/
theorem length_eliminate {solved rest rows : List (List Sym)} {n : Nat} (h : eliminate solved rest n = some rows) :
    rows.length = solved.length + n := by
  induction n generalizing solved rest with
  | zero => cases h; rfl
  | succ n ih =>
    rw [eliminate] at h
    cases hp : takePivot rest with
    | none => simp [hp] at h
    | some p =>
      rw [hp] at h
      rw [ih h]
      simp
      omega

/-- A derived Q is a k by k matrix (R233). -/
theorem derivedQ_shape {s : State} {sl : Slot} {rows : List (List Sym)} (h : derivedQ s sl = some rows) :
    rows.length = slotSize sl ∧ ∀ row ∈ rows, row.length = slotSize sl := by
  obtain ⟨a, ha, rfl⟩ := Option.map_eq_some_iff.mp h
  have hlen : a.length = slotSize sl := by simpa using length_eliminate ha
  constructor
  · simp [transposeRows]
  · intro row hrow
    obtain ⟨i, -, rfl⟩ := List.mem_map.mp hrow
    rw [List.length_map, hlen]

/-- What derives is a function of the H1 and the H2 of the slot (R233). -/
theorem derivedQ_congr {s t : State} {sl : Slot} (h1 : matrixRows t .h1 sl = matrixRows s .h1 sl)
    (h2 : matrixRows t .h2 sl = matrixRows s .h2 sl) : derivedQ t sl = derivedQ s sl := by
  rw [derivedQ, derivedQ, h1, h2]

/-- `SlotsDerived` for one slot (R47). -/
def SlotDerived (s : State) (sl : Slot) : Prop :=
  slotValid s sl = true → derivedQ s sl = some (matrixRows s .q sl)

/-- A slot whose LDPC_VALID bit and matrices are unchanged stays derived. -/
theorem SlotDerived.congr {s t : State} {sl : Slot} (h : SlotDerived s sl) (hv : slotValid t sl = slotValid s sl)
    (hm : ∀ mx, matrixRows t mx sl = matrixRows s mx sl) : SlotDerived t sl := by
  intro hvalid
  rw [derivedQ_congr (hm .h1) (hm .h2), hm .q]
  exact h (hv ▸ hvalid)

/-- A change of memory outside the matrix regions leaves every slot derived. -/
theorem SlotsDerived.withMem {s : State} (h : SlotsDerived s) {m : Memory}
    (hm : ∀ a, 0x10000 ≤ a → readByte m a = readByte s.mem a) : SlotsDerived { s with mem := m } := fun sl =>
  SlotDerived.congr (h sl) rfl fun mx => matrixRows_congr fun a ha _ =>
    hm a ((matrixBase_bounds mx sl).1.trans ha)

theorem slotsDerived_reset : SlotsDerived State.reset := fun sl hv => by
  cases sl <;> exact absurd hv (by decide)

theorem SlotsDerived.writeReg {s : State} (h : SlotsDerived s) (v : Word) {r : Reg} (hr : r ≠ .ctrl) :
    SlotsDerived (writeReg s v r) := by
  cases r with
  | ctrl => exact absurd rfl hr
  | len b =>
    rw [Machine.writeReg]
    split <;> exact h
  | _ => exact h

/-- A host write of an element makes its slot invalid and leaves the other slot alone (R45). -/
theorem SlotsDerived.writeMatrixByte {s : State} (h : SlotsDerived s) (mx : Matrix) (sl : Slot) (idx : Nat)
    (v : Word) : SlotsDerived (writeMatrixByte s mx sl idx v) := by
  rw [Machine.writeMatrixByte]
  split
  case isTrue hidx =>
    intro sl'
    by_cases hsl : sl' = sl
    · intro hv
      simp [slotValid, hsl] at hv
    · refine SlotDerived.congr (h sl') (by simp [slotValid, hsl]) fun mx' => matrixRows_congr fun a h1 h2 => ?_
      have := matrixBase_disjoint (mx := mx) (mx' := mx') (.inr (Ne.symm hsl))
      exact readByte_writeByte_other (by omega)
  · exact h

/-- LDPC.DERIVE leaves its slot with the Q that derives, since it writes neither H1 nor H2 (R233); every other
write of a command leaves the slot alone. -/
theorem CommandWrites.slotsDerived {s u : State} {i : Instr} (w : CommandWrites s i u) (h : SlotsDerived s) :
    SlotsDerived u := by
  intro sl
  by_cases hi : i = .ldpcDerive sl
  · subst hi
    have hH : ∀ mx, mx ≠ .q → matrixRows u mx sl = matrixRows s mx sl := fun mx hq =>
      matrixRows_congr fun _ h1 h2 => w.readByte_matrix (.inl hq) h1 h2
    intro hv
    rw [derivedQ_congr (hH .h1 (by decide)) (hH .h2 (by decide))]
    cases w with
    | buffer d x => rw [matrixRows_setBuf]; exact h sl hv
    | derive _ rows hrows =>
      obtain ⟨hn, hr⟩ := derivedQ_shape hrows
      exact hrows.trans (congrArg some (matrixRows_setMatrix_same s .q sl hn hr).symm)
  · exact SlotDerived.congr (h sl) (w.slotValid_eq hi) fun mx =>
      matrixRows_congr fun _ h1 h2 => w.readByte_matrix (.inr hi) h1 h2

theorem slotsDerived_stepClosed : StepClosed SlotsDerived where
  reset := slotsDerived_reset
  bookkeeping := fun _ _ h => h
  register := fun v _ hr h => h.writeReg v hr
  bufByte := fun a v _ hhi h => h.withMem fun b hb => readByte_writeByte_other (by omega)
  bufWord := fun a v _ hhi h => h.withMem fun b hb =>
    readByte_writeBytes_out (by simp only [bigEndianBytes, List.length_map, List.length_range]; omega)
  matrixByte := fun mx sl idx v h => h.writeMatrixByte mx sl idx v
  typed := fun _ _ h => h
  fatal := fun _ _ h => h
  done := fun _ hw h => hw.slotsDerived h

/-- Settles O5: being derived is `StepClosed`. -/
theorem stepKeepsDerivedSlots : Obligations.StepKeepsDerivedSlots := fun _ _ h hs =>
  slotsDerived_stepClosed.step h hs

end Sys2Proof.Machine

/-! The memory family (20_memory.md): bus errors (O17), accesses outside the window (O18), reads have no side effect
(O19), reserved and read-only registers (O22), and the bytes and words of the buffer window (O23, O24). -/

namespace Sys2Proof.Machine

open Sys2Proof.Spec

/-! ### Which accesses are allowed (R71, R72) -/

theorem lt_windowSize_of_notAllowed {off : Nat} {w : Width} (h : NotAllowed off w) : off < windowSize := by
  rw [windowSize]
  obtain ⟨hlt, -⟩ | ⟨-, hlt, -⟩ | ⟨-, hlt⟩ | ⟨-, hlt, -⟩ := h <;> omega

/-- An access that its region does not allow reaches no target, region by region. -/
theorem target_eq_none_of_notAllowed {off : Nat} {w : Width} (h : NotAllowed off w) : target off w = none := by
  obtain ⟨hhi, hw⟩ | ⟨hlo, hhi, hw1, hw⟩ | ⟨hlo, hhi⟩ | ⟨hlo, -, hw⟩ := h
  case inl => rw [target, if_pos hhi, if_neg (not_and_or.mpr hw)]
  case inr.inl => rw [target, if_neg (by omega), if_pos hhi, if_neg hw1, if_neg (not_and_or.mpr hw)]
  case inr.inr.inl => rw [target, if_neg (by omega), if_neg (by omega), if_pos hhi]
  case inr.inr.inr => rw [target, if_neg (by omega), if_neg (by omega), if_neg (by omega), if_neg hw]

theorem target_bufByte {off : Nat} (hlo : 0x1000 ≤ off) (hhi : off < 0x5000) :
    target off .w1 = some (.bufByte off) := by
  rw [target, if_neg (by omega), if_pos hhi, if_pos rfl]

theorem target_bufWord {off : Nat} (hlo : 0x1000 ≤ off) (hhi : off < 0x5000) (h8 : off % 8 = 0) :
    target off .w8 = some (.bufWord off) := by
  rw [target, if_neg (by omega), if_pos hhi, if_neg (by decide), if_pos ⟨rfl, h8⟩]

/-! ### The answer of a read (R72, R79) -/

/-- What a read inside the window is answered. -/
def readAnswer (s : State) (off : Nat) (w : Width) : BusResponse :=
  match target off w with
  | none => .busError
  | some tg => .data (readTarget s tg)

/-- What a target reads as does not depend on the queue or on the last answer. -/
@[simp] theorem readTarget_answered (s : State) (rest : List HostAccess) (r : BusResponse) (tg : Target) :
    readTarget (answered s rest r) tg = readTarget s tg := by
  cases tg with
  | reg reg => cases reg <;> rfl
  | _ => rfl

@[simp] theorem readAnswer_answered (s : State) (rest : List HostAccess) (r : BusResponse) (off : Nat) (w : Width) :
    readAnswer (answered s rest r) off w = readAnswer s off w := by
  simp only [readAnswer, readTarget_answered]

section
variable {s : State} {rest : List HostAccess} {off : Nat} {w : Width}

theorem step_readAnswer (hp : s.pending = .read off w :: rest) (hoff : off < windowSize) :
    step s = .next (answered s rest (readAnswer s off w)) := by
  cases ht : target off w with
  | some tg => rw [step_read hp hoff ht, readAnswer, ht]
  | none =>
    simp only [step, hp, perform, performRead, if_neg (Nat.not_le.mpr hoff), readAnswer, ht]
    rfl

theorem step_write_busError {v : Word} (hp : s.pending = .write off w v :: rest) (hoff : off < windowSize)
    (ht : target off w = none) : step s = .next (answered s rest .busError) := by
  simp only [step, hp, perform, performWrite, if_neg (Nat.not_le.mpr hoff), ht]
  rfl

theorem step_read_outside (hp : s.pending = .read off w :: rest) (hoff : windowSize ≤ off) :
    step s = .fault (.outsideWindow off) := by
  simp only [step, hp, perform, performRead, if_pos hoff]

theorem step_write_outside {v : Word} (hp : s.pending = .write off w v :: rest) (hoff : windowSize ≤ off) :
    step s = .fault (.outsideWindow off) := by
  simp only [step, hp, perform, performWrite, if_pos hoff]

/-- A read that is answered lies in the window, and its answer is all that it changes (R79). -/
theorem step_read_next {t : State} (hp : s.pending = .read off w :: rest) (hs : step s = .next t) :
    off < windowSize ∧ t = answered s rest (readAnswer s off w) := by
  rcases Nat.lt_or_ge off windowSize with hoff | hoff
  · rw [step_readAnswer hp hoff, Host.Outcome.next.injEq] at hs
    exact ⟨hoff, hs.symm⟩
  · rw [step_read_outside hp hoff] at hs
    cases hs

end

/-- Settles O18: the bound of the window is the first check of a read and of a write. -/
theorem accessOutsideWindowFaults : Obligations.AccessOutsideWindowFaults := fun _ _ _ _ _ hoff =>
  ⟨fun hp => step_read_outside hp hoff, fun hp => step_write_outside hp hoff⟩

/-- Settles O17: an access that is not allowed reaches no target. -/
theorem busErrorsChangeNothing : Obligations.BusErrorsChangeNothing := by
  intro s off w v rest h
  constructor
  · intro hp
    rw [step_readAnswer hp (lt_windowSize_of_notAllowed h), readAnswer, target_eq_none_of_notAllowed h]
  · intro hp
    exact step_write_busError hp (lt_windowSize_of_notAllowed h) (target_eq_none_of_notAllowed h)

/-- Settles O19: a read only stores its answer, and the answer depends on neither the queue nor the last answer. -/
theorem readsHaveNoSideEffect : Obligations.ReadsHaveNoSideEffect := by
  intro s t off w rest hp hs
  obtain ⟨hoff, rfl⟩ := step_read_next hp hs
  refine ⟨rfl, ?_⟩
  have hagain : step (answered s (.read off w :: rest) (readAnswer s off w))
      = .next (answered s rest (readAnswer (answered s (.read off w :: rest) (readAnswer s off w)) off w)) :=
    step_readAnswer rfl hoff
  rwa [readAnswer_answered] at hagain

/-! ### Reserved and read-only registers (R73) -/

theorem regAt_reserved {off : Nat} (h : off = 0x070 ∨ off = 0x078 ∨ (0x0C0 ≤ off ∧ off ≤ 0xFF8)) :
    regAt off = .reserved := by
  unfold regAt
  split
  case h_23 => rfl
  all_goals omega

theorem writeReg_eq_self {r : Reg} (h : r ∈ [.status, .errcmd, .result, .ldpcValid, .reserved]) (s : State)
    (v : Word) : writeReg s v r = s := by
  simp only [List.mem_cons, List.not_mem_nil, or_false] at h
  obtain rfl | rfl | rfl | rfl | rfl := h <;> rfl

/-- STATUS is the code's value of R310, plus 256 when FATAL = 1 (R33). -/
theorem statusWord_eq (s : State) :
    statusWord s = BitVec.ofNat 64 (codeNumber s.code + 256 * s.fatal.toNat) := by
  rw [statusWord]
  generalize s.fatal = f
  cases s.code with
  | ok => cases f <;> rfl
  | typed c => cases f <;> cases c <;> rfl
  | fatal c => cases f <;> cases c <;> rfl

theorem ofNat_toNat_word (v : Word) : BitVec.ofNat 64 v.toNat = v := by
  rw [BitVec.ofNat_toNat, BitVec.setWidth_eq]

/-- Settles O22: each offset names its register by `regAt`, and the register reads or ignores by its own equation. -/
theorem reservedAndReadOnlyRegisters : Obligations.ReservedAndReadOnlyRegisters := by
  refine ⟨?reserved, ?ignored, ?values⟩
  case reserved =>
    intro s off rest h8 hoff hp
    rw [step_readReg hp (by omega) h8, regAt_reserved hoff, readReg]
  case ignored =>
    intro s off v rest h8 hoff hp
    have hreg : regAt off ∈ [.status, .errcmd, .result, .ldpcValid, .reserved] := by
      simp only [List.mem_cons, List.not_mem_nil, or_false] at hoff
      obtain h | h | h | rfl | rfl | rfl | rfl := hoff
      case inl => simp [regAt_reserved (.inl h)]
      case inr.inl => simp [regAt_reserved (.inr (.inl h))]
      case inr.inr.inl => simp [regAt_reserved (.inr (.inr h))]
      all_goals decide
    have hcmd : regAt off ≠ .cmd := fun h => absurd (h ▸ hreg) (by decide)
    have hlt : off < 0x1000 := by
      simp only [List.mem_cons, List.not_mem_nil, or_false] at hoff
      omega
    rw [step_writeReg hp hlt h8 hcmd, writeReg_eq_self hreg]
  case values =>
    intro s rest off n _ hoff hp
    simp only [List.mem_cons, List.not_mem_nil, or_false, Prod.mk.injEq] at hoff
    have hread : off < 0x1000 ∧ off % 8 = 0 ∧ readReg s (regAt off) = BitVec.ofNat 64 n := by
      obtain (⟨rfl, rfl⟩ | ⟨rfl, rfl⟩ | ⟨rfl, rfl⟩ | ⟨rfl, rfl⟩ | ⟨rfl, rfl⟩ | ⟨rfl, rfl⟩) | ⟨b, rfl, rfl⟩ := hoff
      · exact ⟨by decide, rfl, rfl⟩
      · exact ⟨by decide, rfl, rfl⟩
      · exact ⟨by decide, rfl, statusWord_eq s⟩
      · exact ⟨by decide, rfl, (ofNat_toNat_word s.errcmd).symm⟩
      · exact ⟨by decide, rfl, (ofNat_toNat_word s.result).symm⟩
      · exact ⟨by decide, rfl, (BitVec.ofNat_toNat 64 s.ldpcValid).symm⟩
      · have hb := Buf.num_lt b
        refine ⟨by omega, by omega, ?_⟩
        rw [regAt_len, readReg, bufLen, BitVec.ofNat_toNat]
    obtain ⟨hlt, h8, hval⟩ := hread
    rw [step_readReg hp hlt h8, hval]

/-! ### The buffer window (R74, R77) -/

section
variable {s : State} {rest : List HostAccess} {off : Nat}

theorem step_readBufByte (hlo : 0x1000 ≤ off) (hhi : off < 0x5000) (hp : s.pending = .read off .w1 :: rest) :
    step s = .next (answered s rest (.data ((readByte s.mem off).setWidth 64))) :=
  step_read hp (hhi.trans (by decide)) (target_bufByte hlo hhi)

theorem step_writeBufByte {v : Word} (hlo : 0x1000 ≤ off) (hhi : off < 0x5000)
    (hp : s.pending = .write off .w1 v :: rest) :
    step s = .next { answered s rest .written with mem := writeByte s.mem off (v.setWidth 8) } :=
  step_write hp (hhi.trans (by decide)) (target_bufByte hlo hhi) (by simp)

theorem step_readBufWord (hlo : 0x1000 ≤ off) (hhi : off < 0x5000) (h8 : off % 8 = 0)
    (hp : s.pending = .read off .w8 :: rest) :
    step s = .next (answered s rest (.data (bigEndian (readRange s.mem off 8)))) :=
  step_read hp (hhi.trans (by decide)) (target_bufWord hlo hhi h8)

theorem step_writeBufWord {v : Word} (hlo : 0x1000 ≤ off) (hhi : off < 0x5000) (h8 : off % 8 = 0)
    (hp : s.pending = .write off .w8 v :: rest) :
    step s = .next { answered s rest .written with mem := writeBytes s.mem off (bigEndianBytes v) } :=
  step_write hp (hhi.trans (by decide)) (target_bufWord hlo hhi h8) (by simp)

end

theorem bufBase_add_bounds (b : Buf) {j : Nat} (h : j < bufBytes) :
    0x1000 ≤ bufBase b + j ∧ bufBase b + j < 0x5000 := by
  have := bufBase_bounds b
  omega

/-- Settles O23: the access reaches the byte of `storageBit_byte`, which holds the eight storage bits. -/
theorem bufferByteHoldsEightBits : Obligations.BufferByteHoldsEightBits := by
  intro s b j v rest hj
  obtain ⟨hlo, hhi⟩ := bufBase_add_bounds b hj
  constructor
  · intro hp
    refine ⟨_, step_readBufByte hlo hhi hp, ?_, fun i hi => ?_⟩
    · have hbyte := (readByte s.mem (bufBase b + j)).isLt
      rw [BitVec.toNat_setWidth]
      omega
    · have hbit : 7 - i < 64 := by omega
      rw [storageBit_byte s b j hi, BitVec.getLsbD_setWidth, decide_eq_true hbit, Bool.true_and]
  · intro hp
    refine ⟨_, step_writeBufByte hlo hhi hp, fun i hi => ?_, fun a ha => readByte_writeByte_other ha⟩
    have hbit : 7 - i < 8 := by omega
    rw [storageBit_byte _ b j hi, readByte_writeByte_same, BitVec.getLsbD_setWidth, decide_eq_true hbit,
      Bool.true_and]

theorem bigEndian_append_singleton (vs : List Byte) (v : Byte) :
    bigEndian (vs ++ [v]) = bigEndian vs <<< 8 ||| v.setWidth 64 := by
  simp [bigEndian]

/-- Byte i of at most eight lies 8 bits above each byte after it (R74, R77). -/
theorem getLsbD_bigEndian {vs : List Byte} {i k : Nat} (hlen : vs.length ≤ 8) (hi : i < vs.length) (hk : k < 8) :
    (bigEndian vs).getLsbD (8 * (vs.length - 1 - i) + k) = (vs.getD i 0).getLsbD k := by
  induction vs using List.reverseRecOn with
  | nil => simp at hi
  | append_singleton vs v ih =>
    rw [List.length_append, List.length_singleton] at hlen hi ⊢
    rw [bigEndian_append_singleton, BitVec.getLsbD_or, BitVec.getLsbD_shiftLeft, BitVec.getLsbD_setWidth]
    rcases Nat.lt_or_ge i vs.length with hlt | hge
    · have hpos : 8 * (vs.length + 1 - 1 - i) + k = 8 * (vs.length - 1 - i) + k + 8 := by omega
      have hfit : 8 * (vs.length - 1 - i) + k + 8 < 64 := by omega
      have hhigh : v.getLsbD (8 * (vs.length - 1 - i) + k + 8) = false := BitVec.getLsbD_of_ge _ _ (by omega)
      rw [hpos, hhigh, List.getD_append _ _ _ _ hlt, ← ih (by omega) hlt]
      simp [hfit]
    · obtain rfl : i = vs.length := by omega
      have hfit : k < 64 := by omega
      simp [hk, hfit]

@[simp] theorem length_bigEndianBytes (v : Word) : (bigEndianBytes v).length = 8 := by simp [bigEndianBytes]

theorem getLsbD_bigEndianBytes (v : Word) {i k : Nat} (hi : i < 8) (hk : k < 8) :
    ((bigEndianBytes v).getD i unlistedByte).getLsbD k = v.getLsbD (8 * (7 - i) + k) := by
  have hshift : 56 - 8 * i = 8 * (7 - i) := by omega
  rw [List.getD_eq_getElem _ _ (by simpa using hi)]
  simp only [bigEndianBytes, List.getElem_map, List.getElem_range, BitVec.getLsbD_setWidth,
    BitVec.getLsbD_ushiftRight, hk, hshift, decide_true, Bool.true_and]

theorem getD_readRange (m : Memory) (lo : Nat) {n i : Nat} (h : i < n) :
    (readRange m lo n).getD i 0 = readByte m (lo + i) := by
  simp [readRange_eq, h]

/-- Settles O24: the access is the eight bytes from its offset on, which `bigEndian` and `bigEndianBytes` order. -/
theorem bufferWordIsEightBytes : Obligations.BufferWordIsEightBytes := by
  intro s o v rest hlo hhi h8
  constructor
  · intro hp
    refine ⟨_, step_readBufWord hlo hhi h8 hp, fun i k hi hk => ?_⟩
    have hbit := getLsbD_bigEndian (vs := readRange s.mem o 8) (by simp) (by simpa using hi) hk
    rwa [length_readRange, getD_readRange _ _ hi] at hbit
  · intro hp
    refine ⟨_, step_writeBufWord hlo hhi h8 hp, fun i k hi hk => ?_, fun a ha => ?_⟩
    · rw [readByte_writeBytes_in (by simpa using hi), getLsbD_bigEndianBytes v hi hk]
    · exact readByte_writeBytes_out (by simpa using ha)

end Sys2Proof.Machine

/-! The encoding family (30_encoding.md): decoding gives a well-formed command back (O6), the words of the spec decode
to their commands (O8), reserved opcodes are UNSUPPORTED (O11), and each row of R108 selects its own command (O12). -/

namespace Sys2Proof

/-! ### Fields of a word built from placed numbers (30_encoding.md R101, R102) -/

theorem field_and (lo n : Nat) (x y : Word) : field lo n (x &&& y) = field lo n x &&& field lo n y :=
  BitVec.extractLsb'_and

theorem toNat_field (lo n : Nat) (w : Word) : (field lo n w).toNat = w.toNat / 2 ^ lo % 2 ^ n := by
  simp [field, Nat.shiftRight_eq_div_pow]

/-- A number read back from the field that holds it. -/
theorem field_place_same {lo n : Nat} (h : lo + n ≤ 64) (v : Nat) : field lo n (place lo v) = BitVec.ofNat n v := by
  apply BitVec.eq_of_getLsbD_eq
  intro i hi
  have hlt : lo + i < 64 := by omega
  have hlt' : i < 64 := by omega
  simp [field, place, BitVec.getLsbD_ofNat, hi, hlt, hlt', -BitVec.getLsbD_eq_getElem]

/-- A number placed above a field leaves it 0. -/
theorem field_place_above {lo n lo' : Nat} (h : lo + n ≤ lo') (v : Nat) : field lo n (place lo' v) = 0 := by
  apply BitVec.eq_of_getLsbD_eq
  intro i hi
  have hlt : lo + i < lo' := by omega
  simp [field, place, hlt, -BitVec.getLsbD_eq_getElem]

/-- A word without bits from `lo` on has only zeros in a field there. -/
theorem field_of_lt {lo n : Nat} {w : Word} (h : w.toNat < 2 ^ lo) : field lo n w = 0 :=
  BitVec.eq_of_toNat_eq (by simp [toNat_field, Nat.div_eq_of_lt h])

/-- An opcode leaves every field above it 0. -/
theorem field_opcode {lo n : Nat} {p : Word} (hp : p.toNat < 2 ^ 8) (h : 8 ≤ lo) : field lo n p = 0 :=
  field_of_lt (hp.trans_le (Nat.pow_le_pow_right (by decide) h))

/-- A k-bit number placed below a field leaves it 0. -/
theorem field_place_below {lo n lo' k v : Nat} (hv : v < 2 ^ k) (h : lo' + k ≤ lo) : field lo n (place lo' v) = 0 := by
  apply field_of_lt
  calc (place lo' v).toNat ≤ v * 2 ^ lo' := by
        simpa [place, Nat.shiftLeft_eq] using Nat.mod_le _ _
    _ < 2 ^ k * 2 ^ lo' := Nat.mul_lt_mul_of_pos_right hv (Nat.two_pow_pos lo')
    _ = 2 ^ (lo' + k) := by rw [Nat.add_comm, Nat.pow_add]
    _ ≤ 2 ^ lo := Nat.pow_le_pow_right (by decide) h

theorem field_place_buf_below {lo n lo' : Nat} (h : lo' + 3 ≤ lo) (b : Buf) : field lo n (place lo' b.num) = 0 :=
  field_place_below (Machine.Buf.num_lt b) h

theorem field_place_bool_below {lo n lo' : Nat} (h : lo' + 1 ≤ lo) (x : Bool) :
    field lo n (place lo' x.toNat) = 0 :=
  field_place_below (Bool.toNat_lt x) h

@[simp] theorem Buf.ofField_ofNat_num (b : Buf) : Buf.ofField (BitVec.ofNat 3 b.num) = b := by cases b <;> rfl

@[simp] theorem Slot.ofField_ofNat_num (sl : Slot) : Slot.ofField (BitVec.ofNat 1 sl.num) = sl := by cases sl <;> rfl

@[simp] theorem WeilLen.ofField_ofNat_num (sel : WeilLen) : WeilLen.ofField (BitVec.ofNat 1 sel.num) = sel := by
  cases sel <;> rfl

@[simp] theorem ofNat_toNat_beq_one (x : Bool) : (BitVec.ofNat 1 x.toNat == 1#1) = x := by cases x <;> rfl

/-! One lemma per format of R107: the operands read from an opcode and placed numbers are the numbers placed. The
function `f` stands for the command's constructor. -/

section
variable {p : Word} (hp : p.toNat < 2 ^ 8)
include hp

theorem read_formatD (f : Buf → Instr) (d : Buf) : f (fieldD (p ||| place 8 d.num)) = f d := by
  simp [fieldD, field_or, field_opcode hp, field_place_same]

theorem read_formatDA (f : Buf → Buf → Instr) (d a : Buf) :
    (fun w => f (fieldD w) (fieldA w)) (p ||| place 8 d.num ||| place 11 a.num) = f d a := by
  simp [fieldD, fieldA, field_or, field_opcode hp, field_place_same, field_place_above, field_place_buf_below]

theorem read_formatDAB (f : Buf → Buf → Buf → Instr) (d a b : Buf) :
    (fun w => f (fieldD w) (fieldA w) (fieldB w)) (p ||| place 8 d.num ||| place 11 a.num ||| place 14 b.num)
      = f d a b := by
  simp [fieldD, fieldA, fieldB, field_or, field_opcode hp, field_place_same, field_place_above,
    field_place_buf_below]

theorem read_formatDABC (f : Buf → Buf → Buf → Buf → Instr) (d a b c : Buf) :
    (fun w => f (fieldD w) (fieldA w) (fieldB w) (fieldC w))
      (p ||| place 8 d.num ||| place 11 a.num ||| place 14 b.num ||| place 17 c.num) = f d a b c := by
  simp [fieldD, fieldA, fieldB, fieldC, field_or, field_opcode hp, field_place_same, field_place_above,
    field_place_buf_below]

theorem read_formatDXW (f : Buf → Bool → Nat → Instr) (d : Buf) (x : Bool) {n : Nat} (hn : fitsW n = true) :
    (fun w => f (fieldD w) (fieldX w) (fieldW w)) (p ||| place 8 d.num ||| place 20 x.toNat ||| place 21 n)
      = f d x n := by
  simp [fieldD, fieldX, fieldW, field_or, field_opcode hp, field_place_same, field_place_above,
    field_place_buf_below, field_place_bool_below, Nat.mod_eq_of_lt (of_decide_eq_true hn)]

theorem read_formatAW (f : Buf → Nat → Instr) (a : Buf) {n : Nat} (hn : fitsW n = true) :
    (fun w => f (fieldA w) (fieldW w)) (p ||| place 11 a.num ||| place 21 n) = f a n := by
  simp [fieldA, fieldW, field_or, field_opcode hp, field_place_same, field_place_above, field_place_buf_below,
    Nat.mod_eq_of_lt (of_decide_eq_true hn)]

theorem read_formatDS (f : Buf → WeilLen → Instr) (d : Buf) (sel : WeilLen) :
    (fun w => f (fieldD w) (WeilLen.ofField (fieldS w))) (p ||| place 8 d.num ||| place 21 sel.num) = f d sel := by
  simp [fieldD, fieldS, field_or, field_opcode hp, field_place_same, field_place_above, field_place_buf_below]

theorem read_formatS (f : Slot → Instr) (sl : Slot) : f (Slot.ofField (fieldS (p ||| place 21 sl.num))) = f sl := by
  simp [fieldS, field_or, field_opcode hp, field_place_same]

theorem read_formatDAS (f : Buf → Buf → Slot → Instr) (d a : Buf) (sl : Slot) :
    (fun w => f (fieldD w) (fieldA w) (Slot.ofField (fieldS w)))
      (p ||| place 8 d.num ||| place 11 a.num ||| place 21 sl.num) = f d a sl := by
  simp [fieldD, fieldA, fieldS, field_or, field_opcode hp, field_place_same, field_place_above,
    field_place_buf_below]

theorem read_formatSFB (f : Buf → Buf → Bool → Nat → Nat → Bool → Instr) (d a : Buf) (x z : Bool) {sf pg : Nat}
    (hsf : fitsSF sf = true) (hpg : fitsPG pg = true) :
    (fun w => f (fieldD w) (fieldA w) (fieldX w) (fieldSF w) (fieldPG w) (fieldZ w))
      (p ||| place 8 d.num ||| place 11 a.num ||| place 20 x.toNat ||| place 21 sf ||| place 24 pg
        ||| place 30 z.toNat) = f d a x sf pg z := by
  have hsf : sf < 8 := of_decide_eq_true hsf
  have hpg : pg < 64 := of_decide_eq_true hpg
  simp [fieldD, fieldA, fieldX, fieldSF, fieldPG, fieldZ, field_or, field_opcode hp, field_place_same,
    field_place_above, field_place_buf_below, field_place_bool_below, field_place_below (k := 3) hsf,
    field_place_below (k := 6) hpg, Nat.mod_eq_of_lt hsf, Nat.mod_eq_of_lt hpg]

end

/-! ### The row of an opcode (R108, R109) -/

/-- A mask that covers the opcode keeps it. -/
theorem opcodeOf_and {m : Word} (hm : opcodeOf m = 0xff) (w : Word) : opcodeOf (w &&& m) = opcodeOf w := by
  rw [opcodeOf] at hm
  rw [opcodeOf, opcodeOf, field_and, hm]
  exact BitVec.and_allOnes

theorem toNat_opcodeOf (w : Word) : (opcodeOf w).toNat = w.toNat % 256 := by simp [opcodeOf, toNat_field]

/-- No two rows of R108 have the same opcode, so a row is its own opcode's. -/
theorem rowOf_of_mem : ∀ r ∈ table, rowOf (opcodeOf r.pattern) = some r := by
  simp only [table, List.forall_mem_cons, List.not_mem_nil, false_imp_iff, implies_true, and_true]
  and_intros <;> rfl

theorem mem_of_rowOf {op : BitVec 8} {r : Row} (h : rowOf op = some r) : r ∈ table := List.mem_of_find?_eq_some h

theorem opcodeOf_mask : ∀ r ∈ table, opcodeOf r.mask = 0xff := by decide

/-- Decoding a word with a row's opcode: the row's mask decides (R109). -/
theorem decode_of_opcode {r : Row} (hr : r ∈ table) {w : Word} (h : opcodeOf w = opcodeOf r.pattern) :
    decode w = if w &&& r.mask = r.pattern then .instr (r.make w) else .badCmd := by
  rw [decode, h, rowOf_of_mem r hr]

/-- A word that meets `(CMD AND mask) = match` for a row decodes to the row's command. -/
theorem decode_of_match {r : Row} (hr : r ∈ table) {w : Word} (h : w &&& r.mask = r.pattern) :
    decode w = .instr (r.make w) := by
  rw [decode_of_opcode hr (by rw [← h, opcodeOf_and (opcodeOf_mask r hr)]), if_pos h]

/-! ### Decoding an encoding -/

/-- A command decodes from its encoding when the encoding meets the row's match and the row reads the command back. -/
theorem decode_encode_of_row {op : BitVec 8} {r : Row} {i : Instr} (hr : rowOf op = some r)
    (hmatch : encode i &&& r.mask = r.pattern) (hmake : r.make (encode i) = i) : decode (encode i) = .instr i := by
  rw [decode_of_match (mem_of_rowOf hr) hmatch, hmake]

/-- Settles O6: each command by its row of R108, whose match its encoding meets (`EncodingInRow`) and whose format
reads its operands back. -/
theorem decodeOfEncode : Obligations.DecodeOfEncode := by
  intro i h
  cases i with
  | nop => exact decode_encode_of_row (op := 0x00) rfl (Laws.EncodingInRow.nop h) rfl
  | bufCat d a b =>
    exact decode_encode_of_row (op := 0x01) rfl (Laws.EncodingInRow.bufCat d a b h)
      (read_formatDAB (by decide) .bufCat d a b)
  | packU d x w =>
    exact decode_encode_of_row (op := 0x08) rfl (Laws.EncodingInRow.packU d x w h)
      (read_formatDXW (by decide) .packU d x h)
  | packS d x w =>
    exact decode_encode_of_row (op := 0x09) rfl (Laws.EncodingInRow.packS d x w h)
      (read_formatDXW (by decide) .packS d x h)
  | unpackU a w =>
    exact decode_encode_of_row (op := 0x0a) rfl (Laws.EncodingInRow.unpackU a w h)
      (read_formatAW (by decide) .unpackU a h)
  | unpackS a w =>
    exact decode_encode_of_row (op := 0x0b) rfl (Laws.EncodingInRow.unpackS a w h)
      (read_formatAW (by decide) .unpackS a h)
  | lfsrStep => exact decode_encode_of_row (op := 0x10) rfl (Laws.EncodingInRow.lfsrStep h) rfl
  | lfsrRun d =>
    exact decode_encode_of_row (op := 0x11) rfl (Laws.EncodingInRow.lfsrRun d h)
      (read_formatD (by decide) .lfsrRun d)
  | goldB1I d =>
    exact decode_encode_of_row (op := 0x18) rfl (Laws.EncodingInRow.goldB1I d h)
      (read_formatD (by decide) .goldB1I d)
  | goldB3I d =>
    exact decode_encode_of_row (op := 0x19) rfl (Laws.EncodingInRow.goldB3I d h)
      (read_formatD (by decide) .goldB3I d)
  | weil d sel =>
    exact decode_encode_of_row (op := 0x1a) rfl (Laws.EncodingInRow.weil d sel h)
      (read_formatDS (by decide) .weil d sel)
  | bchGen d a =>
    exact decode_encode_of_row (op := 0x20) rfl (Laws.EncodingInRow.bchGen d a h)
      (read_formatDA (by decide) .bchGen d a)
  | bch21_6 d a =>
    exact decode_encode_of_row (op := 0x21) rfl (Laws.EncodingInRow.bch21_6 d a h)
      (read_formatDA (by decide) .bch21_6 d a)
  | bch51_8 d a =>
    exact decode_encode_of_row (op := 0x22) rfl (Laws.EncodingInRow.bch51_8 d a h)
      (read_formatDA (by decide) .bch51_8 d a)
  | bch15_11 d a =>
    exact decode_encode_of_row (op := 0x23) rfl (Laws.EncodingInRow.bch15_11 d a h)
      (read_formatDA (by decide) .bch15_11 d a)
  | bch15_11HW d a =>
    exact decode_encode_of_row (op := 0x24) rfl (Laws.EncodingInRow.bch15_11HW d a h)
      (read_formatDA (by decide) .bch15_11HW d a)
  | bchB1I d a =>
    exact decode_encode_of_row (op := 0x25) rfl (Laws.EncodingInRow.bchB1I d a h)
      (read_formatDA (by decide) .bchB1I d a)
  | bchB1IW1 d a =>
    exact decode_encode_of_row (op := 0x26) rfl (Laws.EncodingInRow.bchB1IW1 d a h)
      (read_formatDA (by decide) .bchB1IW1 d a)
  | ldpcDerive sl =>
    exact decode_encode_of_row (op := 0x28) rfl (Laws.EncodingInRow.ldpcDerive sl h)
      (read_formatS (by decide) .ldpcDerive sl)
  | ldpcEnc d a sl =>
    exact decode_encode_of_row (op := 0x29) rfl (Laws.EncodingInRow.ldpcEnc d a sl h)
      (read_formatDAS (by decide) .ldpcEnc d a sl)
  | intlvB1C d a b =>
    exact decode_encode_of_row (op := 0x30) rfl (Laws.EncodingInRow.intlvB1C d a b h)
      (read_formatDAB (by decide) .intlvB1C d a b)
  | intlvB1I d a b =>
    exact decode_encode_of_row (op := 0x31) rfl (Laws.EncodingInRow.intlvB1I d a b h)
      (read_formatDAB (by decide) .intlvB1I d a b)
  | sfB1I d a x sf pg z =>
    obtain ⟨hsf, hpg⟩ := Bool.and_eq_true_iff.mp h
    exact decode_encode_of_row (op := 0x38) rfl (Laws.EncodingInRow.sfB1I d a x sf pg z h)
      (read_formatSFB (by decide) .sfB1I d a x z hsf hpg)
  | sfB1C1 d =>
    exact decode_encode_of_row (op := 0x39) rfl (Laws.EncodingInRow.sfB1C1 d h)
      (read_formatD (by decide) .sfB1C1 d)
  | sfB1C2 d a =>
    exact decode_encode_of_row (op := 0x3a) rfl (Laws.EncodingInRow.sfB1C2 d a h)
      (read_formatDA (by decide) .sfB1C2 d a)
  | sfB1C3 d a =>
    exact decode_encode_of_row (op := 0x3b) rfl (Laws.EncodingInRow.sfB1C3 d a h)
      (read_formatDA (by decide) .sfB1C3 d a)
  | frameB1C d a b c =>
    exact decode_encode_of_row (op := 0x3c) rfl (Laws.EncodingInRow.frameB1C d a b c h)
      (read_formatDABC (by decide) .frameB1C d a b c)
  | frameB1I d a =>
    exact decode_encode_of_row (op := 0x3d) rfl (Laws.EncodingInRow.frameB1I d a h)
      (read_formatDA (by decide) .frameB1I d a)

/-- Settles O8: each word is the encoding of its command. -/
theorem knownWordsDecode : Obligations.KnownWordsDecode :=
  ⟨decodeOfEncode .nop rfl, decodeOfEncode (.bufCat .b5 .b3 .b4) rfl, decodeOfEncode (.packU .b0 true 11) rfl,
    decodeOfEncode (.unpackU .b0 4) rfl, decodeOfEncode (.weil .b4 .sub) rfl, decodeOfEncode (.bchB1I .b1 .b0) rfl,
    decodeOfEncode (.ldpcEnc .b1 .b0 .s1) rfl, decodeOfEncode (.sfB1I .b7 .b0 false 4 12 true) rfl,
    decodeOfEncode (.frameB1C .b7 .b0 .b1 .b2) rfl⟩

end Sys2Proof

namespace Sys2Proof.Machine

open Sys2Proof.Spec

/-! ### Words that decode to no command (R109, R110) -/

section
variable {s : State} {w : Word} {rest : List HostAccess}

theorem step_unsupported (hp : NextIsCommand s w rest) (hf : s.fatal = false) (hd : decode w = .unsupported) :
    step s = .next (typedRecord .unsupported (answered s rest .written)) := by
  rw [step_command hp, runCommand_unsupported (s := answered s rest .written) hf hd, raiseTyped_eq]

theorem step_badCmd (hp : NextIsCommand s w rest) (hf : s.fatal = false) (hd : decode w = .badCmd) :
    step s = .next (fatalRecord .badCmd w (answered s rest .written)) := by
  rw [step_command hp, runCommand_badCmd (s := answered s rest .written) hf hd, raiseFatal_eq]

end

theorem table_not_reserved : ∀ r ∈ table, ¬ ReservedOpcode (opcodeOf r.pattern).toNat := by
  unfold ReservedOpcode
  decide

/-- A reserved opcode has no row, whatever the other bits hold. -/
theorem decode_reserved {w : Word} (h : ReservedOpcode (w.toNat % 256)) : decode w = .unsupported := by
  have hrow : rowOf (opcodeOf w) = none := by
    apply List.find?_eq_none.mpr
    intro r hr heq
    rw [← toNat_opcodeOf, ← beq_iff_eq.mp heq] at h
    exact table_not_reserved r hr h
  rw [decode, hrow]

/-- Settles O11: no row of R108 has a reserved opcode (`table_not_reserved`). -/
theorem reservedOpcodesAreUnsupported : Obligations.ReservedOpcodesAreUnsupported :=
  fun _ _ _ hp hf hop => step_unsupported hp hf (decode_reserved hop)

/-! ### The table of the spec (R101, R102, R108) -/

/-- The eight buffers in the order of their numbers. -/
theorem bufOfField_eq_getD (v : BitVec 3) :
    Buf.ofField v = [Buf.b0, .b1, .b2, .b3, .b4, .b5, .b6, .b7].getD v.toNat .b0 := by
  revert v; decide

theorem bufOfField_field (lo : Nat) (w : Word) : Buf.ofField (field lo 3 w) = bufAt lo w := by
  rw [bufOfField_eq_getD, toNat_field]; rfl

theorem field_one (lo : Nat) (w : Word) : field lo 1 w = BitVec.ofBool (w.getLsbD lo) := by
  apply BitVec.eq_of_getLsbD_eq
  intro i hi
  obtain rfl : i = 0 := by omega
  simp [field, -BitVec.getLsbD_eq_getElem]

theorem field_one_beq_one (lo : Nat) (w : Word) : (field lo 1 w == 1) = w.getLsbD lo := by
  rw [field_one]; cases w.getLsbD lo <;> rfl

theorem slotOfField_fieldS (w : Word) : Slot.ofField (fieldS w) = slotAt w := by
  rw [fieldS, field_one, slotAt]; cases w.getLsbD 21 <;> rfl

theorem weilLenOfField_fieldS (w : Word) :
    WeilLen.ofField (fieldS w) = if w.getLsbD 21 then .sub else .main := by
  rw [fieldS, field_one]; cases w.getLsbD 21 <;> rfl

/-- The decoder's table is R108 with the operands read as the spec's formulas say. -/
theorem rows_eq_table : rows = table.map fun r => (r.pattern, r.mask, r.make) := by
  simp only [table, List.map_cons, List.map_nil, fieldD, fieldA, fieldB, fieldC, fieldX, fieldW, fieldSF, fieldPG,
    fieldZ, bufOfField_field, field_one_beq_one, slotOfField_fieldS, weilLenOfField_fieldS, toNat_field]
  rfl

/-- Settles O12: the word has the row's opcode, so its mask decides (`decode_of_opcode`). -/
theorem definedOpcodesSelectByMask : Obligations.DefinedOpcodesSelectByMask := by
  rw [Obligations.DefinedOpcodesSelectByMask, rows_eq_table, List.forall_mem_map]
  intro r hr s w rest hop
  have hdecode := decode_of_opcode hr (w := w) (by rw [← show w &&& 0xff = r.pattern from hop, opcodeOf_and rfl])
  exact ⟨fun hmatch => by rw [hdecode, if_pos hmatch],
    fun hmatch hp hf => step_badCmd hp hf (by rw [hdecode, if_neg hmatch])⟩

end Sys2Proof.Machine

/-! The buffers family (40_buffers.md): BUF.CAT (O28) and NOP (O27). -/

namespace Sys2Proof.Machine

/-! ### A command whose last check is the capacity of the string it writes (10_state.md R41) -/

section
variable (i : Instr) (s : State) (d : Buf) {x : Bits} {n : Nat}

theorem conclude_of_le_cap (hn : x.length = n) (hfits : n ≤ Config.cap) :
    ∃ t, conclude i s (if n > Config.cap then .fatal .capacity else .done (setBuf s d x)) = .next t
      ∧ WroteBuffer d x s t :=
  conclude_setBuf (if_neg (not_lt.mpr hfits)) (hn.trans_le hfits)

theorem conclude_of_cap_lt (hlong : Config.cap < n) :
    conclude i s (if n > Config.cap then .fatal .capacity else .done (setBuf s d x))
      = .next (fatalRecord .capacity (encode i) s) := by
  rw [if_pos hlong, conclude_next, endState_fatal, raiseFatal_eq]

end

/-! ### The commands (R130, R131) -/

/-- BUF.CAT checks the sum of the source lengths, and reads both sources before it writes (R131). -/
theorem exec_bufCat (d a b : Buf) (s : State) :
    exec (.bufCat d a b) s = conclude (.bufCat d a b) s
      (if bufLen s a + bufLen s b > Config.cap then .fatal .capacity
        else .done (setBuf s d (readBuf s a ++ readBuf s b))) := by
  rw [← length_readBuf, ← length_readBuf]; rfl

/-- Settles O28: the lengths of the sources add up to that of the string written. Both sources are read from
the state before the write, so equal buffers need no case of their own. -/
theorem bufCatConcatenates : Obligations.BufCatConcatenates := by
  intro d a b s
  have hlen : (readBuf s a ++ readBuf s b).length = bufLen s a + bufLen s b := by simp
  rw [exec_bufCat]
  exact ⟨conclude_of_le_cap _ s d hlen, conclude_of_cap_lt _ s d⟩

/-- NOP has no check and no write (R130). -/
theorem exec_nop (s : State) : exec .nop s = conclude .nop s (.done s) := rfl

/-- Settles O27: NOP writes nothing, so it only completes (R311). -/
theorem nopOnlySetsCode : Obligations.NopOnlySetsCode := by
  intro s
  rw [exec_nop, conclude_next, endState_done, complete]

end Sys2Proof.Machine

/-! The bit-field family (41_bitfield.md): PACK.U (O29), PACK.S (O30), UNPACK.U (O31), UNPACK.S (O32) and the round
trip of PACK.S and UNPACK.S (O33). -/

namespace Sys2Proof.Machine

/-! ### A command's checks in order (60_exceptions.md R312) -/

section
variable {i : Instr} {s : State} {v : Verdict} {c : FatalCode} {p : Prop} [Decidable p]

theorem conclude_of_check_fails (hp : p) :
    conclude i s (if p then .fatal c else v) = .next (fatalRecord c (encode i) s) := by
  rw [if_pos hp, conclude_next, endState_fatal, raiseFatal_eq]

theorem conclude_of_check_passes (hp : ¬ p) : conclude i s (if p then .fatal c else v) = conclude i s v := by
  rw [if_neg hp]

end

/-- The width check of the four commands refuses every W outside 1..64 (D33). -/
theorem badFieldWidth_iff (w : Nat) : badFieldWidth w = true ↔ w = 0 ∨ 64 < w := by
  rw [badFieldWidth, Bool.or_eq_true, decide_eq_true_iff, decide_eq_true_iff, Config.wmax]

theorem not_badFieldWidth {w : Nat} (h1 : 1 ≤ w) (h64 : w ≤ 64) : ¬ badFieldWidth w = true := by
  rw [badFieldWidth_iff]; omega

/-! ### The field of a raw value (R142, R143) -/

@[simp] theorem length_fieldBits (w : Nat) (raw : Int) : (fieldBits w raw).length = w := length_bitsOf w _

/-- A field holds raw mod 2^W, for a raw of either sign (R143). -/
theorem num_fieldBits (w : Nat) (raw : Int) : (num (fieldBits w raw) : Int) = raw % 2 ^ w := by
  have hpos : (0 : Int) < 2 ^ w := by positivity
  have hlt : (raw % 2 ^ w).toNat < 2 ^ w := by
    zify
    rw [Int.toNat_of_nonneg (Int.emod_nonneg raw hpos.ne')]
    exact Int.emod_lt_of_pos raw hpos
  rw [fieldBits, num_bitsOf, Nat.mod_eq_of_lt hlt, Int.toNat_of_nonneg (Int.emod_nonneg raw hpos.ne')]

/-- A register with a non-negative signed value has the same unsigned value (00_scope.md R20). -/
theorem toInt_eq_toNat_of_nonneg {v : Word} (h : 0 ≤ v.toInt) : v.toInt = v.toNat := by
  rw [BitVec.toInt_eq_toNat_cond] at h ⊢
  have := v.isLt
  split <;> omega

/-- A field of a non-negative raw holds the low W bits of the register (R142). -/
theorem num_fieldBits_of_nonneg {w : Nat} {v : Word} (h : 0 ≤ v.toInt) :
    num (fieldBits w v.toInt) = v.toNat % 2 ^ w := by
  zify
  rw [num_fieldBits, toInt_eq_toNat_of_nonneg h]

/-! ### The end of a packing command (R41, R144) -/

theorem packInto_eq (s : State) (d : Buf) (x : Bool) (f : Bits) :
    packInto s d x f = if ((if x then readBuf s d else []) ++ f).length > Config.cap then .fatal .capacity
      else .done (setBuf s d ((if x then readBuf s d else []) ++ f)) := by
  cases x <;> rfl

section
variable {i : Instr} {s : State} {d : Buf} {x : Bool} {f : Bits}

theorem conclude_packInto_fits (hfits : (if x then readBuf s d else []).length + f.length ≤ 16384) :
    ∃ t, conclude i s (packInto s d x f) = .next t ∧ WroteBuffer d ((if x then readBuf s d else []) ++ f) s t := by
  rw [packInto_eq]
  exact conclude_of_le_cap i s d rfl (by rwa [List.length_append])

theorem conclude_packInto_overflows (hlong : 16384 < (if x then readBuf s d else []).length + f.length) :
    conclude i s (packInto s d x f) = .next (fatalRecord .capacity (encode i) s) := by
  rw [packInto_eq]
  exact conclude_of_cap_lt i s d (by rwa [List.length_append])

end

/-! ### PACK.U and PACK.S -/

theorem exec_packU (d : Buf) (x : Bool) (w : Nat) (s : State) :
    exec (.packU d x w) s = conclude (.packU d x w) s
      (if badFieldWidth w then .fatal .badWidth
        else if s.arg0.toInt < 0 then .fatal .badValue
        else packInto s d x (fieldBits w s.arg0.toInt)) := rfl

theorem exec_packS (d : Buf) (x : Bool) (w : Nat) (s : State) :
    exec (.packS d x w) s = conclude (.packS d x w) s
      (if badFieldWidth w then .fatal .badWidth else packInto s d x (fieldBits w s.arg0.toInt)) := rfl

/-- Settles O29: the three checks in their order, then the field of the raw value. -/
theorem packUnsigned : Obligations.PackUnsigned := by
  intro d x w s old
  rw [exec_packU]
  refine ⟨fun hw => ?badWidth, fun h1 h64 hneg => ?badValue, fun h1 h64 hnn hlong => ?capacity,
    fun h1 h64 hnn hfits => ?packs⟩
  case badWidth => exact conclude_of_check_fails ((badFieldWidth_iff w).mpr hw)
  case badValue => rw [conclude_of_check_passes (not_badFieldWidth h1 h64), conclude_of_check_fails hneg]
  case capacity =>
    rw [conclude_of_check_passes (not_badFieldWidth h1 h64), conclude_of_check_passes hnn.not_gt]
    exact conclude_packInto_overflows (by rwa [length_fieldBits])
  case packs =>
    rw [conclude_of_check_passes (not_badFieldWidth h1 h64), conclude_of_check_passes hnn.not_gt]
    obtain ⟨t, hrun, hwrote⟩ := conclude_packInto_fits (i := .packU d x w) (s := s) (d := d) (x := x)
      (f := fieldBits w s.arg0.toInt) (by rwa [length_fieldBits])
    exact ⟨t, _, hrun, length_fieldBits w _, num_fieldBits_of_nonneg hnn, hwrote⟩

/-- Settles O30: as PACK.U, but a negative raw is packed too. -/
theorem packSigned : Obligations.PackSigned := by
  intro d x w s old
  rw [exec_packS]
  refine ⟨fun hw => ?badWidth, fun h1 h64 hlong => ?capacity, fun h1 h64 hfits => ?packs⟩
  case badWidth => exact conclude_of_check_fails ((badFieldWidth_iff w).mpr hw)
  case capacity =>
    rw [conclude_of_check_passes (not_badFieldWidth h1 h64)]
    exact conclude_packInto_overflows (by rwa [length_fieldBits])
  case packs =>
    rw [conclude_of_check_passes (not_badFieldWidth h1 h64)]
    obtain ⟨t, hrun, hwrote⟩ := conclude_packInto_fits (i := .packS d x w) (s := s) (d := d) (x := x)
      (f := fieldBits w s.arg0.toInt) (by rwa [length_fieldBits])
    exact ⟨t, _, hrun, length_fieldBits w _, num_fieldBits w _, hwrote⟩

/-! ### The two's-complement value of a string (R146) -/

/-- The first bit of a string weighs 2 to the number of bits after it (R21). -/
theorem num_cons (b : Bool) (f : Bits) : num (b :: f) = b.toNat * 2 ^ f.length + num f := by
  induction f using List.reverseRecOn with
  | nil => simp [num]
  | append_singleton f c ih =>
    rw [← List.cons_append, num_append_singleton, ih, num_append_singleton, List.length_append,
      List.length_singleton, pow_succ]
    ring

/-- The first bit of a two's-complement string weighs minus 2 to the number of bits after it. -/
theorem signedNum_cons (b : Bool) (f : Bits) : signedNum (b :: f) = num f - b.toNat * 2 ^ f.length := by
  cases b
  · simp [signedNum, bitAt, num_cons]
  · simp [signedNum, bitAt, num_cons, pow_succ]; ring

/-- The value of a string of n bits lies in the range of n-bit two's complement; for n = 0 it is 0. -/
theorem signedNum_bounds (f : Bits) :
    -(2 ^ f.length : Nat) ≤ signedNum f * 2 ∧ signedNum f * 2 < (2 ^ f.length : Nat) := by
  cases f with
  | nil => decide
  | cons b f =>
    have hlt : (num f : Int) < 2 ^ f.length := by exact_mod_cast num_lt f
    rw [signedNum_cons, List.length_cons, pow_succ]
    push_cast
    cases b <;> simp <;> omega

/-- The value of a string is its unsigned value taken mod 2^n into the signed range. -/
theorem signedNum_eq_bmod (f : Bits) : signedNum f = Int.bmod (num f) (2 ^ f.length) := by
  have hcong : Int.bmod (signedNum f) (2 ^ f.length) = Int.bmod (num f) (2 ^ f.length) := by
    unfold signedNum
    split
    · simpa using Int.sub_bmod_right (num f) (2 ^ f.length)
    · rfl
  obtain ⟨hlo, hhi⟩ := signedNum_bounds f
  rw [← hcong, Int.bmod_eq_of_le_mul_two hlo hhi]

/-- A register holds the value of every string of at most 64 bits. -/
theorem toInt_ofInt_signedNum {f : Bits} (h : f.length ≤ 64) :
    (BitVec.ofInt 64 (signedNum f)).toInt = signedNum f := by
  obtain ⟨hlo, hhi⟩ := signedNum_bounds f
  have hpow : 2 ^ f.length ≤ 2 ^ 64 := Nat.pow_le_pow_right (by decide) h
  rw [BitVec.toInt_ofInt, Int.bmod_eq_of_le_mul_two] <;> omega

/-! ### UNPACK.U and UNPACK.S -/

theorem unpackedField_eq (s : State) (a : Buf) (w : Nat) :
    unpackedField s a w = ((readBuf s a).drop s.arg0.toNat).take w := by
  simp [unpackedField, substring, unsigned]

/-- A field within LEN has all its W bits. -/
theorem length_unpackedField {s : State} {a : Buf} {w : Nat} (h : s.arg0.toNat + w ≤ bufLen s a) :
    (unpackedField s a w).length = w := by
  rw [unpackedField_eq, List.length_take, List.length_drop, length_readBuf]; omega

theorem exec_unpackU (a : Buf) (w : Nat) (s : State) :
    exec (.unpackU a w) s = conclude (.unpackU a w) s
      (if badFieldWidth w then .fatal .badWidth
        else if bufLen s a < s.arg0.toNat + w then .fatal .badLength
        else .done { s with result := BitVec.ofNat 64 (num (unpackedField s a w)) }) := rfl

theorem exec_unpackS (a : Buf) (w : Nat) (s : State) :
    exec (.unpackS a w) s = conclude (.unpackS a w) s
      (if badFieldWidth w then .fatal .badWidth
        else if bufLen s a < s.arg0.toNat + w then .fatal .badLength
        else .done { s with result := BitVec.ofInt 64 (signedNum (unpackedField s a w)) }) := rfl

/-- Settles O31: the two checks in their order, then the value of the field, which a register can hold. -/
theorem unpackUnsigned : Obligations.UnpackUnsigned := by
  intro a w s
  rw [exec_unpackU]
  refine ⟨fun hw => ?badWidth, fun h1 h64 hlong => ?badLength, fun h1 h64 hfits => ?reads⟩
  case badWidth => exact conclude_of_check_fails ((badFieldWidth_iff w).mpr hw)
  case badLength => rw [conclude_of_check_passes (not_badFieldWidth h1 h64), conclude_of_check_fails hlong]
  case reads =>
    rw [conclude_of_check_passes (not_badFieldWidth h1 h64), conclude_of_check_passes hfits.not_gt,
      ← unpackedField_eq]
    have hlt : num (unpackedField s a w) < 2 ^ 64 :=
      calc num (unpackedField s a w) < 2 ^ (unpackedField s a w).length := num_lt _
        _ = 2 ^ w := by rw [length_unpackedField hfits]
        _ ≤ 2 ^ 64 := Nat.pow_le_pow_right (by decide) h64
    exact ⟨_, rfl, BitVec.toNat_ofNat _ _ |>.trans (Nat.mod_eq_of_lt hlt)⟩

/-- Settles O32: as UNPACK.U, with the two's-complement value of the field. -/
theorem unpackSigned : Obligations.UnpackSigned := by
  intro a w s
  rw [exec_unpackS]
  refine ⟨fun hw => ?badWidth, fun h1 h64 hlong => ?badLength, fun h1 h64 hfits => ?reads⟩
  case badWidth => exact conclude_of_check_fails ((badFieldWidth_iff w).mpr hw)
  case badLength => rw [conclude_of_check_passes (not_badFieldWidth h1 h64), conclude_of_check_fails hlong]
  case reads =>
    rw [conclude_of_check_passes (not_badFieldWidth h1 h64), conclude_of_check_passes hfits.not_gt,
      ← unpackedField_eq]
    have hlen := length_unpackedField hfits
    refine ⟨_, rfl, ?_⟩
    rw [toInt_ofInt_signedNum (hlen.trans_le h64), signedNum_eq_bmod, hlen]

/-! ### The round trip (R147) -/

/-- A raw value in the W-bit signed range is its own W-bit two's-complement value. -/
theorem bmod_eq_self_of_signed_range {w : Nat} (h1 : 1 ≤ w) {raw : Int} (hlo : -(2 ^ (w - 1)) ≤ raw)
    (hhi : raw < 2 ^ (w - 1)) : Int.bmod raw (2 ^ w) = raw := by
  have hpow : ((2 ^ w : Nat) : Int) = 2 ^ (w - 1) * 2 := by
    rw [← pow_succ, Nat.sub_add_cancel h1]; norm_cast
  exact Int.bmod_eq_of_le_mul_two (by omega) (by omega)

/-- Settles O33: the field PACK.S wrote stands after the old string, where UNPACK.S reads it back; its unsigned
value is raw mod 2^W (O30), of which RESULT is the signed reading (O32). -/
theorem packThenUnpackReturnsRaw : Obligations.PackThenUnpackReturnsRaw := by
  intro d x w s h1 h64 hfits
  have hold : (if x then readBuf s d else []).length = if x then bufLen s d else 0 := by cases x <;> simp
  obtain ⟨-, -, hpacks⟩ := packSigned d x w s
  obtain ⟨t, f, hpack, hlen, hnum, hwrote⟩ := hpacks h1 h64 (by rwa [hold])
  generalize (if x then readBuf s d else []) = old at hold hwrote
  rw [← hold] at hfits ⊢
  have hoff : (BitVec.ofNat 64 old.length).toNat = old.length := by
    rw [BitVec.toNat_ofNat]; omega
  have hend : bufLen t d = old.length + w := by rw [hwrote.length, List.length_append, hlen]
  obtain ⟨-, -, hreads⟩ := unpackSigned d w { t with arg0 := BitVec.ofNat 64 old.length }
  obtain ⟨r, hunpack, hr⟩ := hreads h1 h64 (le_of_eq (by rw [hoff]; exact hend.symm))
  have hfield : ((readBuf t d).drop old.length).take w = f := by
    rw [hwrote.string, List.drop_left, ← hlen, List.take_length]
  have hresult : r.toInt = Int.bmod s.arg0.toInt (2 ^ w) :=
    calc r.toInt = Int.bmod (num f) (2 ^ w) := by rw [hr, hoff, ← hfield]; rfl
      _ = Int.bmod (s.arg0.toInt % (2 ^ w : Nat)) (2 ^ w) := by rw [hnum]; norm_cast
      _ = Int.bmod s.arg0.toInt (2 ^ w) := Int.emod_bmod _ _
  exact ⟨t, _, hpack, hunpack, hresult, fun hlo hhi =>
    BitVec.eq_of_toInt_eq (hresult.trans (bmod_eq_self_of_signed_range h1 hlo hhi))⟩

end Sys2Proof.Machine

/-! The LFSR family (42_lfsr.md): LFSR.STEP (O34), LFSR.RUN (O35) and the composition of two runs (O36). -/

namespace Sys2Proof.Machine

open Sys2Proof.Spec

/-! ### The parity of the tapped bits (R20) -/

/-- Counting the low bit and halving counts the ones among bits 0 to n-1. -/
theorem popcount_eq_countP (n v : Nat) : popcount n v = (List.range n).countP fun t => v.testBit t := by
  induction n generalizing v with
  | zero => rfl
  | succ n ih =>
    have hlow : v % 2 = if v.testBit 0 then 1 else 0 := by
      rcases Nat.mod_two_eq_zero_or_one v with h | h <;> simp [Nat.testBit_zero, h]
    rw [popcount, ih, List.range_succ_eq_map, List.countP_cons, List.countP_map, ← hlow, Nat.add_comm]
    simp only [Function.comp_def, ← Nat.testBit_succ]

theorem parity_eq (n v : Nat) : parity n v = parityOf n v := by rw [parity, popcount_eq_countP, parityOf]

/-! ### One Step (R160) -/

/-- Shifted left and masked, the state is twice what is left without its top bit. -/
theorem two_mul_mod_two_pow_succ (st l : Nat) : 2 * st % 2 ^ (l + 1) = 2 * (st % 2 ^ l) := by
  rw [pow_succ', Nat.mul_mod_mul_left]

/-- The shift clears the LSB, so inserting the parity there adds it. -/
theorem lfsrNext_eq (l poly st : Nat) : lfsrNext l poly st = nextState l poly st := by
  rw [lfsrNext, nextState, parity_eq, Nat.shiftLeft_eq, pow_one, Nat.mul_comm st 2]
  cases l with
  | zero => simp [parityOf, Nat.mod_one]
  | succ l =>
    rw [two_mul_mod_two_pow_succ, ← Nat.two_pow_add_eq_or_of_lt (i := 1) (Bool.toNat_lt _), pow_one]

theorem lfsrStep_eq (l poly st : Nat) : lfsrStep l poly st = (st.testBit (l - 1), nextState l poly st) := by
  rw [lfsrStep, lfsrNext_eq]

/-- A state after a Step has L bits. -/
theorem nextState_lt (l poly st : Nat) : nextState l poly st < 2 ^ l := by
  cases l with
  | zero => simp [nextState, parityOf, Nat.mod_one]
  | succ l =>
    have hbit := Bool.toNat_lt (parityOf (l + 1) (st &&& poly))
    have hmod : st % 2 ^ l < 2 ^ l := Nat.mod_lt _ (by positivity)
    rw [nextState, two_mul_mod_two_pow_succ, pow_succ]
    omega

/-! ### Several Steps (R161) -/

section
variable (l poly st : Nat)

theorem stateAfter_add (m n : Nat) : stateAfter l poly st (m + n) = stateAfter l poly (stateAfter l poly st m) n := by
  rw [stateAfter, Nat.add_comm, Function.iterate_add_apply]; rfl

theorem outputBit_add (m i : Nat) : outputBit l poly st (m + i) = outputBit l poly (stateAfter l poly st m) i := by
  rw [outputBit, stateAfter_add, outputBit]

/-- The first m + n output bits are the first m, then n more from the state after m Steps. -/
theorem map_outputBit_range_add (m n : Nat) :
    (List.range (m + n)).map (outputBit l poly st)
      = (List.range m).map (outputBit l poly st)
        ++ (List.range n).map (outputBit l poly (stateAfter l poly st m)) := by
  simp [List.range_add, outputBit_add]

variable {l poly st}

theorem stateAfter_lt (h : st < 2 ^ l) (n : Nat) : stateAfter l poly st n < 2 ^ l := by
  cases n with
  | zero => exact h
  | succ n => rw [stateAfter_add]; exact nextState_lt l poly _

end

/-- The machine's loop gives the outputs in call order and the last state. -/
theorem lfsrRun_eq (l poly st n : Nat) :
    lfsrRun l poly st n = ((List.range n).map (outputBit l poly st), stateAfter l poly st n) := by
  induction n generalizing st with
  | zero => rfl
  | succ n ih =>
    rw [lfsrRun, lfsrStep_eq, ih, Nat.add_comm n 1, map_outputBit_range_add, stateAfter_add]
    rfl

theorem lfsrRun_fst (l poly st n : Nat) : (lfsrRun l poly st n).1 = (List.range n).map (outputBit l poly st) := by
  rw [lfsrRun_eq]

theorem lfsrRun_snd (l poly st n : Nat) : (lfsrRun l poly st n).2 = stateAfter l poly st n := by rw [lfsrRun_eq]

/-! ### The register's width, polynomial and state (R38, R162) -/

/-- The width check refuses every L outside 1..64 (R165). -/
theorem badLfsrWidth_iff (l : Nat) : badLfsrWidth l = true ↔ l = 0 ∨ 64 < l := by
  rw [badLfsrWidth, Bool.or_eq_true, decide_eq_true_iff, decide_eq_true_iff, Config.lmax]

theorem not_badLfsrWidth {l : Nat} (h1 : 1 ≤ l) (h64 : l ≤ 64) : ¬ badLfsrWidth l = true := by
  rw [badLfsrWidth_iff]; omega

/-- LFSR_POLY mod 2^L. -/
def maskedPoly (s : State) : Nat := s.lfsrPoly.toNat % 2 ^ s.lfsrWidth.toNat

/-- LFSR_STATE mod 2^L. -/
def maskedState (s : State) : Nat := s.lfsrState.toNat % 2 ^ s.lfsrWidth.toNat

theorem maskedState_lt (s : State) : maskedState s < 2 ^ s.lfsrWidth.toNat := Nat.mod_lt _ (by positivity)

/-- The mask keeps the MSB. -/
theorem testBit_maskedState (s : State) (h1 : 1 ≤ s.lfsrWidth.toNat) :
    (maskedState s).testBit (s.lfsrWidth.toNat - 1) = s.lfsrState.getLsbD (s.lfsrWidth.toNat - 1) := by
  rw [maskedState, Nat.testBit_mod_two_pow, decide_eq_true (by omega), Bool.true_and, BitVec.getLsbD]

/-- A 64-bit register holds every state of a width within 64. -/
theorem toNat_ofNat_of_lt_two_pow {l v : Nat} (h64 : l ≤ 64) (h : v < 2 ^ l) : (BitVec.ofNat 64 v).toNat = v :=
  BitVec.toNat_ofNat v 64 |>.trans (Nat.mod_eq_of_lt (h.trans_le (Nat.pow_le_pow_right (by decide) h64)))

/-! ### LFSR.STEP -/

theorem exec_lfsrStep (s : State) :
    exec .lfsrStep s = conclude .lfsrStep s
      (if badLfsrWidth s.lfsrWidth.toNat then .fatal .badWidth
        else .done { s with
          lfsrState := BitVec.ofNat 64 (nextState s.lfsrWidth.toNat (maskedPoly s) (maskedState s)),
          result := BitVec.ofNat 64 ((maskedState s).testBit (s.lfsrWidth.toNat - 1)).toNat }) := by
  rw [← lfsrNext_eq]; rfl

/-- Settles O34: the machine's Step is the arithmetic formula (`lfsrNext_eq`), and both results fit a register. -/
theorem lfsrStepAsRule : Obligations.LfsrStepAsRule := by
  intro s l
  rw [exec_lfsrStep]
  refine ⟨fun hw => ?badWidth, fun h1 h64 => ?steps⟩
  case badWidth => exact conclude_of_check_fails ((badLfsrWidth_iff l).mpr hw)
  case steps =>
    rw [conclude_of_check_passes (not_badLfsrWidth h1 h64), testBit_maskedState s h1]
    exact ⟨_, _, rfl, toNat_ofNat_of_lt_two_pow h64 (nextState_lt ..),
      toNat_ofNat_of_lt_two_pow (l := 1) (by decide) (Bool.toNat_lt _)⟩

/-! ### LFSR.RUN -/

theorem exec_lfsrRun (d : Buf) (s : State) :
    exec (.lfsrRun d) s = conclude (.lfsrRun d) s
      (if badLfsrWidth s.lfsrWidth.toNat then .fatal .badWidth
        else if 16384 < s.arg0.toNat then .fatal .capacity
        else .done (setBuf
          { s with lfsrState :=
              BitVec.ofNat 64 (stateAfter s.lfsrWidth.toNat (maskedPoly s) (maskedState s) s.arg0.toNat) }
          d ((List.range s.arg0.toNat).map (outputBit s.lfsrWidth.toNat (maskedPoly s) (maskedState s))))) := by
  rw [← lfsrRun_fst, ← lfsrRun_snd]; rfl

/-- Settles O35: the checks in their order, then the outputs and the state of `lfsrRun_eq`, which fits a register. -/
theorem lfsrRunAsRule : Obligations.LfsrRunAsRule := by
  intro d s l n poly st
  rw [exec_lfsrRun]
  refine ⟨fun hw => ?badWidth, fun h1 h64 hlong => ?capacity, fun h1 h64 hfits => ?runs⟩
  case badWidth => exact conclude_of_check_fails ((badLfsrWidth_iff l).mpr hw)
  case capacity => rw [conclude_of_check_passes (not_badLfsrWidth h1 h64), conclude_of_check_fails hlong]
  case runs =>
    rw [conclude_of_check_passes (not_badLfsrWidth h1 h64), conclude_of_check_passes hfits.not_gt]
    exact ⟨_, _, rfl, toNat_ofNat_of_lt_two_pow h64 (stateAfter_lt (maskedState_lt s) n),
      wroteBuffer_setBuf _ d (by rwa [List.length_map, List.length_range])⟩

/-! ### Two runs in a row -/

/-- LFSR.RUN of n Steps, the state it leaves in LFSR_STATE and the string it leaves in its destination (O35). -/
theorem lfsrRun_completes (d : Buf) {s : State} {n : Nat} (h1 : 1 ≤ s.lfsrWidth.toNat)
    (h64 : s.lfsrWidth.toNat ≤ 64) (hn : n ≤ 16384) :
    ∃ t, exec (.lfsrRun d) { s with arg0 := BitVec.ofNat 64 n } = .next t
      ∧ t.lfsrWidth = s.lfsrWidth ∧ t.lfsrPoly = s.lfsrPoly
      ∧ t.lfsrState.toNat = stateAfter s.lfsrWidth.toNat (maskedPoly s) (maskedState s) n
      ∧ readBuf t d = (List.range n).map (outputBit s.lfsrWidth.toNat (maskedPoly s) (maskedState s)) := by
  have harg : (BitVec.ofNat 64 n).toNat = n := by rw [BitVec.toNat_ofNat]; omega
  obtain ⟨-, -, hruns⟩ := lfsrRunAsRule d { s with arg0 := BitVec.ofNat 64 n }
  obtain ⟨t, v, hrun, hv, hwrote⟩ := hruns h1 h64 (harg.trans_le hn)
  have hstring := hwrote.string
  obtain ⟨lens, mem, rfl⟩ := hwrote.registers
  rw [harg] at hv hstring
  exact ⟨_, hrun, rfl, rfl, hv, hstring⟩

/-- Settles O36: the second run starts where the first one stopped, since the masks keep its state and the
polynomial; the outputs join by `map_outputBit_range_add`, the states by `stateAfter_add`. -/
theorem lfsrRunsCompose : Obligations.LfsrRunsCompose := by
  intro d d' s n1 n2 h1 h64 hfits
  obtain ⟨t, hrun, hwidth, hpoly, hstate, hstring⟩ := lfsrRun_completes d h1 h64 (n := n1) (by omega)
  obtain ⟨u, hrun', -, -, hstate', hstring'⟩ := lfsrRun_completes d' (s := t) (hwidth ▸ h1) (hwidth ▸ h64) (n := n2)
    (by omega)
  obtain ⟨v, hwhole, -, -, hstateWhole, hstringWhole⟩ := lfsrRun_completes d h1 h64 hfits
  have hmasked : maskedState t = stateAfter s.lfsrWidth.toNat (maskedPoly s) (maskedState s) n1 := by
    rw [maskedState, hstate, hwidth, Nat.mod_eq_of_lt (stateAfter_lt (maskedState_lt s) n1)]
  have hsamePoly : maskedPoly t = maskedPoly s := by rw [maskedPoly, maskedPoly, hwidth, hpoly]
  rw [hwidth, hsamePoly, hmasked] at hstate' hstring'
  refine ⟨t, u, v, hrun, hrun', hwhole, ?outputs, ?finalState⟩
  case outputs => rw [hstring, hstring', hstringWhole, map_outputBit_range_add]
  case finalState => exact BitVec.eq_of_toNat_eq (by rw [hstate', hstateWhole, stateAfter_add])

end Sys2Proof.Machine

/-! The sequence-generator family (43_sequence_generators.md): GOLD.B1I (O37), GOLD.B3I (O38), WEIL (O39) and the
two definitions of the Legendre sequence (O40). -/

namespace Sys2Proof.Machine

open Sys2Proof.Spec

/-! ### One Step before the others (R161) -/

section
variable (l poly st i : Nat)

theorem stateAfter_succ : stateAfter l poly st (i + 1) = stateAfter l poly (nextState l poly st) i := by
  rw [Nat.add_comm, stateAfter_add]; rfl

theorem outputBit_succ : outputBit l poly st (i + 1) = outputBit l poly (nextState l poly st) i := by
  rw [Nat.add_comm, outputBit_add]; rfl

/-- The other way round: the last Step of i + 1. -/
theorem nextState_stateAfter : nextState l poly (stateAfter l poly st i) = stateAfter l poly st (i + 1) :=
  (stateAfter_add l poly st i 1).symm

end

/-- An argument register under a mask of w ones is the argument mod 2^w (R181, R183). -/
theorem unsigned_and_ones (v : Word) (w : Nat) : unsigned v &&& (2 ^ w - 1) = v.toNat % 2 ^ w :=
  Nat.and_two_pow_sub_one_eq_mod v.toNat w

/-- A generator writes as many bits as its count says. -/
theorem length_map_range (f : Nat → Bool) (n : Nat) : ((List.range n).map f).length = n := by
  rw [List.length_map, List.length_range]

/-! ### GOLD.B1I (R181) -/

/-- Bit i of the B1I code from the states g1 and g2: the parity is of G2's state before its Step. -/
def goldB1IBit (mask g1 g2 i : Nat) : Bool :=
  outputBit 11 b1iG1Poly g1 i ^^ parityOf 11 (stateAfter 11 b1iG2Poly g2 i &&& mask)

theorem goldB1IBit_succ (mask g1 g2 i : Nat) :
    goldB1IBit mask g1 g2 (i + 1)
      = goldB1IBit mask (nextState 11 b1iG1Poly g1) (nextState 11 b1iG2Poly g2) i := by
  rw [goldB1IBit, outputBit_succ, stateAfter_succ, goldB1IBit]

theorem goldB1ILoop_eq (mask g1 g2 n : Nat) :
    goldB1ILoop mask g1 g2 n = (List.range n).map (goldB1IBit mask g1 g2) := by
  induction n generalizing g1 g2 with
  | zero => rfl
  | succ n ih =>
    have hfirst : goldB1IBit mask g1 g2 0 = (g1.testBit 10 ^^ parity 11 (g2 &&& mask)) := by rw [parity_eq]; rfl
    rw [goldB1ILoop, lfsrStep_eq, lfsrStep_eq, ih, List.range_succ_eq_map, List.map_cons, List.map_map, hfirst]
    simp only [Function.comp_def, goldB1IBit_succ, Nat.add_one_sub_one]

theorem exec_goldB1I (d : Buf) (s : State) :
    exec (.goldB1I d) s = conclude (.goldB1I d) s
      (if s.arg1.toNat > Config.cap then .fatal .capacity
        else .done (setBuf s d
          ((List.range s.arg1.toNat).map (goldB1IBit (s.arg0.toNat % 2048) b1iPhase b1iPhase)))) := by
  have hmask : unsigned s.arg0 &&& 0x7FF = s.arg0.toNat % 2048 := unsigned_and_ones s.arg0 11
  rw [← goldB1ILoop_eq, ← hmask]; rfl

/-- Settles O37: the loop's bits are those of `goldB1ILoop_eq`, one for each of the ARG1 iterations. -/
theorem goldB1IAsRule : Obligations.GoldB1IAsRule := by
  intro d s n
  rw [exec_goldB1I]
  exact ⟨conclude_of_le_cap _ s d (length_map_range _ _), conclude_of_cap_lt _ s d⟩

/-! ### GOLD.B3I (R183) -/

/-- The G1 state that output bit i is taken from, where the register holds g1 when the iteration begins. -/
def restartedG1 (i g1 : Nat) : Nat := if i ≠ 0 ∧ i % b3iResetEvery = 0 then b3iPhase else g1

/-- G1 as the rule has it: i mod 8190 Steps from all ones (D19). -/
def ruleG1 (i : Nat) : Nat := stateAfter 13 b3iG1Poly b3iPhase (i % 8190)

/-- The restart keeps G1 in step with the rule: past the 8190th bit it takes the register back to 0 Steps, and
everywhere else the Step count goes up by one. -/
theorem restartedG1_succ (i : Nat) : restartedG1 (i + 1) (nextState 13 b3iG1Poly (ruleG1 i)) = ruleG1 (i + 1) := by
  rw [restartedG1, ruleG1, ruleG1, nextState_stateAfter, b3iResetEvery]
  split
  next hrestart => rw [hrestart.2]; rfl
  next hgoesOn =>
    have hcount : (i + 1) % 8190 = i % 8190 + 1 := by omega
    rw [hcount]

/-- From output bit i on: the G1 bits count from the last restart, the G2 bits from the state g2. -/
theorem goldB3ILoop_eq {i g1 : Nat} (g2 n : Nat) (h : restartedG1 i g1 = ruleG1 i) :
    goldB3ILoop i g1 g2 n = (List.range n).map fun j =>
      outputBit 13 b3iG1Poly b3iPhase ((i + j) % 8190) ^^ outputBit 13 b3iG2Poly g2 j := by
  induction n generalizing i g1 g2 with
  | zero => rfl
  | succ n ih =>
    have hiter : goldB3ILoop i g1 g2 (n + 1)
        = ((ruleG1 i).testBit 12 ^^ g2.testBit 12)
          :: goldB3ILoop (i + 1) (nextState 13 b3iG1Poly (ruleG1 i)) (nextState 13 b3iG2Poly g2) n := by
      rw [← h, ← lfsrNext_eq, ← lfsrNext_eq]; rfl
    rw [hiter, ih _ (restartedG1_succ i), List.range_succ_eq_map, List.map_cons, List.map_map]
    simp only [Function.comp_def, outputBit_succ, Nat.succ_eq_add_one, Nat.add_right_comm i 1, ← Nat.add_assoc]
    rfl

theorem exec_goldB3I (d : Buf) (s : State) :
    exec (.goldB3I d) s = conclude (.goldB3I d) s
      (if s.arg1.toNat > Config.cap then .fatal .capacity
        else .done (setBuf s d ((List.range s.arg1.toNat).map fun i =>
          outputBit 13 b3iG1Poly b3iPhase (i % 8190) ^^ outputBit 13 b3iG2Poly (s.arg0.toNat % 8192) i))) := by
  have hloop := goldB3ILoop_eq (i := 0) (g1 := b3iPhase) (s.arg0.toNat % 8192) s.arg1.toNat rfl
  simp only [Nat.zero_add] at hloop
  have hmask : unsigned s.arg0 &&& 0x1FFF = s.arg0.toNat % 8192 := unsigned_and_ones s.arg0 13
  rw [← hloop, ← hmask]; rfl

/-- Settles O38: the loop begins at bit 0 with G1 at 0 Steps, so its bits are those of `goldB3ILoop_eq`. -/
theorem goldB3IAsRule : Obligations.GoldB3IAsRule := by
  intro d s n
  rw [exec_goldB3I]
  exact ⟨conclude_of_le_cap _ s d (length_map_range _ _), conclude_of_cap_lt _ s d⟩

/-! ### The Legendre sequence (R184) -/

theorem legendre_iff (n k : Nat) : legendre n k = true ↔ k ≠ 0 ∧ k ^ ((n - 1) / 2) % n = 1 := by
  rw [legendre, Bool.and_eq_true, decide_eq_true_iff, beq_iff_eq]

theorem legendre_eq_legendreBit (n k : Nat) : legendre n k = legendreBit n k := by
  rw [Bool.eq_iff_iff, legendre_iff, legendreBit, decide_eq_true_iff]

/-- Both Legendre lengths are odd primes. -/
theorem prime_weilModulus (sel : WeilLen) : (weilModulus sel).Prime := by
  cases sel <;> norm_num [weilModulus, Config.nMain, Config.nSub]

theorem weilModulus_odd (sel : WeilLen) : weilModulus sel % 2 = 1 := by cases sel <;> rfl

/-- A residue is a square in ZMod N exactly when it is one among the numbers below N. -/
theorem isSquare_natCast_iff {n k : Nat} [NeZero n] (hk : k < n) :
    IsSquare (k : ZMod n) ↔ ∃ y, y * y % n = k := by
  have hmod (y : Nat) : (k : ZMod n) = y * y ↔ y * y % n = k := by
    rw [← Nat.cast_mul, ZMod.natCast_eq_natCast_iff', Nat.mod_eq_of_lt hk, eq_comm]
  constructor
  · rintro ⟨a, ha⟩
    exact ⟨a.val, (hmod a.val).mp (by rwa [ZMod.natCast_zmod_val])⟩
  · rintro ⟨y, hy⟩
    exact ⟨y, (hmod y).mpr hy⟩

/-- Euler's criterion for the power of R184. -/
theorem legendre_iff_square {p k : Nat} (hp : p.Prime) (hodd : p % 2 = 1) (hk : k < p) :
    legendre p k = true ↔ k ≠ 0 ∧ ∃ y, y * y % p = k := by
  have : Fact p.Prime := ⟨hp⟩
  have hhalf : (p - 1) / 2 = p / 2 := by omega
  have hpower : k ^ (p / 2) % p = 1 ↔ (k : ZMod p) ^ (p / 2) = 1 := by
    rw [← Nat.cast_pow, ← Nat.cast_one (R := ZMod p), ZMod.natCast_eq_natCast_iff', Nat.mod_eq_of_lt hp.one_lt]
  rw [legendre_iff, hhalf, hpower]
  refine and_congr_right fun hk0 => ?_
  have hne : (k : ZMod p) ≠ 0 := fun h => hk0 (Nat.eq_zero_of_dvd_of_lt ((ZMod.natCast_eq_zero_iff k p).mp h) hk)
  rw [← ZMod.euler_criterion p hne, isSquare_natCast_iff hk]

/-- Settles O40: both lengths are odd primes, so Euler's criterion holds for them. -/
theorem legendreBitIsQuadraticResidue : Obligations.LegendreBitIsQuadraticResidue := fun sel _ hk =>
  legendre_iff_square (prime_weilModulus sel) (weilModulus_odd sel) hk

/-! ### WEIL (R185, R186) -/

/-- The index of bit i is the one number below N congruent to p - 1 + i, which for p = 0 starts at N - 1. -/
theorem weilCodeBit_eq {n k : Nat} (w : Nat) {p i : Nat} (hk : k < n)
    (h : ((k : Int) - ((p : Int) - 1 + (i : Int))) % (n : Int) = 0) :
    weilCodeBit n w p i = (legendreBit n k ^^ legendreBit n ((k + w) % n)) := by
  have hindex : ((p : Int) - 1 + i) % (n : Int) = k :=
    (Int.emod_eq_emod_iff_emod_sub_eq_zero.mpr h).symm.trans (Int.emod_eq_of_lt (by omega) (by omega))
  rw [weilCodeBit, hindex, Int.toNat_natCast, weilBit, legendre_eq_legendreBit, legendre_eq_legendreBit]

theorem exec_weil (d : Buf) (sel : WeilLen) (s : State) :
    exec (.weil d sel) s = conclude (.weil d sel) s
      (if s.arg2.toNat > Config.cap then .fatal .capacity
        else .done (setBuf s d ((List.range s.arg2.toNat).map
          (weilCodeBit (weilModulus sel) s.arg0.toNat s.arg1.toNat)))) := rfl

/-- Settles O39: bit i of the string is the model's code bit, which `weilCodeBit_eq` puts at its index. -/
theorem weilAsRule : Obligations.WeilAsRule := by
  intro d sel s n hn
  have hmodulus : n = weilModulus sel := by cases sel <;> exact hn
  subst hmodulus
  rw [exec_weil]
  refine ⟨fun hfits => ?writes, conclude_of_cap_lt _ s d⟩
  case writes =>
    obtain ⟨t, hnext, hwrote⟩ := conclude_of_le_cap (.weil d sel) s d (length_map_range _ _) hfits
    refine ⟨t, _, hnext, hwrote, length_map_range _ _, fun i k hi hk hcongr => ?_⟩
    rw [List.getD_eq_getElem _ _ (by rwa [length_map_range]), List.getElem_map, List.getElem_range,
      weilCodeBit_eq _ hk hcongr]

end Sys2Proof.Machine

/-! The BCH family (44_bch.md): BCH.GEN (O41), BCH.21_6 and BCH.51_8 (O42), BCH.15_11 and BCH.15_11HW (O43, O44),
BCH.B1I and BCH.B1IW1 (O45), and the length check of the fixed codes (O46). -/

namespace Sys2Proof.Machine

open Sys2Proof.Spec

/-! ### The register as a window on its output (R160, R161, R203) -/

/-- A Step shifts the state left by one and puts the parity below it. -/
theorem nextState_eq_bit (l poly st : Nat) :
    nextState (l + 1) poly st = Nat.bit (parityOf (l + 1) (st &&& poly)) (st % 2 ^ l) := by
  rw [nextState, two_mul_mod_two_pow_succ, Nat.bit_val]

/-- The last bit in is the parity. -/
theorem testBit_nextState_zero (l poly st : Nat) :
    (nextState (l + 1) poly st).testBit 0 = parityOf (l + 1) (st &&& poly) := by
  rw [nextState_eq_bit, Nat.testBit_bit_zero]

/-- Every other bit moves up by one. -/
theorem testBit_nextState_succ {l t : Nat} (poly st : Nat) (h : t < l) :
    (nextState (l + 1) poly st).testBit (t + 1) = st.testBit t := by
  rw [nextState_eq_bit, Nat.testBit_bit_succ, Nat.testBit_mod_two_pow, decide_eq_true h, Bool.true_and]

/-- The first L outputs are the state's own bits, its MSB first. -/
theorem outputBit_of_lt {l i : Nat} (poly st : Nat) (h : i < l) :
    outputBit l poly st i = st.testBit (l - 1 - i) := by
  induction i generalizing st with
  | zero => rfl
  | succ i ih =>
    obtain ⟨l, rfl⟩ : ∃ l', l = l' + 1 := ⟨l - 1, by omega⟩
    have hup : l + 1 - 1 - i = l + 1 - 1 - (i + 1) + 1 := by omega
    rw [outputBit_succ, ih _ (by omega), hup, testBit_nextState_succ _ _ (by omega)]

/-- After j Steps the state holds the L outputs from j on. -/
theorem outputBit_add_of_lt {l i : Nat} (poly st j : Nat) (h : i < l) :
    outputBit l poly st (j + i) = (stateAfter l poly st j).testBit (l - 1 - i) := by
  rw [outputBit_add, outputBit_of_lt _ _ h]

/-- The first L outputs are the state, MSB first. -/
theorem map_outputBit_range_width (l poly st : Nat) :
    (List.range l).map (outputBit l poly st) = bitsOf l st :=
  List.map_congr_left fun _ hi => outputBit_of_lt poly st (List.mem_range.mp hi)

/-- The n outputs that follow the first L have come in after n Steps: they are the low bits of the state then. -/
theorem map_outputBit_range_after_width {l n : Nat} (poly st : Nat) (h : n ≤ l) :
    (List.range n).map (outputBit l poly (stateAfter l poly st l)) = bitsOf n (stateAfter l poly st n) := by
  refine List.map_congr_left fun i hi => ?_
  have hin : i < n := List.mem_range.mp hi
  have hsteps : l + i = n + (l - n + i) := by omega
  have hback : l - 1 - (l - n + i) = n - 1 - i := by omega
  rw [← outputBit_add, hsteps, outputBit_add_of_lt _ _ _ (by omega), hback]

/-- The output L Steps on is the parity that the Step puts in. -/
theorem outputBit_add_width {l : Nat} (poly st j : Nat) (h : 1 ≤ l) :
    outputBit l poly st (j + l) = parityOf l (stateAfter l poly st j &&& poly) := by
  obtain ⟨l, rfl⟩ : ∃ l', l = l' + 1 := ⟨l - 1, by omega⟩
  have hstep : j + (l + 1) = j + 1 + l := by omega
  have hlsb : l + 1 - 1 - l = 0 := by omega
  rw [hstep, outputBit_add_of_lt _ _ _ (Nat.lt_succ_self l), hlsb, ← nextState_stateAfter, testBit_nextState_zero]

/-! ### The systematic encoder (R200, R203) -/

theorem bchEncode_eq (n k mask : Nat) (m : Bits) :
    bchEncode n k mask m = (List.range n).map (outputBit k mask (num m)) := lfsrRun_fst ..

theorem getD_bchEncode {n i : Nat} (k mask : Nat) (m : Bits) (h : i < n) :
    (bchEncode n k mask m).getD i false = outputBit k mask (num m) i := by
  rw [bchEncode_eq, List.getD_eq_getElem _ _ (by rwa [length_map_range]), List.getElem_map, List.getElem_range]

/-- The register starts with the message, so the message comes out first. -/
theorem bchEncode_append {k : Nat} (r mask : Nat) {m : Bits} (h : m.length = k) :
    bchEncode (k + r) k mask m
      = m ++ (List.range r).map (outputBit k mask (stateAfter k mask (num m) k)) := by
  subst h
  rw [bchEncode_eq, map_outputBit_range_add, map_outputBit_range_width, bitsOf_num]

theorem take_bchEncode {n k : Nat} (mask : Nat) {m : Bits} (h : m.length = k) (hn : k ≤ n) :
    (bchEncode n k mask m).take k = m := by
  obtain ⟨r, rfl⟩ := Nat.exists_eq_add_of_le hn
  rw [bchEncode_append r mask h, ← h, List.take_left]

/-- Each later bit is the parity of the tapped bits among the k before it, which the state holds. -/
theorem followsRecurrence_bchEncode {k : Nat} (n mask : Nat) (m : Bits) (hk : 1 ≤ k) :
    FollowsRecurrence k mask (bchEncode n k mask m) := by
  intro j hj
  rw [length_bchEncode] at hj
  rw [getD_bchEncode _ _ _ hj, outputBit_add_width _ _ _ hk, parityOf]
  congr 2
  refine List.countP_congr fun t ht => ?_
  have htk : t < k := List.mem_range.mp ht
  have hback : k - 1 - (k - 1 - t) = t := by omega
  rw [getD_bchEncode _ _ _ (by omega), outputBit_add_of_lt _ _ _ (by omega), hback, Nat.testBit_and, Bool.and_comm]

/-! ### BCH.GEN (R200) -/

theorem exec_bchGen (d a : Buf) (s : State) :
    exec (.bchGen d a) s = conclude (.bchGen d a) s
      (if badLfsrWidth s.arg1.toNat then .fatal .badWidth
        else if s.arg0.toNat < s.arg1.toNat then .fatal .badValue
        else if bufLen s a ≠ s.arg1.toNat then .fatal .badLength
        else if s.arg0.toNat > Config.cap then .fatal .capacity
        else .done (setBuf s d (bchEncode s.arg0.toNat s.arg1.toNat (s.arg2.toNat % 2 ^ s.arg1.toNat)
          (readBuf s a)))) := by
  rw [← length_readBuf]; rfl

/-- Settles O41: the four checks in their order, then the systematic encoder. -/
theorem bchGenIsSystematic : Obligations.BchGenIsSystematic := by
  intro d a s n k
  rw [exec_bchGen]
  refine ⟨fun hw => ?badWidth, fun h1 h64 hnk => ?badValue, fun h1 h64 hkn hlen => ?badLength,
    fun h1 h64 hkn hlen hlong => ?capacity, fun h1 h64 hkn hlen hfits => ?encodes⟩
  case badWidth => exact conclude_of_check_fails ((badLfsrWidth_iff k).mpr hw)
  case badValue => rw [conclude_of_check_passes (not_badLfsrWidth h1 h64), conclude_of_check_fails hnk]
  case badLength =>
    rw [conclude_of_check_passes (not_badLfsrWidth h1 h64), conclude_of_check_passes hkn.not_gt,
      conclude_of_check_fails hlen]
  case capacity =>
    rw [conclude_of_check_passes (not_badLfsrWidth h1 h64), conclude_of_check_passes hkn.not_gt,
      conclude_of_check_passes (not_not.mpr hlen), conclude_of_cap_lt _ s d hlong]
  case encodes =>
    rw [conclude_of_check_passes (not_badLfsrWidth h1 h64), conclude_of_check_passes hkn.not_gt,
      conclude_of_check_passes (not_not.mpr hlen)]
    obtain ⟨t, hrun, hwrote⟩ := conclude_of_le_cap (.bchGen d a) s d (length_bchEncode n k _ _) hfits
    exact ⟨t, _, hrun, hwrote, length_bchEncode .., take_bchEncode _ ((length_readBuf s a).trans hlen) hkn,
      followsRecurrence_bchEncode _ _ _ h1⟩

/-! ### The fixed codes: the length check, then the codeword (R209) -/

section
variable (i : Instr) {s : State} (d : Buf) {a : Buf} {len : Nat} (enc : Bits → Bits)

theorem encodeFixed_eq (s : State) (a : Buf) (len : Nat) :
    encodeFixed s d a len enc
      = if bufLen s a ≠ len then .fatal .badLength else .done (setBuf s d (enc (readBuf s a))) := by
  rw [← length_readBuf]; rfl

theorem conclude_encodeFixed_rejects (h : bufLen s a ≠ len) :
    conclude i s (encodeFixed s d a len enc) = .next (fatalRecord .badLength (encode i) s) := by
  rw [encodeFixed_eq, conclude_of_check_fails h]

theorem conclude_encodeFixed (h : bufLen s a = len) :
    conclude i s (encodeFixed s d a len enc) = .next (complete (setBuf s d (enc (readBuf s a)))) := by
  rw [encodeFixed_eq, conclude_of_check_passes (not_not.mpr h), conclude_next, endState_done]

variable {enc}

/-- A message of the right length is encoded, `x` being its codeword. -/
theorem conclude_encodeFixed_wrote (h : bufLen s a = len) {x : Bits} (hx : enc (readBuf s a) = x)
    (hcap : x.length ≤ Config.cap) :
    ∃ t, conclude i s (encodeFixed s d a len enc) = .next t ∧ WroteBuffer d x s t :=
  ⟨_, conclude_encodeFixed i d enc h, hx ▸ wroteBuffer_setBuf s d (hx.symm ▸ hcap)⟩

end

section
variable (d a : Buf) (s : State)

theorem exec_bch21_6 : exec (.bch21_6 d a) s = conclude (.bch21_6 d a) s (encodeFixed s d a 6 bch21) := rfl

theorem exec_bch51_8 : exec (.bch51_8 d a) s = conclude (.bch51_8 d a) s (encodeFixed s d a 8 bch51) := rfl

theorem exec_bch15_11 : exec (.bch15_11 d a) s = conclude (.bch15_11 d a) s (encodeFixed s d a 11 bch15) := rfl

theorem exec_bch15_11HW :
    exec (.bch15_11HW d a) s = conclude (.bch15_11HW d a) s (encodeFixed s d a 11 bch15Registers) := rfl

theorem exec_bchB1I : exec (.bchB1I d a) s = conclude (.bchB1I d a) s (encodeFixed s d a 22 b1iWord) := rfl

theorem exec_bchB1IW1 : exec (.bchB1IW1 d a) s = conclude (.bchB1IW1 d a) s (encodeFixed s d a 26 b1iWord1) := rfl

end

/-- Settles O46: the six commands share the length check. -/
theorem fixedBchRejectsWrongLength : Obligations.FixedBchRejectsWrongLength := by
  intro d a s i len hcode hlen
  simp only [List.mem_cons, Prod.mk.injEq, List.not_mem_nil, or_false] at hcode
  obtain ⟨rfl, rfl⟩ | ⟨rfl, rfl⟩ | ⟨rfl, rfl⟩ | ⟨rfl, rfl⟩ | ⟨rfl, rfl⟩ | ⟨rfl, rfl⟩ := hcode
  · rw [exec_bch21_6, conclude_encodeFixed_rejects _ d _ hlen]
  · rw [exec_bch51_8, conclude_encodeFixed_rejects _ d _ hlen]
  · rw [exec_bch15_11, conclude_encodeFixed_rejects _ d _ hlen]
  · rw [exec_bch15_11HW, conclude_encodeFixed_rejects _ d _ hlen]
  · rw [exec_bchB1I, conclude_encodeFixed_rejects _ d _ hlen]
  · rw [exec_bchB1IW1, conclude_encodeFixed_rejects _ d _ hlen]

/-! ### BCH.21_6 and BCH.51_8 (R201, R202) -/

/-- A fixed code whose encoder is the systematic one with a mask. -/
theorem conclude_encodeFixed_systematic (i : Instr) {s : State} (d : Buf) {a : Buf} {n k : Nat} (mask : Nat)
    (hlen : bufLen s a = k) (hk : 1 ≤ k) (hkn : k ≤ n) (hcap : n ≤ Config.cap) :
    ∃ t x, conclude i s (encodeFixed s d a k (bchEncode n k mask)) = .next t ∧ WroteBuffer d x s t ∧ x.length = n
      ∧ x.take k = readBuf s a ∧ FollowsRecurrence k mask x := by
  obtain ⟨t, hrun, hwrote⟩ := conclude_encodeFixed_wrote i d (enc := bchEncode n k mask) hlen rfl
    ((length_bchEncode ..).trans_le hcap)
  exact ⟨t, _, hrun, hwrote, length_bchEncode .., take_bchEncode mask ((length_readBuf s a).trans hlen) hkn,
    followsRecurrence_bchEncode _ _ _ hk⟩

/-- Settles O42: both codes are the systematic encoder with their mask. -/
theorem bchB1CCodewords : Obligations.BchB1CCodewords :=
  ⟨fun d a s hlen => conclude_encodeFixed_systematic (.bch21_6 d a) d _ hlen (by decide) (by decide) (by decide),
    fun d a s hlen => conclude_encodeFixed_systematic (.bch51_8 d a) d _ hlen (by decide) (by decide) (by decide)⟩

/-! ### Functions that are linear over GF(2) -/

/-- Adding the top bit carries nowhere. -/
theorem two_pow_add_eq_xor {n v : Nat} (h : v < 2 ^ n) : 2 ^ n + v = 2 ^ n ^^^ v := by
  have hor : 2 ^ n + v = 2 ^ n ||| v := by simpa using Nat.two_pow_add_eq_or_of_lt h 1
  rw [hor]
  apply Nat.eq_of_testBit_eq
  intro i
  rw [Nat.testBit_or, Nat.testBit_xor, Nat.testBit_two_pow]
  by_cases hi : n = i
  · subst hi
    rw [Nat.testBit_lt_two_pow h, Bool.or_false, Bool.xor_false]
  · rw [decide_eq_false hi, Bool.false_or, Bool.false_xor]

/-- The function takes the bitwise sum of two numbers to the bitwise sum of their values. -/
def XorLinear (f : Nat → Nat) : Prop := ∀ a b, f (a ^^^ b) = f a ^^^ f b

namespace XorLinear

variable {f g : Nat → Nat}

theorem id : XorLinear fun v => v := fun _ _ => rfl

theorem comp (hf : XorLinear f) (hg : XorLinear g) : XorLinear fun v => f (g v) := fun a b => by
  simp only [hg a b, hf (g a) (g b)]

theorem map_zero (hf : XorLinear f) : f 0 = 0 := by
  have h := hf 0 0
  rwa [Nat.xor_self, Nat.xor_self] at h

/-- Two linear functions that agree on the powers of two below 2^n agree on every number below 2^n. -/
theorem eq_of_basis (hf : XorLinear f) (hg : XorLinear g) {n v : Nat} (hbasis : ∀ j < n, f (2 ^ j) = g (2 ^ j))
    (hv : v < 2 ^ n) : f v = g v := by
  induction n generalizing v with
  | zero =>
    obtain rfl : v = 0 := by omega
    rw [hf.map_zero, hg.map_zero]
  | succ n ih =>
    have hlow : ∀ {w}, w < 2 ^ n → f w = g w := ih fun j hj => hbasis j (by omega)
    rcases lt_or_ge v (2 ^ n) with hsmall | hbig
    · exact hlow hsmall
    · obtain ⟨w, rfl⟩ := Nat.exists_eq_add_of_le hbig
      have hw : w < 2 ^ n := by rw [pow_succ] at hv; omega
      rw [two_pow_add_eq_xor hw, hf, hg, hbasis n (Nat.lt_succ_self n), hlow hw]

end XorLinear

theorem xorLinear_mod_two_pow (n : Nat) : XorLinear fun v => v % 2 ^ n := fun _ _ => Nat.xor_mod_two_pow

theorem xorLinear_bit_false : XorLinear (Nat.bit false) := fun a b => (Nat.xor_bit false a false b).symm

/-! ### The LFSR is linear (R160) -/

theorem parityOf_succ (n v : Nat) : parityOf (n + 1) v = (parityOf n v ^^ v.testBit n) := by
  rw [parityOf, parityOf, List.range_succ, List.countP_append, List.countP_singleton]
  have htwo := Nat.mod_two_eq_zero_or_one ((List.range n).countP fun t => v.testBit t)
  cases v.testBit n <;> rcases htwo with h | h <;> simp [Nat.add_mod, h]

theorem parityOf_xor (n a b : Nat) : parityOf n (a ^^^ b) = (parityOf n a ^^ parityOf n b) := by
  induction n with
  | zero => rfl
  | succ n ih =>
    rw [parityOf_succ, parityOf_succ, parityOf_succ, ih, Nat.testBit_xor]
    simp only [Bool.xor_assoc, Bool.xor_left_comm]

theorem xorLinear_nextState (l poly : Nat) : XorLinear (nextState (l + 1) poly) := by
  intro a b
  rw [nextState_eq_bit, nextState_eq_bit, nextState_eq_bit, Nat.xor_bit, Nat.and_xor_distrib_right, parityOf_xor,
    Nat.xor_mod_two_pow]

theorem xorLinear_stateAfter (l poly i : Nat) : XorLinear fun v => stateAfter (l + 1) poly v i := by
  induction i with
  | zero => exact .id
  | succ i ih =>
    simp only [stateAfter_succ]
    exact ih.comp (xorLinear_nextState l poly)

/-! ### The remainder mod x^4 + x + 1 (R204) -/

/-- Takes the term x^d out of a polynomial with the multiple x^(d-4) of x^4 + x + 1. -/
def takeOut (d r : Nat) : Nat := if r.testBit d then r ^^^ (0b10011 <<< (d - 4)) else r

theorem xorLinear_takeOut (d : Nat) : XorLinear (takeOut d) := by
  intro a b
  simp only [takeOut, Nat.testBit_xor]
  generalize 0b10011 <<< (d - 4) = c
  cases a.testBit d <;> cases b.testBit d
  case true.true => simp [Nat.xor_left_comm, Nat.xor_comm]
  case true.false => simp [Nat.xor_left_comm, Nat.xor_comm]
  case false.true => simp [Nat.xor_assoc]
  case false.false => rfl

theorem xorLinear_foldl_takeOut (ds : List Nat) : XorLinear fun v => ds.foldl (fun r d => takeOut d r) v := by
  induction ds with
  | nil => exact .id
  | cons d ds ih => exact ih.comp (xorLinear_takeOut d)

theorem remainder15_eq (v : Nat) :
    remainder15 v = [14, 13, 12, 11, 10, 9, 8, 7, 6, 5, 4].foldl (fun r d => takeOut d r) (v <<< 4) := by
  rw [Nat.shiftLeft_eq]; rfl

theorem xorLinear_remainder15 : XorLinear remainder15 := by
  intro a b
  rw [remainder15_eq, remainder15_eq, remainder15_eq, Nat.shiftLeft_xor_distrib]
  exact xorLinear_foldl_takeOut _ _ _

/-- One step of the long division: the next coefficient multiplies the remainder by x and adds b · x^4. -/
theorem remainder15_bit {v : Nat} (b : Bool) (h : v < 2 ^ 10) :
    remainder15 (Nat.bit b v) = takeOut 4 (Nat.bit false (remainder15 v)) ^^^ remainder15 b.toNat := by
  have hshift : remainder15 (Nat.bit false v) = takeOut 4 (Nat.bit false (remainder15 v)) :=
    (xorLinear_remainder15.comp xorLinear_bit_false).eq_of_basis
      ((xorLinear_takeOut 4).comp (xorLinear_bit_false.comp xorLinear_remainder15)) (by decide) h
  have hsplit : Nat.bit b v = Nat.bit false v ^^^ Nat.bit b 0 := by
    rw [Nat.xor_bit, Nat.xor_zero, Bool.false_bne]
  rw [hsplit, xorLinear_remainder15, hshift, Nat.bit_val b 0, Nat.mul_zero, Nat.zero_add]

/-! ### The two forms of BCH(15,11,1) (R204, R205) -/

/-- The register form's check bits, r3 first. -/
def checkBits (r : DividerRegs) : Bits := [r.r3, r.r2, r.r1, r.r0]

theorem bch15Registers_eq (m : Bits) :
    bch15Registers m = m ++ checkBits (m.foldl divideBit ⟨false, false, false, false⟩) := rfl

/-- One input bit is one step of the long division on the number that the registers hold. -/
theorem num_checkBits_divideBit (r : DividerRegs) (b : Bool) :
    num (checkBits (divideBit r b)) = takeOut 4 (Nat.bit false (num (checkBits r))) ^^^ remainder15 b.toNat := by
  obtain ⟨r0, r1, r2, r3⟩ := r
  revert r0 r1 r2 r3 b
  decide

/-- After the whole message the registers hold its remainder. -/
theorem num_checkBits_foldl {m : Bits} (h : m.length ≤ 11) :
    num (checkBits (m.foldl divideBit ⟨false, false, false, false⟩)) = remainder15 (num m) := by
  induction m using List.reverseRecOn with
  | nil => decide
  | append_singleton m b ih =>
    rw [List.length_append, List.length_singleton] at h
    have hsmall : num m < 2 ^ 10 := (num_lt m).trans_le (Nat.pow_le_pow_right (by decide) (by omega))
    rw [List.foldl_append, List.foldl_cons, List.foldl_nil, num_checkBits_divideBit, ih (by omega),
      num_append_singleton, ← Nat.bit_val, remainder15_bit b hsmall]

theorem bch15Registers_eq_codeword15 {m : Bits} (h : m.length = 11) : bch15Registers m = codeword15 m := by
  have hbits := bitsOf_num (checkBits (m.foldl divideBit ⟨false, false, false, false⟩))
  rw [num_checkBits_foldl h.le] at hbits
  rw [bch15Registers_eq, codeword15, ← hbits]; rfl

theorem bitsOf_mod (w v : Nat) : bitsOf w (v % 2 ^ w) = bitsOf w v := by
  have h := bitsOf_num (bitsOf w v)
  rwa [num_bitsOf, length_bitsOf] at h

/-- The state after 4 Steps holds the last 11 bits of the codeword, the check bits lowest; both they and the
remainder are linear in the message. -/
theorem stateAfter_four_eq_remainder15 {v : Nat} (h : v < 2 ^ 11) :
    stateAfter 11 0b11110101100 v 4 % 2 ^ 4 = remainder15 v :=
  ((xorLinear_mod_two_pow 4).comp (xorLinear_stateAfter 10 0b11110101100 4)).eq_of_basis xorLinear_remainder15
    (by decide) h

theorem bch15_eq_codeword15 {m : Bits} (h : m.length = 11) : bch15 m = codeword15 m := by
  have hnum : num m < 2 ^ 11 := h ▸ num_lt m
  calc bch15 m
      = m ++ (List.range 4).map (outputBit 11 0b11110101100 (stateAfter 11 0b11110101100 (num m) 11)) :=
        bchEncode_append 4 _ h
    _ = m ++ bitsOf 4 (stateAfter 11 0b11110101100 (num m) 4) := by
        rw [map_outputBit_range_after_width _ _ (by decide)]
    _ = m ++ bitsOf 4 (remainder15 (num m)) := by rw [← bitsOf_mod, stateAfter_four_eq_remainder15 hnum]
    _ = codeword15 m := rfl

theorem length_codeword15 (m : Bits) : (codeword15 m).length = m.length + 4 := by
  rw [codeword15, List.length_append, length_bitsOf]

/-- Settles O43: the LFSR form by linearity (`bch15_eq_codeword15`), the register form by long division
(`bch15Registers_eq_codeword15`). -/
theorem bch15IsPolynomialDivision : Obligations.Bch15IsPolynomialDivision := by
  intro d a s hlen
  have hmessage : (readBuf s a).length = 11 := (length_readBuf s a).trans hlen
  have hcap : (codeword15 (readBuf s a)).length ≤ Config.cap := by
    rw [length_codeword15, hmessage]; decide
  rw [exec_bch15_11, exec_bch15_11HW]
  exact ⟨conclude_encodeFixed_wrote _ d hlen (bch15_eq_codeword15 hmessage) hcap,
    conclude_encodeFixed_wrote _ d hlen (bch15Registers_eq_codeword15 hmessage) hcap⟩

/-- Settles O44: both forms complete, with the codeword of R204 in D. -/
theorem bch15FormsAgree : Obligations.Bch15FormsAgree := by
  intro d a s hlen
  have hmessage : (readBuf s a).length = 11 := (length_readBuf s a).trans hlen
  rw [exec_bch15_11, exec_bch15_11HW, conclude_encodeFixed _ d _ hlen, conclude_encodeFixed _ d _ hlen,
    bch15_eq_codeword15 hmessage, bch15Registers_eq_codeword15 hmessage]

/-! ### BCH.B1I and BCH.B1IW1 (R207, R208, R260) -/

/-- Bit 2i of the interleaved string is bit i of the first, bit 2i + 1 bit i of the second (R260). -/
theorem interleave2_eq_map {n : Nat} {a b : Bits} (ha : a.length = n) (hb : b.length = n) :
    interleave2 a b
      = (List.range (2 * n)).map fun i => if i % 2 = 0 then a.getD (i / 2) false else b.getD (i / 2) false := by
  induction n generalizing a b with
  | zero => rw [List.length_eq_zero_iff.mp ha]; rfl
  | succ n ih =>
    obtain ⟨x, a, rfl⟩ := List.exists_cons_of_length_eq_add_one ha
    obtain ⟨y, b, rfl⟩ := List.exists_cons_of_length_eq_add_one hb
    have hcons : interleave2 (x :: a) (y :: b) = x :: y :: interleave2 a b := rfl
    have hhalf (i : Nat) : (2 + i) / 2 = i / 2 + 1 := by omega
    rw [hcons, ih (Nat.succ.inj ha) (Nat.succ.inj hb), Nat.mul_succ, Nat.add_comm, List.range_add, List.map_append,
      List.map_map]
    simp only [Function.comp_def, Nat.add_mod_left, hhalf, List.getD_cons_succ]
    rfl

theorem b1iWord_eq_word30 {m : Bits} (h : m.length = 22) : b1iWord m = word30 m := by
  have hfirst : (m.take 11).length = 11 := by rw [List.length_take]; omega
  have hsecond : ((m.drop 11).take 11).length = 11 := by rw [List.length_take, List.length_drop]; omega
  calc b1iWord m = interleave2 (bch15 (m.take 11)) (bch15 ((m.drop 11).take 11)) := rfl
    _ = interleave2 (codeword15 (m.take 11)) (codeword15 ((m.drop 11).take 11)) := by
        rw [bch15_eq_codeword15 hfirst, bch15_eq_codeword15 hsecond]
    _ = word30 m := interleave2_eq_map (by rw [length_codeword15, hfirst]) (by rw [length_codeword15, hsecond])

theorem b1iWord1_eq_word1 {m : Bits} (h : m.length = 26) : b1iWord1 m = word1 m := by
  have hlast : ((m.drop 15).take 11).length = 11 := by rw [List.length_take, List.length_drop]; omega
  calc b1iWord1 m = m.take 15 ++ bch15 ((m.drop 15).take 11) := rfl
    _ = word1 m := by rw [bch15_eq_codeword15 hlast, word1]

/-- Settles O45: each 11-bit part is encoded as in O43. -/
theorem bchB1IWords : Obligations.BchB1IWords := by
  refine ⟨fun d a s hlen => ?b1i, fun d a s hlen => ?b1iw1⟩
  case b1i =>
    have hword := b1iWord_eq_word30 ((length_readBuf s a).trans hlen)
    rw [exec_bchB1I]
    exact conclude_encodeFixed_wrote _ d hlen hword (by rw [← hword, length_b1iWord]; decide)
  case b1iw1 =>
    have hword := b1iWord1_eq_word1 ((length_readBuf s a).trans hlen)
    rw [exec_bchB1IW1]
    exact conclude_encodeFixed_wrote _ d hlen hword
      (by rw [← hword]; exact (length_b1iWord1_le _).trans (by decide))

end Sys2Proof.Machine

/-! The LDPC family (45_ldpc.md): LDPC.DERIVE (O47, O48), LDPC.ENC (O49) and the parity check of its codeword (O50).
A vector over GF(64) is a function of its index, and the row operations of the elimination are judged by the vectors
that solve the rows. -/

namespace Sys2Proof.Machine

open Sys2Proof.Spec

/-! ### The product and the inverse (R230, R231) -/

/-- A term multiplied by bit i of a number is added exactly where the bit is 1. -/
theorem xor_bit_mul (r v i x : Nat) : r ^^^ (v >>> i) % 2 * x = if v.testBit i then r ^^^ x else r := by
  rw [Nat.testBit_eq_decide_div_mod_eq, Nat.shiftRight_eq_div_pow]
  rcases Nat.mod_two_eq_zero_or_one (v / 2 ^ i) with h | h <;> simp [h]

/-- Both add the same terms, chosen by the same bits. -/
theorem gfMul_eq_gfTimes (a b : Sym) : gfMul a b = gfTimes a b := by
  simp only [gfMul, reducePoly, carrylessProduct, xor_bit_mul]
  rfl

theorem gfMul_eq_one_iff {a : Sym} (ha : a ≠ 0) (b : Sym) : gfMul a b = 1 ↔ b = gfInv a := by
  constructor
  · intro h
    calc b = gfMul (gfMul (gfInv a) a) b := by rw [gfMul_comm (gfInv a), gfMul_gfInv a ha, one_gfMul]
      _ = gfInv a := by rw [gfMul_assoc, h, gfMul_one]
  · rintro rfl
    exact gfMul_gfInv a ha

theorem sym_xor_zero (a : Sym) : a ^^^ 0 = a := BitVec.xor_zero

theorem sym_zero_xor (a : Sym) : 0 ^^^ a = a := BitVec.zero_xor

/-- Two symbols add up to 0 exactly when they are equal (R230: subtraction is addition). -/
theorem sym_xor_eq_zero_iff {a b : Sym} : a ^^^ b = 0 ↔ a = b := BitVec.xor_eq_zero_iff

theorem gfMul_xor (a b c : Sym) : gfMul a (b ^^^ c) = gfMul a b ^^^ gfMul a c := gfMul_add a b c

theorem xor_gfMul (a b c : Sym) : gfMul (a ^^^ b) c = gfMul a c ^^^ gfMul b c := add_gfMul a b c

/-! ### Sums over GF(64) (R233) -/

section
variable {k : Nat} {f g : Nat → Sym}

theorem gfSum_succ (k : Nat) (f : Nat → Sym) : gfSum (k + 1) f = gfSum k f ^^^ f k := by
  simp [gfSum, List.range_succ]

theorem gfSum_congr (h : ∀ i < k, f i = g i) : gfSum k f = gfSum k g := by
  induction k with
  | zero => rfl
  | succ k ih => rw [gfSum_succ, gfSum_succ, ih fun i hi => h i (hi.trans k.lt_succ_self), h k k.lt_succ_self]

theorem gfSum_xor (k : Nat) (f g : Nat → Sym) : gfSum k (fun i => f i ^^^ g i) = gfSum k f ^^^ gfSum k g := by
  induction k with
  | zero => exact (sym_xor_zero 0).symm
  | succ k ih => rw [gfSum_succ, gfSum_succ, gfSum_succ, ih]; ac_rfl

theorem gfMul_gfSum (a : Sym) (k : Nat) (f : Nat → Sym) : gfMul a (gfSum k f) = gfSum k fun i => gfMul a (f i) := by
  induction k with
  | zero => exact gfMul_zero a
  | succ k ih => rw [gfSum_succ, gfSum_succ, gfMul_xor, ih]

theorem gfSum_gfMul (k : Nat) (f : Nat → Sym) (a : Sym) : gfMul (gfSum k f) a = gfSum k fun i => gfMul (f i) a := by
  rw [gfMul_comm, gfMul_gfSum]
  exact gfSum_congr fun i _ => gfMul_comm a (f i)

/-- The order of two sums does not matter. -/
theorem gfSum_comm (k l : Nat) (f : Nat → Nat → Sym) :
    gfSum k (fun i => gfSum l (f i)) = gfSum l fun j => gfSum k fun i => f i j := by
  induction l with
  | zero =>
    induction k with
    | zero => rfl
    | succ k ih => rw [gfSum_succ, ih]; exact sym_xor_zero 0
  | succ l ih => simp only [gfSum_succ, gfSum_xor, ih]

theorem gfSum_eq_zero (h : ∀ i < k, f i = 0) : gfSum k f = 0 := by
  induction k with
  | zero => rfl
  | succ k ih =>
    rw [gfSum_succ, ih fun i hi => h i (hi.trans k.lt_succ_self), h k k.lt_succ_self, sym_xor_zero]

/-- A sum with one term that is not 0. -/
theorem gfSum_eq_single {c : Nat} (hc : c < k) (h : ∀ i < k, i ≠ c → f i = 0) : gfSum k f = f c := by
  have hpad : ∀ n ≤ k, gfSum n f = if c < n then f c else 0 := by
    intro n hn
    induction n with
    | zero => rfl
    | succ n ih =>
      rw [gfSum_succ, ih (by omega)]
      rcases lt_trichotomy c n with hlt | rfl | hgt
      · rw [if_pos hlt, if_pos (by omega), h n (by omega) (by omega), sym_xor_zero]
      · rw [if_neg (by omega), if_pos (by omega), sym_zero_xor]
      · rw [if_neg (by omega), if_neg (by omega), h n (by omega) (by omega), sym_xor_zero]
  rw [hpad k le_rfl, if_pos hc]

end

/-! ### Matrices and vectors (R233) -/

/-- Entry r of the product of a matrix of k columns and a vector. -/
def matVec (k : Nat) (m : Nat → Nat → Sym) (x : Nat → Sym) (r : Nat) : Sym := gfSum k fun c => gfMul (m r c) (x c)

/-- The vector with 1 at c and 0 elsewhere. -/
def unitVec (c i : Nat) : Sym := if i = c then 1 else 0

/-- V · M = I for matrices of size k: each column of M goes to its unit vector. -/
def IsLeftInverse (k : Nat) (v m : Nat → Nat → Sym) : Prop :=
  ∀ r c, r < k → c < k → matVec k v (fun t => m t c) r = unitVec c r

section
variable {k : Nat} {v m : Nat → Nat → Sym} {x y : Nat → Sym}

theorem matVec_congr (h : ∀ i < k, x i = y i) (r : Nat) : matVec k m x r = matVec k m y r :=
  gfSum_congr fun i hi => by rw [h i hi]

theorem matVec_zero (h : ∀ i < k, x i = 0) (r : Nat) : matVec k m x r = 0 :=
  gfSum_eq_zero fun i hi => by rw [h i hi, gfMul_zero]

/-- A matrix times a unit vector is a column. -/
theorem matVec_unitVec {c : Nat} (hc : c < k) (r : Nat) : matVec k m (unitVec c) r = m r c := by
  rw [matVec, gfSum_eq_single hc fun i _ hi => by rw [unitVec, if_neg hi, gfMul_zero], unitVec, if_pos rfl, gfMul_one]

theorem unitVec_matVec {r : Nat} (hr : r < k) (x : Nat → Sym) : matVec k (fun r c => unitVec c r) x r = x r := by
  rw [matVec, gfSum_eq_single hr fun i _ hi => by rw [unitVec, if_neg (Ne.symm hi), zero_gfMul], unitVec,
    if_pos rfl, one_gfMul]

/-- V · (M · x) = (V · M) · x. -/
theorem matVec_matVec (r : Nat) :
    matVec k v (matVec k m x) r = matVec k (fun r c => matVec k v (fun t => m t c) r) x r := by
  simp only [matVec, gfMul_gfSum, gfSum_gfMul, gfMul_assoc]
  exact gfSum_comm k k _

/-- A left inverse takes M · x back to x. -/
theorem IsLeftInverse.matVec_matVec_eq (h : IsLeftInverse k v m) {r : Nat} (hr : r < k) :
    matVec k v (matVec k m x) r = x r := by
  rw [matVec_matVec, ← unitVec_matVec hr x]
  exact gfSum_congr fun c hc => congrArg (gfMul · (x c)) (h r c hr hc)

end

/-! ### Rows and the vectors that solve them (R233) -/

/-- The product of a row whose first symbol stands in column d and a vector. -/
def rowDot (x : Nat → Sym) : Nat → List Sym → Sym
  | _, [] => 0
  | d, a :: row => gfMul a (x d) ^^^ rowDot x (d + 1) row

section
variable {x : Nat → Sym} {d : Nat}

theorem rowDot_append (row row' : List Sym) :
    rowDot x d (row ++ row') = rowDot x d row ^^^ rowDot x (d + row.length) row' := by
  induction row generalizing d with
  | nil => exact (sym_zero_xor _).symm
  | cons a row ih =>
    rw [List.cons_append, rowDot, rowDot, ih, BitVec.xor_assoc, List.length_cons, Nat.add_assoc, Nat.add_comm 1]

/-- A row given by its symbols: the product is their sum of products. -/
theorem rowDot_map_range (f : Nat → Sym) (n : Nat) :
    rowDot x d ((List.range n).map f) = gfSum n fun j => gfMul (f j) (x (d + j)) := by
  induction n with
  | zero => rfl
  | succ n ih =>
    rw [List.range_succ, List.map_append, rowDot_append, ih, gfSum_succ, List.length_map, List.length_range]
    exact congrArg _ (sym_xor_zero _)

/-- A row's leading symbol and the rest of it. -/
theorem rowDot_headD_tail (row : List Sym) :
    rowDot x d row = gfMul (row.headD 0) (x d) ^^^ rowDot x (d + 1) row.tail := by
  cases row with
  | nil => rw [List.headD_nil, zero_gfMul, sym_zero_xor]; rfl
  | cons a row => rfl

theorem rowDot_scaleRow (c : Sym) (row : List Sym) : rowDot x d (scaleRow c row) = gfMul c (rowDot x d row) := by
  induction row generalizing d with
  | nil => exact (gfMul_zero c).symm
  | cons a row ih =>
    have hcons : scaleRow c (a :: row) = gfMul c a :: scaleRow c row := rfl
    rw [hcons, rowDot, rowDot, ih, gfMul_xor, gfMul_assoc]

theorem rowDot_addScaled {acc row : List Sym} (c : Sym) (h : acc.length = row.length) :
    rowDot x d (addScaled acc c row) = rowDot x d acc ^^^ gfMul c (rowDot x d row) := by
  rw [addScaled_eq c h]
  induction acc generalizing row d with
  | nil =>
    rw [List.length_eq_zero_iff.mp h.symm, rowDot, gfMul_zero, sym_xor_zero]; rfl
  | cons a acc ih =>
    obtain ⟨b, row, rfl⟩ := List.exists_cons_of_length_eq_add_one h.symm
    rw [List.zipWith_cons_cons, rowDot, rowDot, rowDot, ih (Nat.succ.inj h), gfAdd, xor_gfMul, gfMul_xor, gfMul_assoc]
    ac_rfl

/-- Where the pivot row solves for column d, clearing a row's leading symbol does not change the row's product. -/
theorem rowDot_clearLead {pivot row : List Sym} (hw : row.tail.length = pivot.length)
    (hpivot : rowDot x (d + 1) pivot = x d) : rowDot x (d + 1) (clearLead pivot row) = rowDot x d row := by
  rw [clearLead, rowDot_addScaled _ hw, hpivot, rowDot_headD_tail row, BitVec.xor_comm]

/-- A vector that is 0 beyond column d sees only a row's leading symbol. -/
theorem rowDot_of_zero_beyond (h : ∀ i, d < i → x i = 0) (row : List Sym) :
    rowDot x d row = gfMul (row.headD 0) (x d) := by
  have hzero : ∀ row e, d < e → rowDot x e row = 0 := by
    intro row
    induction row with
    | nil => intro e _; rfl
    | cons a row ih =>
      intro e he
      rw [rowDot, h e he, gfMul_zero, ih _ (he.trans e.lt_succ_self), sym_xor_zero]
  rw [rowDot_headD_tail, hzero _ _ d.lt_succ_self, sym_xor_zero]

end

/-- A vector solves an elimination in progress: row i of the solved ones stands for symbol i of the vector, and
every other row has product 0. As many columns are dropped as rows are solved. -/
structure Solves (x : Nat → Sym) (solved rest : List (List Sym)) : Prop where
  onSolved : solved.map (rowDot x solved.length) = (List.range solved.length).map x
  onRest : ∀ row ∈ rest, rowDot x solved.length row = 0

/-! ### One column of the elimination (R233, I10) -/

/-- The pivot row of a column, normalised and without that column. -/
def pivotRow (row : List Sym) : List Sym := scaleRow (gfInv (row.headD 0)) row.tail

@[simp] theorem length_pivotRow (row : List Sym) : (pivotRow row).length = row.tail.length := List.length_map ..

theorem length_clearLead {pivot row : List Sym} (h : row.tail.length = pivot.length) :
    (clearLead pivot row).length = pivot.length := by
  rw [clearLead, addScaled_eq _ h, List.length_zipWith, h, Nat.min_self]

/-- The pivot is a row with a leading symbol that is not 0, and the other rows stay. -/
theorem takePivot_some {rows others : List (List Sym)} {row : List Sym} (h : takePivot rows = some (row, others)) :
    row.headD 0 ≠ 0 ∧ rows.Perm (row :: others) := by
  induction rows generalizing others with
  | nil => cases h
  | cons r rows ih =>
    rw [takePivot] at h
    split at h
    case isTrue hr => cases h; exact ⟨hr, .refl _⟩
    case isFalse =>
      obtain ⟨⟨row', others'⟩, hrec, heq⟩ := Option.map_eq_some_iff.mp h
      cases heq
      obtain ⟨hne, hperm⟩ := ih hrec
      exact ⟨hne, (hperm.cons r).trans (.swap ..)⟩

theorem takePivot_none {rows : List (List Sym)} (h : takePivot rows = none) : ∀ row ∈ rows, row.headD 0 = 0 := by
  induction rows with
  | nil => simp
  | cons r rows ih =>
    rw [takePivot] at h
    split at h
    case isTrue => cases h
    case isFalse hr => exact List.forall_mem_cons.mpr ⟨not_not.mp hr, ih (Option.map_eq_none_iff.mp h)⟩

/-- The solved rows after a column whose pivot is a given row: the column cleared from each, then the pivot row. -/
def solvedAfter (row : List Sym) (solved : List (List Sym)) : List (List Sym) :=
  solved.map (clearLead (pivotRow row)) ++ [pivotRow row]

/-- The other rows after that column. -/
def restAfter (row : List Sym) (others : List (List Sym)) : List (List Sym) := others.map (clearLead (pivotRow row))

@[simp] theorem length_solvedAfter (row : List Sym) (solved : List (List Sym)) :
    (solvedAfter row solved).length = solved.length + 1 := by simp [solvedAfter]

theorem eliminate_of_pivot (solved : List (List Sym)) {rest others : List (List Sym)} {row : List Sym} (n : Nat)
    (h : takePivot rest = some (row, others)) :
    eliminate solved rest (n + 1) = eliminate (solvedAfter row solved) (restAfter row others) n := by
  rw [eliminate, h]; rfl

/-- A normalised pivot row solves for its column exactly where the row it comes from has product 0. -/
theorem rowDot_pivotRow_eq_iff {x : Nat → Sym} {d : Nat} {row : List Sym} (h : row.headD 0 ≠ 0) :
    rowDot x (d + 1) (pivotRow row) = x d ↔ rowDot x d row = 0 := by
  have hunit (b : Sym) : gfMul (row.headD 0) (gfMul (gfInv (row.headD 0)) b) = b := by
    rw [← gfMul_assoc, gfMul_gfInv _ h, one_gfMul]
  have hunit' (b : Sym) : gfMul (gfInv (row.headD 0)) (gfMul (row.headD 0) b) = b := by
    rw [← gfMul_assoc, gfMul_comm (gfInv _), gfMul_gfInv _ h, one_gfMul]
  rw [pivotRow, rowDot_scaleRow, rowDot_headD_tail row, sym_xor_eq_zero_iff]
  constructor
  · intro hx; rw [← hx, hunit]
  · intro hx; rw [← hx, hunit']

section
variable {solved rest others : List (List Sym)} {row : List Sym} {w : Nat} {x : Nat → Sym}

/-- A column of the elimination leaves all rows one symbol shorter. -/
theorem width_step (hp : takePivot rest = some (row, others)) (hw : ∀ r ∈ solved ++ rest, r.length = w + 1) :
    ∀ r ∈ solvedAfter row solved ++ restAfter row others, r.length = w := by
  obtain ⟨-, hperm⟩ := takePivot_some hp
  have htail : ∀ r ∈ solved ++ row :: others, r.tail.length = w := fun r hr => by
    rw [List.length_tail, hw r ((hperm.append_left solved).mem_iff.mpr hr), Nat.add_sub_cancel]
  have hpivot : (pivotRow row).length = w := by rw [length_pivotRow]; exact htail row (by simp)
  have hclear : ∀ r ∈ solved ++ row :: others, (clearLead (pivotRow row) r).length = w := fun r hr => by
    rw [length_clearLead ((htail r hr).trans hpivot.symm), hpivot]
  intro r hr
  simp only [solvedAfter, restAfter, List.mem_append, List.mem_map, List.mem_singleton] at hr
  obtain (⟨r, hr, rfl⟩ | rfl) | ⟨r, hr, rfl⟩ := hr
  · exact hclear r (by simp [hr])
  · exact hpivot
  · exact hclear r (by simp [hr])

theorem solves_perm_cons_iff (h : rest.Perm (row :: others)) :
    Solves x solved rest ↔ rowDot x solved.length row = 0 ∧ Solves x solved others := by
  have hrest : (∀ r ∈ rest, rowDot x solved.length r = 0)
      ↔ rowDot x solved.length row = 0 ∧ ∀ r ∈ others, rowDot x solved.length r = 0 := by
    simp only [h.mem_iff, List.forall_mem_cons]
  constructor
  · rintro ⟨hsolved, hall⟩
    obtain ⟨hrow, hothers⟩ := hrest.mp hall
    exact ⟨hrow, hsolved, hothers⟩
  · rintro ⟨hrow, hsolved, hothers⟩
    exact ⟨hsolved, hrest.mpr ⟨hrow, hothers⟩⟩

/-- Where the pivot row solves for its column, the rows with the column cleared have the products of before. -/
theorem map_rowDot_clearLead {rows : List (List Sym)} {pivot : List Sym} {d : Nat}
    (hw : ∀ r ∈ rows, r.tail.length = pivot.length) (hpivot : rowDot x (d + 1) pivot = x d) :
    (rows.map (clearLead pivot)).map (rowDot x (d + 1)) = rows.map (rowDot x d) := by
  rw [List.map_map]
  exact List.map_congr_left fun r hr => rowDot_clearLead (hw r hr) hpivot

/-- After a column, a vector solves the pivot row for this column and solves the other rows as before. -/
theorem solves_after_iff (hw : ∀ r ∈ solved ++ others, r.tail.length = (pivotRow row).length) :
    Solves x (solvedAfter row solved) (restAfter row others)
      ↔ rowDot x (solved.length + 1) (pivotRow row) = x solved.length ∧ Solves x solved others := by
  have hsolved : (solvedAfter row solved).map (rowDot x (solved.length + 1)) = (List.range (solved.length + 1)).map x
      ↔ rowDot x (solved.length + 1) (pivotRow row) = x solved.length
        ∧ solved.map (rowDot x solved.length) = (List.range solved.length).map x := by
    rw [solvedAfter, List.map_append, List.map_singleton, List.range_succ, List.map_append, List.map_singleton,
      List.append_eq_append_iff_of_size_eq_right (by simp), and_comm, List.singleton_inj]
    exact and_congr_right fun hx => by rw [map_rowDot_clearLead (fun r hr => hw r (List.mem_append_left _ hr)) hx]
  have hrest (hx : rowDot x (solved.length + 1) (pivotRow row) = x solved.length) :
      (∀ r ∈ restAfter row others, rowDot x (solved.length + 1) r = 0)
        ↔ ∀ r ∈ others, rowDot x solved.length r = 0 := by
    rw [restAfter, List.forall_mem_map]
    exact forall₂_congr fun r hr => by rw [rowDot_clearLead (hw r (List.mem_append_right _ hr)) hx]
  constructor
  · rintro ⟨hs, hr⟩
    rw [length_solvedAfter] at hs hr
    obtain ⟨hx, hs⟩ := hsolved.mp hs
    exact ⟨hx, hs, (hrest hx).mp hr⟩
  · rintro ⟨hx, hs, hr⟩
    constructor
    · rw [length_solvedAfter]; exact hsolved.mpr ⟨hx, hs⟩
    · rw [length_solvedAfter]; exact (hrest hx).mpr hr

/-- One column of the elimination changes no solution. -/
theorem solves_step (hp : takePivot rest = some (row, others)) (hw : ∀ r ∈ solved ++ rest, r.length = w + 1) :
    Solves x solved rest ↔ Solves x (solvedAfter row solved) (restAfter row others) := by
  obtain ⟨hlead, hperm⟩ := takePivot_some hp
  have hw' : ∀ r ∈ solved ++ row :: others, r.length = w + 1 := fun r hr =>
    hw r ((hperm.append_left solved).mem_iff.mpr hr)
  have htail : ∀ r ∈ solved ++ others, r.tail.length = (pivotRow row).length := fun r hr => by
    have hr : r ∈ solved ++ row :: others := by simp only [List.mem_append, List.mem_cons] at hr ⊢; tauto
    rw [length_pivotRow, List.length_tail, List.length_tail, hw' r hr, hw' row (by simp)]
  rw [solves_perm_cons_iff hperm, solves_after_iff htail, rowDot_pivotRow_eq_iff hlead]

end

/-! ### The whole elimination (R233) -/

/-- An elimination that finds all pivots changes no solution, and leaves rows of the columns that it did not drop. -/
theorem solves_iff_of_eliminate {solved rest rows : List (List Sym)} {n w : Nat}
    (h : eliminate solved rest n = some rows) (hw : ∀ r ∈ solved ++ rest, r.length = w + n) (hn : rest.length = n) :
    (∀ r ∈ rows, r.length = w) ∧ ∀ x, Solves x solved rest ↔ Solves x rows [] := by
  induction n generalizing solved rest with
  | zero =>
    cases h
    rw [List.length_eq_zero_iff] at hn
    subst hn
    exact ⟨fun r hr => hw r (List.mem_append_left _ hr), fun x => Iff.rfl⟩
  | succ n ih =>
    cases hp : takePivot rest with
    | none => rw [eliminate, hp] at h; cases h
    | some p =>
      obtain ⟨row, others⟩ := p
      rw [eliminate_of_pivot solved n hp] at h
      have hothers : rest.length = others.length + 1 := (takePivot_some hp).2.length_eq
      obtain ⟨hwidth, hsolves⟩ := ih h (width_step hp hw) (by rw [restAfter, List.length_map]; omega)
      exact ⟨hwidth, fun x => (solves_step hp hw).trans (hsolves x)⟩

/-- The solution that a column without a pivot leaves: 1 in this column, 0 in every later one. -/
def freeColumnSolution (solved : List (List Sym)) (i : Nat) : Sym :=
  if i < solved.length then (solved.getD i []).headD 0 else unitVec solved.length i

theorem solves_freeColumnSolution {solved rest : List (List Sym)} (h : ∀ row ∈ rest, row.headD 0 = 0) :
    Solves (freeColumnSolution solved) solved rest := by
  have hcol : freeColumnSolution solved solved.length = 1 := by simp [freeColumnSolution, unitVec]
  have hdot (row : List Sym) : rowDot (freeColumnSolution solved) solved.length row = row.headD 0 := by
    rw [rowDot_of_zero_beyond, hcol, gfMul_one]
    intro i hi
    rw [freeColumnSolution, if_neg (by omega), unitVec, if_neg (by omega)]
  refine ⟨?_, fun row hrow => (hdot row).trans (h row hrow)⟩
  refine List.ext_getElem (by simp) fun i hi hi' => ?_
  have hi : i < solved.length := by simpa using hi
  simp [hdot, freeColumnSolution, hi]

/-- An elimination that misses a pivot has a solution other than 0, which is 0 outside the eliminated columns. -/
theorem exists_solution_of_eliminate_none {solved rest : List (List Sym)} {n w : Nat}
    (h : eliminate solved rest n = none) (hw : ∀ r ∈ solved ++ rest, r.length = w + n) :
    ∃ x, (∃ i < solved.length + n, x i ≠ 0) ∧ (∀ i, solved.length + n ≤ i → x i = 0)
      ∧ Solves x solved rest := by
  induction n generalizing solved rest with
  | zero => cases h
  | succ n ih =>
    cases hp : takePivot rest with
    | none =>
      refine ⟨freeColumnSolution solved, ⟨solved.length, by omega, ?_⟩, fun i hi => ?_,
        solves_freeColumnSolution (takePivot_none hp)⟩
      · simp [freeColumnSolution, unitVec]
      · rw [freeColumnSolution, if_neg (by omega), unitVec, if_neg (by omega)]
    | some p =>
      obtain ⟨row, others⟩ := p
      rw [eliminate_of_pivot solved n hp] at h
      obtain ⟨x, hne, hzero, hx⟩ := ih h (width_step hp hw)
      rw [length_solvedAfter, Nat.add_assoc, Nat.add_comm 1] at hne hzero
      exact ⟨x, hne, hzero, (solves_step hp hw).mpr hx⟩

/-! ### H2 · y = H1 · x, solved for y (R233) -/

/-- The k rows of k symbols of a matrix. -/
def tableRows (k : Nat) (m : Nat → Nat → Sym) : List (List Sym) :=
  (List.range k).map fun r => (List.range k).map (m r)

/-- Symbol c of row r. -/
def entry (rows : List (List Sym)) (r c : Nat) : Sym := (rows.getD r []).getD c 0

/-- The vector of 2k symbols made of two of k symbols. -/
def joinVec (k : Nat) (y x : Nat → Sym) (i : Nat) : Sym := if i < k then y i else x (i - k)

theorem entry_tableRows {k r c : Nat} (m : Nat → Nat → Sym) (hr : r < k) (hc : c < k) :
    entry (tableRows k m) r c = m r c := by
  simp [entry, tableRows, List.getD_eq_getElem?_getD, hr, hc]

theorem eq_tableRows_entry {k : Nat} {rows : List (List Sym)} (hn : rows.length = k)
    (hw : ∀ row ∈ rows, row.length = k) : rows = tableRows k (entry rows) := by
  refine List.ext_getElem (by simp [tableRows, hn]) fun r hr _ => ?_
  have hrow : rows[r].length = k := hw _ (List.getElem_mem hr)
  refine List.ext_getElem (by simp [tableRows, hrow]) fun c hc _ => ?_
  simp [tableRows, entry, List.getD_eq_getElem?_getD, hr, hc]

/-- The elements of a matrix are the entries of its rows (R75). -/
theorem element_eq_entry {s : State} {mx : Matrix} {sl : Slot} {r c : Nat} (hr : r < slotSize sl)
    (hc : c < slotSize sl) : element s mx sl r c = entry (matrixRows s mx sl) r c := by
  rw [matrixRows_eq]
  exact (entry_tableRows (element s mx sl) hr hc).symm

section
variable {k : Nat} {m2 m1 v : Nat → Nat → Sym} {rows : List (List Sym)} {x y z : Nat → Sym}

theorem matVec_joinVec_left (m : Nat → Nat → Sym) (y x : Nat → Sym) (r : Nat) :
    matVec k m (joinVec k y x) r = matVec k m y r :=
  matVec_congr (fun _ hi => if_pos hi) r

theorem joinVec_right (y x : Nat → Sym) : (fun j => joinVec k y x (k + j)) = x := by
  funext j
  rw [joinVec, if_neg (by omega), Nat.add_sub_cancel_left]

/-- The rows [H2 | H1], as the elimination begins with them. -/
theorem zipWith_append_tableRows :
    List.zipWith (· ++ ·) (tableRows k m2) (tableRows k m1)
      = (List.range k).map fun r => (List.range k).map (m2 r) ++ (List.range k).map (m1 r) := by
  rw [tableRows, tableRows, List.zipWith_map, List.zipWith_self]

theorem solves_blocks_iff :
    Solves z [] (List.zipWith (· ++ ·) (tableRows k m2) (tableRows k m1))
      ↔ ∀ r < k, matVec k m2 z r = matVec k m1 (fun j => z (k + j)) r := by
  have hdot (r : Nat) : rowDot z 0 ((List.range k).map (m2 r) ++ (List.range k).map (m1 r))
      = matVec k m2 z r ^^^ matVec k m1 (fun j => z (k + j)) r := by
    simp only [rowDot_append, rowDot_map_range, List.length_map, List.length_range, Nat.zero_add, matVec]
  rw [zipWith_append_tableRows]
  constructor
  · rintro ⟨-, hrest⟩ r hr
    exact sym_xor_eq_zero_iff.mp ((hdot r).symm.trans (hrest _ (List.mem_map_of_mem (List.mem_range.mpr hr))))
  · refine fun h => ⟨rfl, fun row hrow => ?_⟩
    obtain ⟨r, hr, rfl⟩ := List.mem_map.mp hrow
    exact (hdot r).trans (sym_xor_eq_zero_iff.mpr (h r (List.mem_range.mp hr)))

theorem solves_solved_iff (hn : rows.length = k) (hw : ∀ row ∈ rows, row.length = k) :
    Solves z rows [] ↔ ∀ r < k, z r = matVec k (entry rows) (fun j => z (k + j)) r := by
  have hdots : rows.map (rowDot z k) = (List.range k).map (matVec k (entry rows) fun j => z (k + j)) := by
    rw [eq_tableRows_entry hn hw, tableRows, List.map_map, ← tableRows, ← eq_tableRows_entry hn hw]
    exact List.map_congr_left fun r _ => rowDot_map_range (entry rows r) k
  have hiff : Solves z rows [] ↔ rows.map (rowDot z k) = (List.range k).map z := by
    subst hn
    exact ⟨Solves.onSolved, fun h => ⟨h, by simp⟩⟩
  rw [hiff, hdots, List.map_inj_left]
  simp only [List.mem_range, eq_comm]

theorem length_blocks : ∀ row ∈ List.zipWith (· ++ ·) (tableRows k m2) (tableRows k m1), row.length = k + k := by
  rw [zipWith_append_tableRows]
  intro row hrow
  obtain ⟨r, -, rfl⟩ := List.mem_map.mp hrow
  simp

/-- Where the elimination of [H2 | H1] ends with A, the solutions of H2 · y = H1 · x are y = A · x. -/
theorem solveBlocks_some (h : solveBlocks k (tableRows k m2) (tableRows k m1) = some rows) :
    rows.length = k ∧ (∀ row ∈ rows, row.length = k)
      ∧ ∀ y x, (∀ r < k, matVec k m2 y r = matVec k m1 x r) ↔ ∀ r < k, y r = matVec k (entry rows) x r := by
  have hn : rows.length = k := by simpa using length_eliminate h
  obtain ⟨hw, hsolves⟩ := solves_iff_of_eliminate h length_blocks (by simp [tableRows])
  refine ⟨hn, hw, fun y x => ?_⟩
  have hyx := (solves_blocks_iff (z := joinVec k y x)).symm.trans
    ((hsolves (joinVec k y x)).trans (solves_solved_iff hn hw))
  simp only [matVec_joinVec_left, joinVec_right] at hyx
  exact hyx.trans (forall₂_congr fun r hr => by rw [joinVec, if_pos hr])

/-- Where the elimination fails, H2 takes a vector other than 0 to 0. -/
theorem solveBlocks_none (h : solveBlocks k (tableRows k m2) (tableRows k m1) = none) :
    ∃ y, (∃ i < k, y i ≠ 0) ∧ ∀ r < k, matVec k m2 y r = 0 := by
  obtain ⟨y, hne, hzero, hy⟩ := exists_solution_of_eliminate_none h length_blocks
  simp only [List.length_nil, Nat.zero_add] at hne hzero
  refine ⟨y, hne, fun r hr => ?_⟩
  rw [solves_blocks_iff.mp hy r hr, matVec_zero fun i _ => hzero (k + i) (by omega)]

/-- A matrix with a left inverse takes no vector but 0 to 0, so the elimination ends (R233). -/
theorem IsLeftInverse.exists_solveBlocks (h : IsLeftInverse k v m2) (m1 : Nat → Nat → Sym) :
    ∃ rows, solveBlocks k (tableRows k m2) (tableRows k m1) = some rows := by
  cases hs : solveBlocks k (tableRows k m2) (tableRows k m1) with
  | some rows => exact ⟨rows, rfl⟩
  | none =>
    obtain ⟨y, ⟨i, hi, hne⟩, hy⟩ := solveBlocks_none hs
    exact absurd ((h.matVec_matVec_eq hi).symm.trans (matVec_zero hy i)) hne

/-- Where the elimination ends, H2 takes no vector but 0 to 0; then [H2 | I] eliminates as well, to the inverse. -/
theorem exists_isLeftInverse (h : solveBlocks k (tableRows k m2) (tableRows k m1) = some rows) :
    ∃ v, IsLeftInverse k v m2 := by
  obtain ⟨-, -, hsol⟩ := solveBlocks_some h
  cases hs : solveBlocks k (tableRows k m2) (tableRows k fun r c => unitVec c r) with
  | none =>
    obtain ⟨y, ⟨i, hi, hne⟩, hy⟩ := solveBlocks_none hs
    have hyzero := (hsol y fun _ => 0).mp fun r hr => by rw [hy r hr, matVec_zero fun _ _ => rfl]
    exact absurd ((hyzero i hi).trans (matVec_zero (fun _ _ => rfl) i)) hne
  | some inv =>
    obtain ⟨-, -, hinv⟩ := solveBlocks_some hs
    refine ⟨entry inv, fun r c hr hc => ((hinv (unitVec c) fun t => m2 t c).mp (fun t ht => ?_) r hr).symm⟩
    rw [matVec_unitVec hc, unitVec_matVec ht]

end

/-! ### What derives (R233) -/

theorem leftInverse_iff {s : State} {sl : Slot} {v : Nat → Nat → Sym} :
    LeftInverse s sl v ↔ IsLeftInverse (slotSize sl) v (element s .h2 sl) := by
  simp only [LeftInverse, IsLeftInverse, matVec, gfMul_eq_gfTimes, unitVec]

theorem entry_transposeRows {k i j : Nat} {rows : List (List Sym)} (hn : rows.length = k) (hi : i < k) (hj : j < k) :
    entry (transposeRows k rows) i j = entry rows j i := by
  simp [transposeRows, entry, List.getD_eq_getElem?_getD, hn, hi, hj]

section
variable {s : State} {sl : Slot} {q : List (List Sym)} {v : Nat → Nat → Sym}

theorem derivedQ_eq (s : State) (sl : Slot) :
    derivedQ s sl = (solveBlocks (slotSize sl) (tableRows (slotSize sl) (element s .h2 sl))
      (tableRows (slotSize sl) (element s .h1 sl))).map (transposeRows (slotSize sl)) := by
  rw [derivedQ, matrixRows_eq, matrixRows_eq]; rfl

/-- The solutions of H2 · y = H1 · x are y = Q^t · x. -/
theorem derivedQ_solves (h : derivedQ s sl = some q) (y x : Nat → Sym) :
    (∀ r < slotSize sl, matVec (slotSize sl) (element s .h2 sl) y r = matVec (slotSize sl) (element s .h1 sl) x r)
      ↔ ∀ r < slotSize sl, y r = matVec (slotSize sl) (fun j i => entry q i j) x r := by
  rw [derivedQ_eq] at h
  obtain ⟨rows, hrows, rfl⟩ := Option.map_eq_some_iff.mp h
  obtain ⟨hn, -, hsol⟩ := solveBlocks_some hrows
  refine (hsol y x).trans (forall₂_congr fun r hr => Eq.congr_right (gfSum_congr fun i hi => ?_))
  exact congrArg (gfMul · (x i)) (entry_transposeRows hn hi hr).symm

/-- H2 · Q^t = H1. -/
theorem h2_mul_derivedQ (h : derivedQ s sl = some q) {r c : Nat} (hr : r < slotSize sl) (hc : c < slotSize sl) :
    matVec (slotSize sl) (element s .h2 sl) (entry q c) r = element s .h1 sl r c := by
  rw [← matVec_unitVec (m := element s .h1 sl) hc r]
  exact (derivedQ_solves h (entry q c) (unitVec c)).mpr 
    (fun i _ => (matVec_unitVec (m := fun j i => entry q i j) hc i).symm) r hr

/-- Q^t = V · H1 for every left inverse V of H2. -/
theorem derivedQ_eq_leftInverse_mul (h : derivedQ s sl = some q) (hv : IsLeftInverse (slotSize sl) v (element s .h2 sl))
    {i j : Nat} (hi : i < slotSize sl) (hj : j < slotSize sl) :
    entry q i j = matVec (slotSize sl) v (fun t => element s .h1 sl t i) j := by
  rw [← hv.matVec_matVec_eq (x := entry q i) hj]
  exact matVec_congr (fun t ht => h2_mul_derivedQ h ht hi) j

/-- A Q derives exactly when H2 has a left inverse. -/
theorem exists_derivedQ_iff : (∃ q, derivedQ s sl = some q) ↔ ∃ v, LeftInverse s sl v := by
  simp only [leftInverse_iff, derivedQ_eq, Option.map_eq_some_iff]
  constructor
  · rintro ⟨_, rows, hrows, -⟩
    exact exists_isLeftInverse hrows
  · rintro ⟨v, hv⟩
    obtain ⟨rows, hrows⟩ := hv.exists_solveBlocks (element s .h1 sl)
    exact ⟨_, rows, hrows, rfl⟩

end

/-! ### LDPC.DERIVE -/

section
variable {s : State} {sl : Slot} {q : List (List Sym)}

theorem exec_ldpcDerive_some (h : derivedQ s sl = some q) :
    exec (.ldpcDerive sl) s
      = .next (complete { setMatrix s .q sl q with ldpcValid := markValid s.ldpcValid sl }) := by
  have hexec : exec (.ldpcDerive sl) s = execLdpcDerive sl s := rfl
  rw [hexec, execLdpcDerive, h]; rfl

theorem exec_ldpcDerive_none (h : derivedQ s sl = none) :
    exec (.ldpcDerive sl) s = .next (fatalRecord .singular (encode (.ldpcDerive sl)) s) := by
  have hexec : exec (.ldpcDerive sl) s = execLdpcDerive sl s := rfl
  rw [hexec, execLdpcDerive, h]; rfl

/-- Q reads as what derived, once it is written (R75). -/
theorem element_setMatrix_derivedQ (h : derivedQ s sl = some q) {i j : Nat} (hi : i < slotSize sl)
    (hj : j < slotSize sl) : element (setMatrix s .q sl q) .q sl i j = entry q i j := by
  obtain ⟨hn, hw⟩ := derivedQ_shape h
  rw [element_eq_entry hi hj, matrixRows_setMatrix_same s .q sl hn hw]

/-- Writing Q leaves the elements of H1 and H2 alone (R44). -/
theorem element_setMatrix_other {mx mx' : Matrix} (hmx : mx ≠ mx') (q : List (List Sym)) {r c : Nat}
    (hr : r < slotSize sl) (hc : c < slotSize sl) :
    element (setMatrix s mx sl q) mx' sl r c = element s mx' sl r c := by
  rw [element_eq_entry hr hc, matrixRows_setMatrix_other s (.inl hmx), ← element_eq_entry hr hc]

end

/-- Settles O47: a left inverse V lets the elimination end (`exists_derivedQ_iff`), and with H2 · Q^t = H1 it gives
Q^t = V · H1 (`derivedQ_eq_leftInverse_mul`). -/
theorem deriveSolvesOrIsSingular : Obligations.DeriveSolvesOrIsSingular := by
  refine fun sl s => ⟨fun v hv => ?inverse, fun hv => ?singular⟩
  case inverse =>
    obtain ⟨q, hq⟩ := exists_derivedQ_iff.mpr ⟨v, hv⟩
    refine ⟨(setMatrix s .q sl q).mem, markValid s.ldpcValid sl, exec_ldpcDerive_some hq, by simp, fun sl' hsl => ?_,
      fun i j hi hj => ?_, fun a ha => readByte_replaceRange_out ha⟩
    · simp [hsl]
    · calc element (setMatrix s .q sl q) .q sl i j = entry q i j := element_setMatrix_derivedQ hq hi hj
        _ = matVec (slotSize sl) v (fun t => element s .h1 sl t i) j :=
          derivedQ_eq_leftInverse_mul hq (leftInverse_iff.mp hv) hi hj
        _ = _ := by simp only [matVec, gfMul_eq_gfTimes]
  case singular =>
    cases hq : derivedQ s sl with
    | none => exact exec_ldpcDerive_none hq
    | some q => exact absurd (exists_derivedQ_iff.mp ⟨q, hq⟩) hv

/-- Settles O48: LDPC.DERIVE ends with CODE = OK only where a Q derives, and H2 · Q^t = H1 is what deriving means
(`h2_mul_derivedQ`). -/
theorem derivedQSatisfiesH : Obligations.DerivedQSatisfiesH := by
  refine ⟨gfMul_eq_gfTimes, fun a b ha => ?inverse, fun sl s t hexec hcode r c hr hc => ?product⟩
  case inverse =>
    rw [← gfMul_eq_gfTimes]
    exact gfMul_eq_one_iff ha b
  case product =>
    cases hq : derivedQ s sl with
    | none =>
      rw [exec_ldpcDerive_none hq] at hexec
      cases hexec; cases hcode
    | some q =>
      rw [exec_ldpcDerive_some hq] at hexec
      cases hexec
      have hother : ∀ mx, mx ≠ .q → ∀ r c, r < slotSize sl → c < slotSize sl →
          element (setMatrix s .q sl q) mx sl r c = element s mx sl r c :=
        fun _ hmx _ _ hr hc => element_setMatrix_other hmx.symm q hr hc
      calc _ = matVec (slotSize sl) (element s .h2 sl) (entry q c) r :=
            gfSum_congr fun i hi => by
              rw [← gfMul_eq_gfTimes]
              exact congrArg₂ gfMul (hother .h2 (by decide) r i hr hi) (element_setMatrix_derivedQ hq hc hi)
        _ = element s .h1 sl r c := h2_mul_derivedQ hq hr hc
        _ = _ := (hother .h1 (by decide) r c hr hc).symm


/-! ### The codeword (R232, R234) -/

theorem symbolsOf_eq_map (k : Nat) (m : Bits) : symbolsOf k m = (List.range k).map (symbolAt m) := by
  induction k generalizing m with
  | zero => rfl
  | succ k ih =>
    have hshift (i : Nat) : symbolAt (m.drop 6) i = symbolAt m (i + 1) := by
      rw [symbolAt, symbolAt, List.drop_drop, Nat.mul_succ, Nat.add_comm]
    rw [symbolsOf, ih, List.range_succ_eq_map, List.map_cons, List.map_map]
    exact congrArg _ (List.map_congr_left fun i _ => hshift i)

/-- Adding n scaled rows of k symbols to the zero row gives the sums of the columns. -/
theorem foldl_addScaled_range (k n : Nat) (u : Nat → Sym) (q : Nat → Nat → Sym) :
    (List.range n).foldl (fun acc i => addScaled acc (u i) ((List.range k).map (q i))) (List.replicate k 0)
      = (List.range k).map fun j => gfSum n fun i => gfMul (u i) (q i j) := by
  induction n with
  | zero => simp [gfSum]
  | succ n ih =>
    rw [List.range_succ, List.foldl_append, ih, List.foldl_cons, List.foldl_nil, addScaled_eq _ (by simp),
      List.zipWith_map, List.zipWith_self]
    simp only [gfSum_succ, gfAdd]

/-- The machine's parity symbols are those of the rule (R234). -/
theorem paritySymbols_eq (s : State) (sl : Slot) (m : Bits) :
    paritySymbols (slotSize sl) (symbolsOf (slotSize sl) m) (matrixRows s .q sl)
      = (List.range (slotSize sl)).map (paritySymbol s sl m) := by
  rw [paritySymbols, symbolsOf_eq_map, matrixRows_eq, List.zip_map', List.foldl_map, foldl_addScaled_range]
  simp only [gfMul_eq_gfTimes]; rfl

theorem ldpcEncode_eq (s : State) (sl : Slot) (m : Bits) : ldpcEncode s sl m = ldpcCodeword s sl m := by
  rw [ldpcEncode, ldpcCodeword, paritySymbols_eq, symbolBits, List.flatMap_map]

/-! ### LDPC.ENC -/

theorem exec_ldpcEnc (d a : Buf) (sl : Slot) (s : State) :
    exec (.ldpcEnc d a sl) s = conclude (.ldpcEnc d a sl) s
      (if bufLen s a ≠ 6 * slotSize sl then .fatal .badLength
        else if slotValid s sl = false then .fatal .notDerived
        else .done (setBuf s d (ldpcCodeword s sl (readBuf s a)))) := by
  rw [← ldpcEncode_eq, ← length_readBuf]; rfl

theorem length_ldpcCodeword_le_cap {sl : Slot} (s : State) {m : Bits} (h : m.length = 6 * slotSize sl) :
    (ldpcCodeword s sl m).length ≤ Config.cap := by
  have hlen := length_ldpcEncode_le s sl m
  have hk := slotSize_le sl
  rw [← ldpcEncode_eq, Config.cap]
  omega

/-- Settles O49: the two checks in order, then the parity symbols of `paritySymbols_eq`. -/
theorem ldpcEncAsRule : Obligations.LdpcEncAsRule := by
  intro d a sl s
  rw [exec_ldpcEnc]
  refine ⟨fun hlen => conclude_of_check_fails hlen, fun hlen hvalid => ?_, fun hlen hvalid => ?_⟩
  · rw [conclude_of_check_passes (not_not.mpr hlen), conclude_of_check_fails hvalid]
  · rw [conclude_of_check_passes (not_not.mpr hlen), conclude_of_check_passes (by simp [hvalid])]
    exact conclude_setBuf rfl (length_ldpcCodeword_le_cap s ((length_readBuf s a).trans hlen))

/-! ### The parity check (R235) -/

section
variable {k i : Nat} {m : Bits}

theorem symbolAt_append_left (h : m.length = 6 * k) (p : Bits) (hi : i < k) : symbolAt (m ++ p) i = symbolAt m i := by
  rw [symbolAt, symbolAt, List.drop_append_of_le_length (by omega),
    List.take_append_of_le_length (by rw [List.length_drop]; omega)]

theorem symbolAt_append_right (h : m.length = 6 * k) (p : Bits) (i : Nat) :
    symbolAt (m ++ p) (k + i) = symbolAt p i := by
  rw [symbolAt, symbolAt, Nat.mul_add, ← h, List.drop_length_add_append]

/-- The string of symbols has these symbols (R232). -/
theorem symbolAt_flatMap_bitsOf (f : Nat → Sym) (hi : i < k) :
    symbolAt ((List.range k).flatMap fun j => bitsOf 6 (f j).toNat) i = f i := by
  have hblock (x : Sym) : BitVec.ofNat 6 (num (bitsOf 6 x.toNat)) = x := by
    rw [num_bitsOf, Nat.mod_eq_of_lt x.isLt, BitVec.ofNat_toNat, BitVec.setWidth_eq]
  induction k generalizing i f with
  | zero => omega
  | succ k ih =>
    rw [List.range_succ_eq_map, List.flatMap_cons, List.flatMap_map]
    cases i with
    | zero =>
      rw [symbolAt, Nat.mul_zero, List.drop_zero, List.take_left' (length_bitsOf 6 _), hblock]
    | succ i =>
      rw [Nat.add_comm i 1, symbolAt_append_right (k := 1) (length_bitsOf 6 _), Nat.add_comm 1 i]
      exact ih (fun j => f (j + 1)) (Nat.lt_of_succ_lt_succ hi)

end

section
variable {s : State} {sl : Slot} {m : Bits}

/-- The codeword's symbols: first those of the message, then the parity symbols (R234). -/
theorem symbolAt_ldpcCodeword_message (h : m.length = 6 * slotSize sl) {i : Nat} (hi : i < slotSize sl) :
    symbolAt (ldpcCodeword s sl m) i = symbolAt m i := symbolAt_append_left h _ hi

theorem symbolAt_ldpcCodeword_parity (h : m.length = 6 * slotSize sl) {i : Nat} (hi : i < slotSize sl) :
    symbolAt (ldpcCodeword s sl m) (slotSize sl + i) = paritySymbol s sl m i := by
  rw [ldpcCodeword, symbolAt_append_right h, symbolAt_flatMap_bitsOf _ hi]

/-- The parity symbols are p = Q^t · u (R234). -/
theorem paritySymbol_eq_matVec {j : Nat} (hj : j < slotSize sl) :
    paritySymbol s sl m j = matVec (slotSize sl) (fun j i => entry (matrixRows s .q sl) i j) (symbolAt m) j :=
  gfSum_congr fun i hi => by rw [← gfMul_eq_gfTimes, gfMul_comm, element_eq_entry hi hj]

/-- Under a derived Q the parity symbols solve H2 · p = H1 · u (R235). -/
theorem h2_mul_paritySymbol (h : derivedQ s sl = some (matrixRows s .q sl)) {r : Nat} (hr : r < slotSize sl) :
    matVec (slotSize sl) (element s .h2 sl) (paritySymbol s sl m) r
      = matVec (slotSize sl) (element s .h1 sl) (symbolAt m) r :=
  (derivedQ_solves h _ _).mpr (fun _ hj => paritySymbol_eq_matVec hj) r hr

end

/-- Settles O50: H1 · u and H2 · p are equal (`h2_mul_paritySymbol`) and cancel. -/
theorem codewordSatisfiesParityCheck : Obligations.CodewordSatisfiesParityCheck := by
  intro d a sl s hderived hvalid hlen
  have hm : (readBuf s a).length = 6 * slotSize sl := (length_readBuf s a).trans hlen
  obtain ⟨-, -, hencode⟩ := ldpcEncAsRule d a sl s
  obtain ⟨t, hexec, hwrote⟩ := hencode hlen hvalid
  obtain ⟨lens, mem, ht⟩ := hwrote.registers
  refine ⟨t, hexec, by rw [ht], ?message, fun r hr => ?parity⟩
  case message => rw [hwrote.string, ldpcCodeword, List.take_left' hm]
  case parity =>
    simp only [hwrote.string, ← gfMul_eq_gfTimes]
    refine sym_xor_eq_zero_iff.mpr ?_
    calc _ = matVec (slotSize sl) (element s .h1 sl) (symbolAt (readBuf s a)) r :=
          matVec_congr (fun _ hi => symbolAt_ldpcCodeword_message hm hi) r
      _ = matVec (slotSize sl) (element s .h2 sl) (paritySymbol s sl (readBuf s a)) r :=
          (h2_mul_paritySymbol (hderived sl hvalid) hr).symm
      _ = _ := matVec_congr (fun _ hi => (symbolAt_ldpcCodeword_parity hm hi).symm) r

end Sys2Proof.Machine

/-! The interleaver family (46_interleavers.md): INTLV.B1I (O51), INTLV.B1C (O52) and its inverse (O53). Row r of the
36 × 48 matrix is a slice of its source; the interleaver and its inverse are both judged by these slices. -/

namespace Sys2Proof.Machine

open Sys2Proof.Spec

/-! ### The length checks of a command with two sources (R261, R264) -/

section
variable {i : Instr} {s : State} {v : Verdict} {n m k l : Nat}

theorem conclude_of_length_mismatch (h : k ≠ n ∨ l ≠ m) :
    conclude i s (if k ≠ n then .fatal .badLength else if l ≠ m then .fatal .badLength else v)
      = .next (fatalRecord .badLength (encode i) s) := by
  by_cases hk : k = n
  · rw [conclude_of_check_passes (not_not.mpr hk), conclude_of_check_fails (h.resolve_left (not_not.mpr hk))]
  · exact conclude_of_check_fails hk

theorem conclude_of_lengths_match (hk : k = n) (hl : l = m) :
    conclude i s (if k ≠ n then .fatal .badLength else if l ≠ m then .fatal .badLength else v) = conclude i s v := by
  rw [conclude_of_check_passes (not_not.mpr hk), conclude_of_check_passes (not_not.mpr hl)]

end

theorem exec_intlvB1I (d a b : Buf) (s : State) :
    exec (.intlvB1I d a b) s = conclude (.intlvB1I d a b) s
      (if bufLen s a ≠ 15 then .fatal .badLength else if bufLen s b ≠ 15 then .fatal .badLength
        else .done (setBuf s d (interleave2 (readBuf s a) (readBuf s b)))) := by
  rw [← length_readBuf s a, ← length_readBuf s b]; rfl

theorem exec_intlvB1C (d a b : Buf) (s : State) :
    exec (.intlvB1C d a b) s = conclude (.intlvB1C d a b) s
      (if bufLen s a ≠ 1200 then .fatal .badLength else if bufLen s b ≠ 528 then .fatal .badLength
        else .done (setBuf s d (interleave36x48 (readBuf s a) (readBuf s b)))) := by
  rw [← length_readBuf s a, ← length_readBuf s b]; rfl

/-! ### INTLV.B1I (R260, R264) -/

/-- Settles O51: the bits are those of `interleave2_eq_map`. -/
theorem intlvB1IAlternates : Obligations.IntlvB1IAlternates := by
  intro d a b s
  rw [exec_intlvB1I]
  refine ⟨fun ha hb => ?_, conclude_of_length_mismatch⟩
  rw [conclude_of_lengths_match ha hb,
    interleave2_eq_map (n := 15) ((length_readBuf s a).trans ha) ((length_readBuf s b).trans hb)]
  exact conclude_setBuf rfl (by rw [List.length_map, List.length_range]; decide)

/-! ### The rows of the 36 × 48 matrix (R262) -/

/-- The number of rows before row r that the subframe-3 stream fills: one in three, up to row 33. -/
def sf3RowsBefore (r : Nat) : Nat := min (r / 3) 11

/-- The number of rows before row r that the subframe-2 stream fills. -/
def sf2RowsBefore (r : Nat) : Nat := r - sf3RowsBefore r

/-- Row r as a slice of the stream that fills it. -/
def streamRow (sf2 sf3 : Bits) (r : Nat) : Bits :=
  if rowFromSF3 r then (sf3.drop (48 * sf3RowsBefore r)).take 48 else (sf2.drop (48 * sf2RowsBefore r)).take 48

theorem rowFromSF3_iff (r : Nat) : rowFromSF3 r = true ↔ r < 33 ∧ r % 3 = 2 := by
  simp [rowFromSF3]

/-- A row of the subframe-3 stream moves that stream on, and no other. -/
theorem rowsBefore_succ_of_sf3 {r : Nat} (h : rowFromSF3 r = true) :
    sf3RowsBefore (r + 1) = sf3RowsBefore r + 1 ∧ sf2RowsBefore (r + 1) = sf2RowsBefore r := by
  obtain ⟨hlt, hmod⟩ := (rowFromSF3_iff r).mp h
  simp only [sf2RowsBefore, sf3RowsBefore]
  omega

/-- A row of the subframe-2 stream moves that stream on, and no other. -/
theorem rowsBefore_succ_of_sf2 {r : Nat} (h : ¬ rowFromSF3 r = true) :
    sf3RowsBefore (r + 1) = sf3RowsBefore r ∧ sf2RowsBefore (r + 1) = sf2RowsBefore r + 1 := by
  rw [rowFromSF3_iff] at h
  simp only [sf2RowsBefore, sf3RowsBefore]
  omega

section
variable (sf2 sf3 : Bits)

/-- From row r on, the streams stand where the rows before r left them. -/
theorem fillRows_drop_rowsBefore (r n : Nat) :
    fillRows r (sf2.drop (48 * sf2RowsBefore r)) (sf3.drop (48 * sf3RowsBefore r)) n
      = (List.range' r n).map (streamRow sf2 sf3) := by
  induction n generalizing r with
  | zero => rfl
  | succ n ih =>
    rw [fillRows, List.range'_succ, List.map_cons, ← ih (r + 1), streamRow]
    split
    case isTrue h =>
      obtain ⟨h3, h2⟩ := rowsBefore_succ_of_sf3 h
      rw [h3, h2, List.drop_drop, ← Nat.mul_succ]
    case isFalse h =>
      obtain ⟨h3, h2⟩ := rowsBefore_succ_of_sf2 h
      rw [h3, h2, List.drop_drop, ← Nat.mul_succ]

theorem fillRows_eq_map_streamRow (n : Nat) : fillRows 0 sf2 sf3 n = (List.range n).map (streamRow sf2 sf3) := by
  rw [List.range_eq_range']
  exact fillRows_drop_rowsBefore sf2 sf3 0 n

/-- Rows that are the next 48 bits of a stream, each after those before it, are in order the stream's beginning. -/
theorem flatMap_filter_eq_take {p : Nat → Bool} {before : Nat → Nat} {row : Nat → Bits} (y : Bits)
    (hzero : before 0 = 0)
    (htaken : ∀ r, p r = true → before (r + 1) = before r + 1 ∧ row r = (y.drop (48 * before r)).take 48)
    (hskipped : ∀ r, ¬ p r = true → before (r + 1) = before r) (n : Nat) :
    ((List.range n).filter p).flatMap row = y.take (48 * before n) := by
  induction n with
  | zero => simp [hzero]
  | succ n ih =>
    rw [List.range_succ, List.filter_append, List.flatMap_append, ih]
    by_cases h : p n = true
    · obtain ⟨hnext, hrow⟩ := htaken n h
      rw [hnext, Nat.mul_succ, List.take_add, ← hrow]
      simp [h]
    · rw [hskipped n h]
      simp [h]

theorem flatMap_sf3_rows (n : Nat) :
    ((List.range n).filter rowFromSF3).flatMap (streamRow sf2 sf3) = sf3.take (48 * sf3RowsBefore n) :=
  flatMap_filter_eq_take sf3 rfl (fun _ h => ⟨(rowsBefore_succ_of_sf3 h).1, if_pos h⟩)
    (fun _ h => (rowsBefore_succ_of_sf2 h).1) n

theorem flatMap_sf2_rows (n : Nat) :
    ((List.range n).filter fun r => !rowFromSF3 r).flatMap (streamRow sf2 sf3)
      = sf2.take (48 * sf2RowsBefore n) :=
  flatMap_filter_eq_take sf2 rfl
    (fun r h => have hsf2 : ¬ rowFromSF3 r = true := by simpa using h
      ⟨(rowsBefore_succ_of_sf2 hsf2).2, if_neg hsf2⟩)
    (fun _ h => (rowsBefore_succ_of_sf3 (by simpa using h)).2) n

end

section
variable {sf2 sf3 x : Bits} {c r : Nat}

theorem bitAt_take_drop (y : Bits) (k : Nat) {n : Nat} (h : c < n) :
    bitAt ((y.drop k).take n) c = y.getD (k + c) false := by
  rw [bitAt, List.getD_eq_getElem?_getD, List.getD_eq_getElem?_getD, List.getElem?_take_of_lt h, List.getElem?_drop]

/-- Bit c of row r is the bit that the rule takes (R262). -/
theorem bitAt_streamRow (sf2 sf3 : Bits) (hc : c < 48) (hr : r < 36) :
    bitAt (streamRow sf2 sf3 r) c = interleavedBit sf2 sf3 c r := by
  have hcount : sf3RowsBefore r = r / 3 := by rw [sf3RowsBefore]; omega
  simp only [streamRow, interleavedBit, rowFromSF3_iff, apply_ite (bitAt · c), bitAt_take_drop _ _ hc,
    sf2RowsBefore, hcount]

/-- Streams of 1200 and 528 bits fill every row (R261). -/
theorem length_streamRow (h2 : sf2.length = 1200) (h3 : sf3.length = 528) (hr : r < 36) :
    (streamRow sf2 sf3 r).length = 48 := by
  rw [streamRow]
  split
  case isTrue h =>
    have hlast : r < 33 := ((rowFromSF3_iff r).mp h).1
    rw [List.length_take, List.length_drop, sf3RowsBefore]
    omega
  case isFalse h =>
    rw [rowFromSF3_iff] at h
    rw [List.length_take, List.length_drop, sf2RowsBefore, sf3RowsBefore]
    omega

/-! ### INTLV.B1C (R261) -/

/-- Bit k·c + r of n blocks of k bits is bit r of block c. -/
theorem getD_flatMap_range_map {n k : Nat} (f : Nat → Nat → Bool) (hc : c < n) (hr : r < k) :
    ((List.range n).flatMap fun c => (List.range k).map (f c)).getD (k * c + r) false = f c r := by
  induction n generalizing c f with
  | zero => omega
  | succ n ih =>
    rw [List.range_succ_eq_map, List.flatMap_cons, List.flatMap_map]
    cases c with
    | zero =>
      rw [List.getD_append _ _ _ _ (by simpa using hr)]
      simp [List.getD_eq_getElem?_getD, hr]
    | succ c =>
      have hpos : k * (c + 1) + r - k = k * c + r := by rw [Nat.mul_succ]; omega
      rw [List.getD_append_right _ _ _ _ (by simp [Nat.mul_succ]; omega), List.length_map, List.length_range, hpos]
      exact ih (fun c => f (c + 1)) (Nat.lt_of_succ_lt_succ hc)

theorem interleaved_interleave36x48 (sf2 sf3 : Bits) : Interleaved sf2 sf3 (interleave36x48 sf2 sf3) := by
  refine ⟨length_interleave36x48 sf2 sf3, fun c r hc hr => ?_⟩
  simp only [interleave36x48, readColumns, fillRows_eq_map_streamRow, List.map_map]
  exact (getD_flatMap_range_map _ hc hr).trans (bitAt_streamRow sf2 sf3 hc hr)

/-- Settles O52: the machine's rows are slices of the streams (`fillRows_eq_map_streamRow`), read by columns. -/
theorem intlvB1CPositions : Obligations.IntlvB1CPositions := by
  intro d a b s
  rw [exec_intlvB1C]
  refine ⟨fun ha hb => ?_, conclude_of_length_mismatch⟩
  rw [conclude_of_lengths_match ha hb]
  obtain ⟨t, hexec, hwrote⟩ := conclude_setBuf (i := .intlvB1C d a b) (s := s) (d := d) rfl
    ((length_interleave36x48 (readBuf s a) (readBuf s b)).trans_le (by decide))
  exact ⟨t, _, hexec, hwrote, interleaved_interleave36x48 _ _⟩

/-! ### The inverse (R263) -/

theorem map_bitAt_range {y : Bits} {n : Nat} (h : y.length = n) : (List.range n).map (bitAt y) = y := by
  refine List.ext_getElem (by simp [h]) fun i _ hi => ?_
  rw [List.getElem_map, List.getElem_range, bitAt, List.getD_eq_getElem _ _ hi]

/-- Row r of an interleaved string is the slice that filled it. -/
theorem matrixRow_of_interleaved (h : Interleaved sf2 sf3 x) (h2 : sf2.length = 1200) (h3 : sf3.length = 528)
    (hr : r < 36) : matrixRow x r = streamRow sf2 sf3 r := by
  obtain ⟨-, hbits⟩ := h
  calc matrixRow x r = (List.range 48).map (bitAt (streamRow sf2 sf3 r)) :=
        List.map_congr_left fun c hc => by
          rw [bitAt_streamRow sf2 sf3 (List.mem_range.mp hc) hr]
          exact hbits c r (List.mem_range.mp hc) hr
    _ = streamRow sf2 sf3 r := map_bitAt_range (length_streamRow h2 h3 hr)

theorem deinterleave36x48_of_interleaved (h : Interleaved sf2 sf3 x) (h2 : sf2.length = 1200)
    (h3 : sf3.length = 528) : deinterleave36x48 x = (sf2, sf3) := by
  have hrows (p : Nat → Bool) : ((List.range 36).filter p).flatMap (matrixRow x)
      = ((List.range 36).filter p).flatMap (streamRow sf2 sf3) :=
    List.flatMap_congr fun r hr => matrixRow_of_interleaved h h2 h3 (List.mem_range.mp (List.mem_filter.mp hr).1)
  rw [deinterleave36x48, hrows, hrows, flatMap_sf2_rows, flatMap_sf3_rows]
  exact Prod.ext (List.take_of_length_le h2.le) (List.take_of_length_le h3.le)

end

/-- Settles O53: the destination is the interleaved string of O52. -/
theorem deinterleaveRecoversInputs : Obligations.DeinterleaveRecoversInputs := by
  intro d a b s ha hb
  obtain ⟨hwrites, -⟩ := intlvB1CPositions d a b s
  obtain ⟨t, x, hexec, hwrote, hx⟩ := hwrites ha hb
  refine ⟨t, hexec, ?_⟩
  rw [hwrote.string]
  exact deinterleave36x48_of_interleaved hx ((length_readBuf s a).trans ha) ((length_readBuf s b).trans hb)

end Sys2Proof.Machine

/-! The frames family (47_frame_assemblers.md): SF.B1I (O54, O55), SF.B1C1 (O56), SF.B1C2 and SF.B1C3 (O57), FRAME.B1C
(O58) and FRAME.B1I (O59). -/

namespace Sys2Proof.Machine

open Sys2Proof.Spec

/-! ### A check that raises a typed failure (60_exceptions.md R313) -/

section
variable {i : Instr} {s : State} {v : Verdict} {c : TypedCode} {p : Prop} [Decidable p]

theorem conclude_of_typed_check_fails (hp : p) :
    conclude i s (if p then .typed c else v) = .next (typedRecord c s) := by
  rw [if_pos hp, conclude_next, endState_typed, raiseTyped_eq]

theorem conclude_of_typed_check_passes (hp : ¬ p) : conclude i s (if p then .typed c else v) = conclude i s v := by
  rw [if_neg hp]

end

/-! ### The ten words of a B1I subframe (R280, R281) -/

theorem rawWord_one (r : Bits) : rawWord r 1 = r.take 26 := rfl

/-- Word j + 2 takes the 22 bits after the 26 of word 1 and those of the j words between (R280). -/
theorem rawWord_add_two (r : Bits) (j : Nat) : rawWord r (j + 2) = (r.drop (26 + 22 * j)).take 22 := by
  have hwidth : 26 + 22 * (j + 2 - 1) - (26 + 22 * (j + 2 - 2)) = 22 := by omega
  rw [rawWord, if_neg (by omega), substring, hwidth, Nat.add_sub_cancel]

theorem encodeB1ISubframe_eq {r : Bits} (h : r.length = 224) : encodeB1ISubframe r = subframeB1I r := by
  rw [encodeB1ISubframe, subframeB1I, rawWord_one,
    b1iWord1_eq_word1 (by rw [List.length_take]; omega)]
  refine congrArg _ (List.flatMap_congr fun j hj => ?_)
  have hj9 : j < 9 := List.mem_range.mp hj
  rw [rawWord_add_two, b1iWord_eq_word30 (by rw [List.length_take, List.length_drop]; omega)]

theorem length_encodeB1ISubframe {r : Bits} (h : r.length = 224) : (encodeB1ISubframe r).length = 300 := by
  have hword1 : (b1iWord1 (r.take 26)).length = 30 := by
    rw [b1iWord1, List.length_append, length_bch15, length_substring, List.length_take]
    omega
  rw [encodeB1ISubframe, rawWord_one, List.length_append, hword1, List.length_flatMap]
  simp

theorem length_subframeB1I {r : Bits} (h : r.length = 224) : (subframeB1I r).length = 300 := by
  rw [← encodeB1ISubframe_eq h, length_encodeB1ISubframe h]

theorem zeros_append_zeros (m n : Nat) : zeros m ++ zeros n = zeros (m + n) := List.replicate_append_replicate

theorem flatMap_range_zeros (n k : Nat) : ((List.range n).flatMap fun _ => zeros k) = zeros (n * k) := by
  induction n with
  | zero => rw [Nat.zero_mul]; rfl
  | succ n ih =>
    rw [List.range_succ, List.flatMap_append, ih, List.flatMap_singleton, zeros_append_zeros, Nat.succ_mul]

/-- Every word of the zero string encodes to zeros: the codes are linear (R281, Z = 1). -/
theorem encodeB1ISubframe_zeros : encodeB1ISubframe (zeros 224) = zeros 300 := by
  have hword1 : b1iWord1 (rawWord (zeros 224) 1) = zeros 30 := by decide
  have hword : b1iWord (zeros 22) = zeros 30 := by decide
  have hwords : ∀ j ∈ List.range 9, b1iWord (rawWord (zeros 224) (j + 2)) = zeros 30 := by
    intro j hj
    have hj9 : j < 9 := List.mem_range.mp hj
    have hmin : min 22 (224 - (26 + 22 * j)) = 22 := by omega
    rw [rawWord_add_two, zeros, List.drop_replicate, List.take_replicate, hmin]
    exact hword
  rw [encodeB1ISubframe, hword1, List.flatMap_congr hwords, flatMap_range_zeros, zeros_append_zeros]

/-! ### SF.B1I -/

/-- The page has no implemented format (R281, R282). -/
def PageOff (s : State) (sf pg : Nat) : Prop :=
  (sf = 4 ∧ s.pageImpl4.getLsbD pg = false) ∨ (sf = 5 ∧ s.pageImpl5.getLsbD pg = false)

theorem pageUnimplemented_iff (s : State) (sf pg : Nat) : pageUnimplemented s sf pg = true ↔ PageOff s sf pg := by
  simp [pageUnimplemented, PageOff]

section
variable (d a : Buf) (x : Bool) {sf : Nat} (pg : Nat) (z : Bool) (s : State)

/-- SF.B1I checks the subframe number, the page and the source length, and ends as a packing command does (R281). -/
theorem exec_sfB1I (sf : Nat) :
    exec (.sfB1I d a x sf pg z) s = conclude (.sfB1I d a x sf pg z) s
      (if sf < 1 ∨ sf > 5 then .typed .unsupported
        else if z = false ∧ pageUnimplemented s sf pg = true then .typed .unimplPage
        else if z = true then packInto s d x (encodeB1ISubframe (zeros 224))
        else if bufLen s a ≠ 224 then .fatal .badLength
        else packInto s d x (encodeB1ISubframe (readBuf s a))) := by
  rw [← length_readBuf]; rfl

variable {s}

theorem exec_sfB1I_placeholder (h1 : 1 ≤ sf) (h5 : sf ≤ 5) :
    exec (.sfB1I d a x sf pg true) s = conclude (.sfB1I d a x sf pg true) s (packInto s d x (zeros 300)) := by
  rw [exec_sfB1I, conclude_of_typed_check_passes (by omega), conclude_of_typed_check_passes (by simp), if_pos rfl,
    encodeB1ISubframe_zeros]

variable {pg}

/-- With Z = 0 and an implemented page the source length is the next check. -/
theorem exec_sfB1I_source (h1 : 1 ≤ sf) (h5 : sf ≤ 5) (hpage : ¬ PageOff s sf pg) :
    exec (.sfB1I d a x sf pg false) s = conclude (.sfB1I d a x sf pg false) s
      (if bufLen s a ≠ 224 then .fatal .badLength else packInto s d x (encodeB1ISubframe (readBuf s a))) := by
  rw [exec_sfB1I, conclude_of_typed_check_passes (by omega),
    conclude_of_typed_check_passes (fun h => hpage ((pageUnimplemented_iff s sf pg).mp h.2)), if_neg (by decide)]

theorem exec_sfB1I_subframe (h1 : 1 ≤ sf) (h5 : sf ≤ 5) (hpage : ¬ PageOff s sf pg) (hlen : bufLen s a = 224) :
    exec (.sfB1I d a x sf pg false) s
      = conclude (.sfB1I d a x sf pg false) s (packInto s d x (subframeB1I (readBuf s a))) := by
  rw [exec_sfB1I_source d a x h1 h5 hpage, conclude_of_check_passes (not_not.mpr hlen),
    encodeB1ISubframe_eq ((length_readBuf s a).trans hlen)]

end

/-- Settles O54: 300 bits either way, packed as by PACK.U. -/
theorem sfB1IEncodes : Obligations.SfB1IEncodes := by
  intro d a x sf pg s h1 h5 old hfits
  refine ⟨fun hlen h4on h5on => ?encodes, ?placeholder⟩
  case encodes =>
    have hpage : ¬ PageOff s sf pg := by
      rintro (⟨rfl, hoff⟩ | ⟨rfl, hoff⟩)
      · simp [h4on rfl] at hoff
      · simp [h5on rfl] at hoff
    rw [exec_sfB1I_subframe d a x h1 h5 hpage hlen]
    exact conclude_packInto_fits (by rwa [length_subframeB1I ((length_readBuf s a).trans hlen)])
  case placeholder =>
    rw [exec_sfB1I_placeholder d a x pg h1 h5]
    exact conclude_packInto_fits (by rwa [length_zeros])

/-- Settles O55: the four checks in their order; the capacity check follows both the placeholder and the source. -/
theorem sfB1IFailures : Obligations.SfB1IFailures := by
  intro d a x sf pg z s old off
  refine ⟨fun hsf => ?unsupported, fun hz hoff => ?unimplPage, fun h1 h5 hz hon hlen => ?badLength,
    fun h1 h5 hready hlong => ?capacity⟩
  case unsupported => rw [exec_sfB1I, conclude_of_typed_check_fails hsf]
  case unimplPage =>
    have hsf : ¬ (sf < 1 ∨ sf > 5) := by omega
    rw [exec_sfB1I, conclude_of_typed_check_passes hsf,
      conclude_of_typed_check_fails ⟨hz, (pageUnimplemented_iff s sf pg).mpr hoff⟩]
  case badLength =>
    subst hz
    rw [exec_sfB1I_source d a x h1 h5 hon, conclude_of_check_fails hlen]
  case capacity =>
    cases z with
    | true =>
      rw [exec_sfB1I_placeholder d a x pg h1 h5]
      exact conclude_packInto_overflows (by rwa [length_zeros])
    | false =>
      obtain ⟨hon, hlen⟩ := hready rfl
      rw [exec_sfB1I_subframe d a x h1 h5 hon hlen]
      exact conclude_packInto_overflows (by rwa [length_subframeB1I ((length_readBuf s a).trans hlen)])

/-! ### SF.B1C1 (R283) -/

/-- A register started at a number of k bits encodes the k-bit string of it (R200). -/
theorem lfsrRun_fst_eq_bchEncode {k v : Nat} (n mask : Nat) (h : v < 2 ^ k) :
    (lfsrRun k mask v n).1 = bchEncode n k mask (bitsOf k v) := by
  rw [bchEncode, num_bitsOf, Nat.mod_eq_of_lt h]

/-- The codeword begins with the number that it encodes. -/
theorem num_take_bchEncode_bitsOf {n k v : Nat} (mask : Nat) (h : v < 2 ^ k) (hn : k ≤ n) :
    num ((bchEncode n k mask (bitsOf k v)).take k) = v := by
  rw [take_bchEncode mask (length_bitsOf k v) hn, num_bitsOf, Nat.mod_eq_of_lt h]

theorem exec_sfB1C1 (d : Buf) (s : State) :
    exec (.sfB1C1 d) s = conclude (.sfB1C1 d) s
      (if s.arg0.toNat > 63 then .fatal .badValue else if s.arg1.toNat > 255 then .fatal .badValue
        else .done (setBuf s d
          ((lfsrRun 6 0b111010 s.arg0.toNat 21).1 ++ (lfsrRun 8 0b11111001 s.arg1.toNat 51).1))) := rfl

/-- Settles O56: each register runs the systematic encoder of its code (`lfsrRun_fst_eq_bchEncode`). -/
theorem sfB1C1JoinsCodewords : Obligations.SfB1C1JoinsCodewords := by
  intro d s
  rw [exec_sfB1C1]
  refine ⟨fun hprn hsoh => ?joins, fun hwide => ?badValue⟩
  case joins =>
    have hprn6 : s.arg0.toNat < 2 ^ 6 := Nat.lt_succ_of_le hprn
    have hsoh8 : s.arg1.toNat < 2 ^ 8 := Nat.lt_succ_of_le hsoh
    rw [conclude_of_check_passes hprn.not_gt, conclude_of_check_passes hsoh.not_gt,
      lfsrRun_fst_eq_bchEncode _ _ hprn6, lfsrRun_fst_eq_bchEncode _ _ hsoh8]
    obtain ⟨t, hrun, hwrote⟩ := conclude_setBuf (i := .sfB1C1 d) (s := s) (d := d)
      (x := bchEncode 21 6 0b111010 (bitsOf 6 s.arg0.toNat) ++ bchEncode 51 8 0b11111001 (bitsOf 8 s.arg1.toNat)) rfl
      (by rw [List.length_append, length_bchEncode, length_bchEncode]; decide)
    exact ⟨t, _, _, hrun, hwrote, length_bchEncode .., length_bchEncode ..,
      num_take_bchEncode_bitsOf _ hprn6 (by decide), followsRecurrence_bchEncode _ _ _ (by decide),
      num_take_bchEncode_bitsOf _ hsoh8 (by decide), followsRecurrence_bchEncode _ _ _ (by decide)⟩
  case badValue =>
    by_cases hprn : s.arg0.toNat > 63
    · rw [conclude_of_check_fails hprn]
    · rw [conclude_of_check_passes hprn, conclude_of_check_fails (hwide.resolve_left hprn)]

/-! ### SF.B1C2 and SF.B1C3 (R284–R286) -/

theorem exec_sfB1C2 (d a : Buf) (s : State) :
    exec (.sfB1C2 d a) s = conclude (.sfB1C2 d a) s (sealAndEncode s d a 576 .s0) := rfl

theorem exec_sfB1C3 (d a : Buf) (s : State) :
    exec (.sfB1C3 d a) s = conclude (.sfB1C3 d a) s (sealAndEncode s d a 240 .s1) := rfl

theorem sealAndEncode_eq (s : State) (d a : Buf) (len : Nat) (sl : Slot) :
    sealAndEncode s d a len sl
      = if bufLen s a ≠ len then .fatal .badLength
        else if slotValid s sl = false then .fatal .notDerived
        else .done (setBuf s d (ldpcCodeword s sl (sealCrc (readBuf s a)))) := by
  rw [← length_readBuf, ← ldpcEncode_eq]; rfl

/-- `bits_24` of the CRC has the CRC's value (R284). -/
theorem num_bitsOf_crc (c : BitVec 24) : num (bitsOf 24 c.toNat) = c.toNat := by
  rw [num_bitsOf, Nat.mod_eq_of_lt c.isLt]

section
variable (i : Instr) {s : State} (d : Buf) {a : Buf} {len : Nat} {sl : Slot}

theorem conclude_sealAndEncode_badLength (hlen : bufLen s a ≠ len) :
    conclude i s (sealAndEncode s d a len sl) = .next (fatalRecord .badLength (encode i) s) := by
  rw [sealAndEncode_eq, conclude_of_check_fails hlen]

theorem conclude_sealAndEncode_notDerived (hlen : bufLen s a = len) (hvalid : slotValid s sl = false) :
    conclude i s (sealAndEncode s d a len sl) = .next (fatalRecord .notDerived (encode i) s) := by
  rw [sealAndEncode_eq, conclude_of_check_passes (not_not.mpr hlen), conclude_of_check_fails hvalid]

/-- A raw subframe that its CRC fills up to k symbols is sealed and encoded. -/
theorem conclude_sealAndEncode_wrote (hfull : len + 24 = 6 * slotSize sl) (hlen : bufLen s a = len)
    (hvalid : slotValid s sl = true) :
    ∃ t c, conclude i s (sealAndEncode s d a len sl) = .next t ∧ c.length = 24
      ∧ num c = (Config.crc24q (readBuf s a)).toNat ∧ WroteBuffer d (ldpcCodeword s sl (readBuf s a ++ c)) s t := by
  have hsealed : (sealCrc (readBuf s a)).length = 6 * slotSize sl := by
    rw [length_sealCrc, length_readBuf, hlen, hfull]
  obtain ⟨t, hrun, hwrote⟩ := conclude_setBuf (i := i) (d := d) rfl (length_ldpcCodeword_le_cap s hsealed)
  refine ⟨t, _, ?_, length_bitsOf .., num_bitsOf_crc _, hwrote⟩
  rw [sealAndEncode_eq, conclude_of_check_passes (not_not.mpr hlen), conclude_of_check_passes (by simp [hvalid]), hrun]

end

/-- Settles O57: the two commands share `sealAndEncode`; the sealed subframe has the 6k bits of its slot. -/
theorem sfB1C2AndC3SealAndEncode : Obligations.SfB1C2AndC3SealAndEncode := by
  intro d a s i len sl hcommand
  have hexec : exec i s = conclude i s (sealAndEncode s d a len sl) ∧ len + 24 = 6 * slotSize sl := by
    simp only [List.mem_cons, Prod.mk.injEq, List.not_mem_nil, or_false] at hcommand
    obtain ⟨rfl, rfl, rfl⟩ | ⟨rfl, rfl, rfl⟩ := hcommand
    · exact ⟨exec_sfB1C2 d a s, rfl⟩
    · exact ⟨exec_sfB1C3 d a s, rfl⟩
  obtain ⟨hexec, hfull⟩ := hexec
  rw [hexec]
  exact ⟨conclude_sealAndEncode_badLength i d, conclude_sealAndEncode_notDerived i d,
    conclude_sealAndEncode_wrote i d hfull⟩

/-! ### FRAME.B1C (R288) -/

theorem exec_frameB1C (d a b c : Buf) (s : State) :
    exec (.frameB1C d a b c) s = conclude (.frameB1C d a b c) s
      (if bufLen s a ≠ 72 then .fatal .badLength else if bufLen s b ≠ 1200 then .fatal .badLength
        else if bufLen s c ≠ 528 then .fatal .badLength
        else .done (setBuf s d (readBuf s a ++ interleave36x48 (readBuf s b) (readBuf s c)))) := by
  rw [← length_readBuf s a, ← length_readBuf s b, ← length_readBuf s c]; rfl

/-- Settles O58: subframe 1, then the interleaved string of O52. -/
theorem frameB1CLayout : Obligations.FrameB1CLayout := by
  intro d a b c s
  rw [exec_frameB1C]
  refine ⟨fun ha hb hc => ?lays, fun hwrong => ?badLength⟩
  case lays =>
    rw [conclude_of_check_passes (not_not.mpr ha), conclude_of_lengths_match hb hc]
    obtain ⟨t, hrun, hwrote⟩ := conclude_setBuf (i := .frameB1C d a b c) (s := s) (d := d)
      (x := readBuf s a ++ interleave36x48 (readBuf s b) (readBuf s c)) rfl
      (by rw [List.length_append, length_readBuf, ha, length_interleave36x48]; decide)
    exact ⟨t, _, hrun, hwrote, interleaved_interleave36x48 _ _⟩
  case badLength =>
    by_cases ha : bufLen s a = 72
    · rw [conclude_of_check_passes (not_not.mpr ha),
        conclude_of_length_mismatch (hwrong.resolve_left (not_not.mpr ha))]
    · rw [conclude_of_check_fails ha]

/-! ### FRAME.B1I (R289) -/

theorem exec_frameB1I (d a : Buf) (s : State) :
    exec (.frameB1I d a) s = conclude (.frameB1I d a) s
      (if bufLen s a ≠ 1500 then .fatal .badLength else .done (setBuf s d (readBuf s a ++ zeros 4))) := by
  rw [← length_readBuf]; rfl

/-- Settles O59: one check, then a body of 1504 bits. -/
theorem frameB1IAppendsFourZeros : Obligations.FrameB1IAppendsFourZeros := by
  intro d a s
  rw [exec_frameB1I]
  refine ⟨fun hlen => ?appends, fun hlen => conclude_of_check_fails hlen⟩
  rw [conclude_of_check_passes (not_not.mpr hlen)]
  exact conclude_setBuf rfl (by rw [List.length_append, length_readBuf, hlen, List.length_replicate]; decide)

end Sys2Proof.Machine

/-! The exceptions family (60_exceptions.md): commands are atomic (O13), a CMD write in the fatal state is ignored
(O10), and only a reset leaves the fatal state (O16). -/

namespace Sys2Proof.Machine

open Sys2Proof.Spec

/-! ### Success or a record (R311–R314) -/

theorem CommandWrites.errcmd_eq {s u : State} {i : Instr} (w : CommandWrites s i u) : u.errcmd = s.errcmd := by
  cases w <;> rfl

/-- Settles O13: a verdict per outcome, and no write of `CommandWrites` is to FATAL or ERRCMD. -/
theorem commandsAreAtomic : Obligations.CommandsAreAtomic := by
  intro i s
  obtain ⟨v, hexec, hwrites⟩ := exec_writes i s
  rw [hexec]
  cases v with
  | done u => exact .inl ⟨complete u, rfl, complete_code u, hwrites.fatal_eq, hwrites.errcmd_eq⟩
  | typed c => exact .inr (.inl ⟨c, rfl⟩)
  | fatal c => exact .inr (.inr ⟨c, rfl⟩)

/-! ### The fatal state (R315, R321) -/

/-- Settles O10: the gate comes before the decoder (`runCommand_fatal`). -/
theorem fatalGateIgnoresCommands : Obligations.FatalGateIgnoresCommands := by
  intro s w rest hp hf
  exact (step_command hp).trans (runCommand_fatal (s := answered s rest .written) hf w)

/-- FATAL, CODE and ERRCMD of `t` are those of `s`. -/
def SameRecord (s t : State) : Prop := t.fatal = s.fatal ∧ t.code = s.code ∧ t.errcmd = s.errcmd

theorem sameRecord_answered (s : State) (rest : List HostAccess) (r : BusResponse) :
    SameRecord s (answered s rest r) := ⟨rfl, rfl, rfl⟩

theorem sameRecord_withMem (s : State) (m : Memory) : SameRecord s { s with mem := m } := ⟨rfl, rfl, rfl⟩

/-- The only write of a register that reaches the failure record is CTRL with SRESET = 1 (R34, R341). -/
theorem sameRecord_writeReg (s : State) (v : Word) (r : Reg) :
    SameRecord s (writeReg s v r) ∨ (r = .ctrl ∧ v.getLsbD 0 = true) := by
  cases r with
  | ctrl =>
    rw [writeReg]
    split
    case isTrue hv => exact .inr ⟨rfl, hv⟩
    · exact .inl ⟨rfl, rfl, rfl⟩
  | len b =>
    rw [writeReg]
    split <;> exact .inl ⟨rfl, rfl, rfl⟩
  | _ => exact .inl ⟨rfl, rfl, rfl⟩

theorem sameRecord_writeTarget (s : State) (v : Word) (tg : Target) :
    SameRecord s (writeTarget s v tg) ∨ (tg = .reg .ctrl ∧ v.getLsbD 0 = true) := by
  cases tg with
  | reg r => exact (sameRecord_writeReg s v r).imp_right fun ⟨hr, hv⟩ => ⟨congrArg _ hr, hv⟩
  | bufByte a => exact .inl (sameRecord_withMem s _)
  | bufWord a => exact .inl (sameRecord_withMem s _)
  | matrixByte mx sl idx =>
    rw [writeTarget, writeMatrixByte]
    split <;> exact .inl ⟨rfl, rfl, rfl⟩

theorem eq_of_target_reg {off : Nat} {w : Width} {r : Reg} (h : target off w = some (.reg r)) :
    w = .w8 ∧ regAt off = r := by
  unfold target at h
  split_ifs at h with _ hw <;> simp at h
  exact ⟨hw.1, h⟩

theorem eq_of_regAt_ctrl {off : Nat} (h : regAt off = .ctrl) : off = 0x010 := by
  unfold regAt at h
  split at h
  case h_3 => rfl
  all_goals cases h

/-- In the fatal state a write keeps the failure record, or it is a soft reset. -/
theorem performWrite_of_fatal {s t : State} {off : Nat} {w : Width} {v : Word} (hf : s.fatal = true)
    (h : performWrite off w v s = .next t) : SameRecord s t ∨ IsReset (.write off w v) := by
  obtain ⟨-, ⟨-, rfl⟩ | ⟨-, hrun⟩ | ⟨tg, -, ht, rfl⟩⟩ := performWrite_cases h
  · exact .inl ⟨rfl, rfl, rfl⟩
  · rw [runCommand_fatal (s := { s with response := .written }) hf, Host.Outcome.next.injEq] at hrun
    exact .inl (hrun ▸ ⟨rfl, rfl, rfl⟩)
  · refine (sameRecord_writeTarget { s with response := .written } v tg).imp_right fun ⟨htg, hv⟩ => ?_
    obtain ⟨rfl, hreg⟩ := eq_of_target_reg (htg ▸ ht)
    obtain rfl := eq_of_regAt_ctrl hreg
    exact .inr ⟨v, hv, rfl⟩

/-- Settles O16: a read stores its answer only, a CMD write meets the gate, and every other write is either CTRL
with SRESET = 1 or leaves the record alone (`performWrite_of_fatal`). -/
theorem fatalStaysUntilReset : Obligations.FatalStaysUntilReset := by
  intro s t hf hs
  suffices h : SameRecord s t ∨ ∃ a rest, s.pending = a :: rest ∧ IsReset a from
    h.imp_left fun ⟨hfatal, hcode, herrcmd⟩ => ⟨hfatal.trans hf, hcode, herrcmd⟩
  cases hp : s.pending with
  | nil =>
    rw [step, hp, Host.Outcome.next.injEq] at hs
    exact .inl (hs ▸ ⟨rfl, rfl, rfl⟩)
  | cons a rest =>
    cases a with
    | hardReset => exact .inr ⟨_, _, rfl, .inl rfl⟩
    | read off w =>
      obtain ⟨-, rfl⟩ := step_read_next hp hs
      exact .inl (sameRecord_answered s rest _)
    | write off w v =>
      rw [step, hp] at hs
      exact (performWrite_of_fatal (s := { s with pending := rest }) hf hs).imp_right fun h => ⟨_, _, rfl, h⟩

end Sys2Proof.Machine

/-! The reset family (70_reset_and_hazards.md): the reset state (O1, O3) and the two resets (O2). -/

namespace Sys2Proof.Machine

open Sys2Proof.Spec

/-- Memory has no cell at reset, and an unlisted offset reads 0 (R342, log entry 9). -/
theorem readByte_reset (a : Nat) : readByte State.reset.mem a = 0 := readByte_nil a

theorem storageBit_reset (b : Buf) (i : Nat) : storageBit State.reset b i = false := by
  rw [storageBit, readByte_reset]
  exact BitVec.getLsbD_zero

theorem element_reset (mx : Matrix) (sl : Slot) (r c : Nat) : element State.reset mx sl r c = 0 := by
  rw [element, readByte_reset]; rfl

/-- Settles O1: the registers are the fields of `State.reset`; storage, elements and lengths by the lemmas above. -/
theorem resetStateAsSpecified : Obligations.ResetStateAsSpecified :=
  ⟨rfl, rfl, rfl, rfl, rfl, rfl, rfl, rfl, rfl, rfl, rfl, rfl, getLen_reset, storageBit_reset, element_reset, rfl, rfl⟩

/-- Settles O3: both were proved as the base cases of O4 and O5. -/
theorem resetMeetsInvariant : Obligations.ResetMeetsInvariant := ⟨inv_reset, slotsDerived_reset⟩

/-- A reset leaves nothing of a state but its queue and its answer (R340–R342). -/
theorem resetCore_answered (s : State) (rest : List HostAccess) (r : BusResponse) :
    resetCore (answered s rest r) = answered State.reset rest r := rfl

theorem step_hardReset {s : State} {rest : List HostAccess} (hp : s.pending = .hardReset :: rest) :
    step s = .next (answered State.reset rest .noResponse) := by
  rw [step, hp]; rfl

/-- Settles O2: the hard reset is an access of its own; the soft reset is the write of CTRL. -/
theorem resetsGiveResetState : Obligations.ResetsGiveResetState := by
  refine fun s rest => ⟨step_hardReset, fun v hp => ?_⟩
  have hctrl : regAt 0x010 = .ctrl := rfl
  rw [step_writeReg hp (by decide) rfl (by decide), hctrl, writeReg, resetCore_answered]

end Sys2Proof.Machine
